-- ==== Sys2Proof/Word.lean ====
section
/-! DEFINITION. The word and byte types of CORE (R8: every value is an unsigned number of the stated
width). -/

namespace Sys2Proof

/-- A 32-bit word: a command word, an operand, a 32-bit datapath register (R8, R30, R102). -/
abbrev Word := BitVec 32

/-- One byte of IN, PT or OUT, and an 8-bit register (R8, R30, R80). -/
abbrev Byte := BitVec 8

end Sys2Proof
end

