-- ==== Sys2Proof/Syntax.lean ====
section
/-! DEFINITION. The syntax of CORE's commands: one constructor of `Instr` per row of
spec/opcode_table.json (30_encoding.md R103), and the raw packet that a command is sent as (R100, R101). -/

namespace Sys2Proof

/-- The eight commands (R103). Operands are unsigned 32-bit words used as they are (R102); the symbol
of E.BIT is the header bit S (R101). -/
inductive Instr where
  | eInit
  | eAdv (u w : Word)
  | eBit (sym : Bool) (bound : Word)
  | eFlush
  | dInit (ilen : Word)
  | dAdv (u w : Word)
  | dBit (bound : Word)
  | recover (tlen plen : Word)
deriving DecidableEq, Repr

/-- The eight legal opcodes (R103), without operands. -/
inductive Opcode where
  | eInit
  | eAdv
  | eBit
  | eFlush
  | dInit
  | dAdv
  | dBit
  | recover
deriving DecidableEq, Repr

/-- The opcode of a command (R103). -/
def Instr.opcode : Instr → Opcode
  | .eInit => .eInit
  | .eAdv _ _ => .eAdv
  | .eBit _ _ => .eBit
  | .eFlush => .eFlush
  | .dInit _ => .dInit
  | .dAdv _ _ => .dAdv
  | .dBit _ => .dBit
  | .recover _ _ => .recover

/-- The three fields of a header word (R101): OPC [7:0], S [8], RSV [31:9]. -/
structure Header where
  opc : Byte
  sym : Bool
  rsv : BitVec 23
deriving DecidableEq, Repr

/-- A command packet as sent: the header's fields and the operand words (R100). -/
structure Packet where
  header   : Header
  operands : List Word
deriving DecidableEq, Repr

end Sys2Proof
end

