-- ==== Sys2Proof/WellFormed.lean ====
section
/-! DEFINITION. Which packets are well formed (30_encoding.md R100, R103, R104, R106). An `Instr` has
no ill-formed value, since an operand word can hold any 32-bit value (R105); what can be ill-formed is
the packet that carries it. The decoder does not call these checks: a law proves that it accepts
exactly the packets they accept. -/

namespace Sys2Proof

/-- R103's column N: the number of operand words of each of the eight opcode values. -/
def operandCounts : List (Byte × Nat) :=
  [(0x01, 0), (0x02, 2), (0x03, 1), (0x04, 0), (0x11, 1), (0x12, 2), (0x13, 1), (0x21, 2)]

/-- R104, first condition: OPC is one of the eight values of R103. -/
def Header.opcodeKnown (h : Header) : Bool := (operandCounts.lookup h.opc).isSome

/-- R104, second condition: RSV is 0. -/
def Header.reservedClear (h : Header) : Bool := h.rsv == 0

/-- R104, third condition: only E.BIT (OPC 0x03) may set S. -/
def Header.symbolAllowed (h : Header) : Bool := !h.sym || h.opc == 0x03

/-- A legal header: none of the three conditions of R104 holds. -/
def Header.legal (h : Header) : Bool := h.opcodeKnown && h.reservedClear && h.symbolAllowed

/-- R100, R106: a packet has exactly the N operand words its opcode fixes. -/
def Packet.operandsComplete (p : Packet) : Bool :=
  operandCounts.lookup p.header.opc == some p.operands.length

/-- A well-formed packet: a legal header and its N operand words. -/
def Packet.wellFormed (p : Packet) : Bool := p.header.legal && p.operandsComplete

end Sys2Proof
end

