-- ==== Sys2Proof/Decode.lean ====
section
/-! DEFINITION. The decoder of command words, total on any list of words and rejecting by name, and
after it the encoder (30_encoding.md R100 to R106). -/

namespace Sys2Proof

/-- The fields of a header word (R101). -/
def headerOf (h : Word) : Header :=
  { opc := h.extractLsb' 0 8
    sym := h.getLsbD 8
    rsv := h.extractLsb' 9 23 }

/-- The opcode map of R103, from OPC to mnemonic; `none` for the 248 illegal values (R104). -/
def opcodeOf (b : Byte) : Option Opcode :=
  if b = 0x01 then some .eInit
  else if b = 0x02 then some .eAdv
  else if b = 0x03 then some .eBit
  else if b = 0x04 then some .eFlush
  else if b = 0x11 then some .dInit
  else if b = 0x12 then some .dAdv
  else if b = 0x13 then some .dBit
  else if b = 0x21 then some .recover
  else none

/-- The opcode map of R103, from mnemonic to OPC. -/
def Opcode.byte : Opcode → Byte
  | .eInit => 0x01
  | .eAdv => 0x02
  | .eBit => 0x03
  | .eFlush => 0x04
  | .dInit => 0x11
  | .dAdv => 0x12
  | .dBit => 0x13
  | .recover => 0x21

/-- R103's N, the operand words that follow the header. -/
def Opcode.operandCount : Opcode → Nat
  | .eInit => 0
  | .eAdv => 2
  | .eBit => 1
  | .eFlush => 0
  | .dInit => 1
  | .dAdv => 2
  | .dBit => 1
  | .recover => 2

/-- Why a header is illegal (R104). -/
inductive Illegal where
  | unknownOpcode
  | reservedBits
  | symbolBit
deriving DecidableEq, Repr

/-- The opcode of a legal header, or the condition of R104 that makes it illegal. -/
def classify (h : Word) : Except Illegal Opcode :=
  match opcodeOf (headerOf h).opc with
  | none => .error .unknownOpcode
  | some op =>
    if (headerOf h).rsv ≠ 0 then .error .reservedBits
    else if (headerOf h).sym = true ∧ op ≠ .eBit then .error .symbolBit
    else .ok op

/-- What the words waiting on CMD begin with. -/
inductive Decoded where
  /-- no word at all -/
  | empty
  /-- a whole packet, and the words after it -/
  | packet (i : Instr) (rest : List Word)
  /-- a legal header whose operand words have not all arrived (R311) -/
  | incomplete
  /-- an illegal header, recognised the moment it arrives (R104) -/
  | illegal (why : Illegal)
deriving DecidableEq, Repr

/-- The packet of a legal header: N operand words in the order of R103. -/
def assemble (op : Opcode) (sym : Bool) (words : List Word) : Decoded :=
  match op, words with
  | .eInit, rest => .packet .eInit rest
  | .eAdv, u :: w :: rest => .packet (.eAdv u w) rest
  | .eBit, b :: rest => .packet (.eBit sym b) rest
  | .eFlush, rest => .packet .eFlush rest
  | .dInit, n :: rest => .packet (.dInit n) rest
  | .dAdv, u :: w :: rest => .packet (.dAdv u w) rest
  | .dBit, b :: rest => .packet (.dBit b) rest
  | .recover, t :: p :: rest => .packet (.recover t p) rest
  | .eAdv, [_] | .eAdv, [] | .eBit, [] | .dInit, [] | .dAdv, [_] | .dAdv, [] | .dBit, []
  | .recover, [_] | .recover, [] => .incomplete

/-- Decode the words waiting on CMD, in order (R100, R104). -/
def decode : List Word → Decoded
  | [] => .empty
  | h :: words =>
    match classify h with
    | .error why => .illegal why
    | .ok op => assemble op (headerOf h).sym words

/-- A header word from its fields OPC and S, RSV being 0 (R101). -/
def headerWord (op : Opcode) (sym : Bool) : Word :=
  op.byte.setWidth 32 ||| (if sym then 0x100 else 0)

/-- The words of a command, from R103's table: its header word, then its operand words (R107). -/
def encode : Instr → List Word
  | .eInit => [headerWord .eInit false]
  | .eAdv u w => [headerWord .eAdv false, u, w]
  | .eBit s b => [headerWord .eBit s, b]
  | .eFlush => [headerWord .eFlush false]
  | .dInit n => [headerWord .dInit false, n]
  | .dAdv u w => [headerWord .dAdv false, u, w]
  | .dBit b => [headerWord .dBit false, b]
  | .recover t p => [headerWord .recover false, t, p]

/-- The number of words of the packet that begins with header `h` (R106): 1 + N, and 1 for an illegal
header. -/
def packetLength (h : Word) : Nat :=
  match classify h with
  | .ok op => 1 + op.operandCount
  | .error _ => 1

/-- The packet whose bits are `w`, of which the lowest `nbits` are given and the rest are 0: word k
is bits 32k+31 to 32k. -/
def packetOfBits (nbits w : Nat) : List Word :=
  let v := w % 2 ^ nbits
  let h : Word := BitVec.ofNat 32 v
  [h, BitVec.ofNat 32 (v / 2 ^ 32), BitVec.ofNat 32 (v / 2 ^ 64)].take (packetLength h)

/-- The instruction the decoder reads from bits numbered as spec/opcode_table.json numbers them. -/
def decodeTableWord (nbits w : Nat) : Option Instr :=
  match decode (packetOfBits nbits w) with
  | .packet i _ => some i
  | .empty => none
  | .incomplete => none
  | .illegal _ => none

end Sys2Proof
end

