-- ==== Sys2Proof/Config.lean ====
section
/-! DEFINITION. The implementation parameters of 00_scope.md R6: those the spec fixes, as values; those
it leaves OPEN, as a record a machine carries (`Params`) and, for the machine of `State.reset`, as
opaque constants that no proof can evaluate; and the free values of the model. -/

namespace Sys2Proof

/-- The two host-filled byte buffers (R70): IN, the input stream, and PT, the plaintext. -/
inductive Buffer where
  | input
  | plaintext
deriving DecidableEq, Repr

/-- A probability model `(Σ, σ0, bound, step)` in the form of 43_recovery.md R241. `next` is R241's
`step`; its decision argument is `false` for 0 and `true` for 1. -/
structure Model (St : Type) where
  init  : St
  bound : St → Word → Word
  next  : St → Bool → St × Option Byte
deriving Inhabited

/-- Which MODEL a machine carries (R6: MODEL is OPEN). `injected` is the arbitrary model of
`Config.injectedModel`; `tm0` and `tm1` are the two test models of 95_test_vectors.md section 1, and
`tmEdge` is the model of its vector V-R8. -/
inductive ModelSel where
  | injected
  | tm0
  | tm1
  | tmEdge
deriving DecidableEq, Repr

/-- The OPEN parameters of R6. "A model takes each `OPEN` parameter as an argument": this record is
that argument. It stands in `State` as plain data and no step changes it, so a statement about every
state is a statement about every choice of the parameters. -/
structure Params where
  inSize : Nat
  ptSize : Nat
  maxDpb : Nat
  model  : ModelSel
deriving DecidableEq, Repr

namespace Config

/-- `TOP`, the renormalization threshold, 2^24 (R6, R142). -/
def top : Word := 0x01000000

/-- `RANGE_INIT`, RANGE after E.INIT and D.INIT (R6). -/
def rangeInit : Word := 0xFFFFFFFF

/-- `FILL`, the deferred fill value (R6, R147). -/
def fill : Byte := 0xFF

/-- `SENTINEL`, the "no more input" byte (R6, R73). -/
def sentinel : Byte := 0x00

/-- The largest value of a 32-bit register: RUN_LEN may not pass it (R147) and IPOS saturates at it
(R151). -/
def wordMax : Word := 0xFFFFFFFF

/-- The largest IN_SIZE and PT_SIZE that R6 allows, 2^31. -/
def maxBufferSize : Nat := 2147483648

/-- IN_SIZE of the machine of `State.reset`, less one (R6: OPEN, 1 to 2^31). -/
opaque inSizePred : Fin 2147483648

/-- PT_SIZE of the machine of `State.reset`, less one (R6: OPEN, 1 to 2^31). -/
opaque ptSizePred : Fin 2147483648

/-- MAX_DPB of the machine of `State.reset`, less one (R6: OPEN, at least 1). -/
opaque maxDpbPred : Nat

/-- The injected MODEL (R6, R241: OPEN). A model's reachable states are named by the decisions that
lead to them, so a state set as large as `List Bool` loses no model (log entry 4). -/
opaque injectedModel : Model (List Bool)

/-- Free value: the byte that address `a` of buffer `b` holds after the `n`-th reset, before the host
writes it (R71, R302, U3: "any value"). -/
opaque freeByte (n : Nat) (b : Buffer) (a : Nat) : Byte

/-- Free value: CARRY and LOW that E.FLUSH goes on with when the loop of FLUSH_VALUE returns no value,
which happens only for RANGE = 0, a state that no command sequence reaches (R186; log entry 8). The
arguments are LOWF and RANGE. -/
opaque freeFlush (lowf range : Nat) : Bool × Word

/-- Free value: CARRY after `CARRY <- V >> 32` when V does not fit 33 bits, which I4 of R45 rules out
in every reachable state (R185, R186; log entry 9). The arguments are LOWF and RANGE. -/
opaque freeFlushCarry (lowf range : Nat) : Bool

/-- The OPEN parameters of the machine of `State.reset`: uninterpreted, within R6's bounds. -/
def params : Params :=
  { inSize := inSizePred.val + 1
    ptSize := ptSizePred.val + 1
    maxDpb := maxDpbPred + 1
    model  := .injected }

end Config

/-- R6's bounds on the OPEN parameters. -/
abbrev Params.valid (p : Params) : Prop :=
  (1 ≤ p.inSize ∧ p.inSize ≤ Config.maxBufferSize) ∧
  (1 ≤ p.ptSize ∧ p.ptSize ≤ Config.maxBufferSize) ∧ 1 ≤ p.maxDpb

end Sys2Proof
end

