-- ==== Sys2Proof/Machine/Memory.lean ====
section
/-! DEFINITION. The written bytes of one host-filled buffer, as a canonical list of cells. An
unlisted address has no written byte (`none`): what CORE then reads there is the free byte of
Operands.lean (R71, R302; log entry 3). -/

namespace Sys2Proof.Machine

/-- The cells the host has written since reset, addresses strictly rising. -/
abbrev Memory := List Host.Cell

/-- The byte written at address `a`, `none` where nothing has been written. -/
def Memory.read : Memory → Nat → Option Byte
  | [], _ => none
  | (b, v) :: m, a => if a = b then some v else Memory.read m a

/-- Write one byte, keeping the addresses strictly rising. -/
def Memory.write : Memory → Nat → Byte → Memory
  | [], a, v => [(a, v)]
  | (b, w) :: m, a, v =>
    if a < b then (a, v) :: (b, w) :: m
    else if a = b then (a, v) :: m
    else (b, w) :: Memory.write m a v

/-- Every address is at least `lo` and below `size`, and they rise strictly. -/
def Memory.wfFrom (size : Nat) : Nat → Memory → Bool
  | _, [] => true
  | lo, (a, _) :: m => decide (lo ≤ a) && decide (a < size) && Memory.wfFrom size (a + 1) m

/-- The canonical form of a buffer of `size` bytes: addresses strictly rising, each inside the buffer
(R70). No entry can equal what an unlisted address holds, which is no byte. -/
def Memory.wf (size : Nat) (m : Memory) : Bool := Memory.wfFrom size 0 m

end Sys2Proof.Machine
end

