-- ==== Sys2Proof/Machine/State.lean ====
section
/-! DEFINITION. CORE's state (10_state.md R30), the words on its command port (20_memory.md R70), its
OPEN parameters (R6), and the value of it all after reset (R300 to R303). Plain data throughout. -/

namespace Sys2Proof.Machine

/-- MODE, the session state (R38). -/
inductive Mode where
  | idle
  | enc
  | dec
  | fin
deriving DecidableEq, Repr

/-- RUN_POL, the polarity of the pending run (R36). -/
inductive Polarity where
  | allOnes
  | allZeros
deriving DecidableEq, Repr

/-- RCV_STATE, the TailRecovery state (R40). -/
inductive RcvState where
  | searching
  | done
deriving DecidableEq, Repr

/-- The eight faults CORE can raise (R270). They are states of the hardware, not stops of the model:
raising one gives a next state (R271). -/
inductive FaultCode where
  | illegalCommand
  | sessionError
  | intervalError
  | carryOverflowBeyondStream
  | accumulatorOverflow
  | runLengthOverflow
  | bufferBounds
  | modelNonProgress
deriving DecidableEq, Repr

/-- The state of CORE. Every field but the last three is a row of R30; the docstring gives its rule. -/
structure State where
  /-- LOW, the low bound of the interval modulo 2^32 (R31) -/
  low : Word
  /-- CARRY, bit 32 of the accumulator (R32) -/
  carry : Bool
  /-- RANGE, the width of the interval (R33) -/
  range : Word
  /-- PCNT, the number of queued bits (R34) -/
  pcnt : BitVec 3
  /-- PBITS, the queued bits, of which only the low PCNT count (R34) -/
  pbits : Byte
  /-- HELD, the most recent definite byte (R35) -/
  held : Byte
  /-- HELD_V, whether HELD holds a byte (R35) -/
  heldV : Bool
  /-- RUN_LEN, the number of deferred bytes after HELD (R36) -/
  runLen : Word
  /-- RUN_POL, the polarity of the run (R36) -/
  runPol : Polarity
  /-- CODE, the decoder's code value less its low bound (R37) -/
  code : Word
  /-- IPOS, the index of the next input byte (R37) -/
  ipos : Word
  /-- ILEN, the valid input length of the decode session (R37) -/
  ilen : Word
  /-- MODE (R38) -/
  mode : Mode
  /-- DBIT, the symbol D.BIT decoded last (R39) -/
  dbit : Bool
  /-- RCV_BYTE (R40) -/
  rcvByte : Byte
  /-- RCV_FOUND (R40) -/
  rcvFound : Bool
  /-- RCV_STATE (R40) -/
  rcvState : RcvState
  /-- FAULTED, and with it the output `irq_fault` (R41, R276) -/
  faulted : Bool
  /-- FAULT_CODE, 0 when no fault has been taken (R41, R270) -/
  faultCode : Byte
  /-- FAULT_OP, the opcode of the command that faulted (R41) -/
  faultOp : Byte
  /-- FAULT_INFO (R41) -/
  faultInfo : Word
  /-- OUTCNT, bytes committed since reset, modulo 2^32 (R42) -/
  outcnt : Word
  /-- IN: the bytes the host has written there since reset (R70, R71) -/
  inMem : Memory
  /-- PT: the bytes the host has written there since reset (R70, R71) -/
  ptMem : Memory
  /-- OUT: every byte committed since reset, oldest first (R75) -/
  out : List Byte
  /-- CMD: the words the host has sent that CORE has not yet taken, oldest first (R70, R100) -/
  cmd : List Word
  /-- the OPEN parameters of R6; no step writes them -/
  params : Params
  /-- the model's own: how many times `rst` has been driven. It only numbers the free bytes that IN
  and PT hold after a reset (R302; log entry 3) -/
  resetCount : Nat
deriving DecidableEq, Repr

/-- Where a meaning stops because the spec gives an access no effect. -/
inductive Fault where
  /-- Raised by `memRead` for an address at or above the buffer's size, which names no byte (R70); R72
  says that no rule makes such a read. Only a state with ILEN > IN_SIZE, which no step reaches, makes
  D.ADV or D.BIT raise it. Safe: the model stops. -/
  | outsideBuffer (b : Buffer) (a : Nat)
deriving DecidableEq, Repr

/-- Why an instruction is refused. -/
inductive Refusal where
  /-- Raised by an arm of `exec` that has no meaning yet. No arm raises it now. Safe: nothing runs. -/
  | notModelled (mnemonic : String)
deriving DecidableEq, Repr

/-- The state after the `n`-th reset of a machine with OPEN parameters `p`: R30's column of reset
values (R300), OUT empty (R301), IN and PT with nothing the host has written (R302), no fault (R303),
no command word waiting (R303: a packet cut short by reset is dropped). -/
def State.resetWith (p : Params) (n : Nat) : State :=
  { low := 0
    carry := false
    range := 0xFFFFFFFF
    pcnt := 0
    pbits := 0
    held := 0
    heldV := false
    runLen := 0
    runPol := .allOnes
    code := 0
    ipos := 0
    ilen := 0
    mode := .idle
    dbit := false
    rcvByte := 0
    rcvFound := false
    rcvState := .done
    faulted := false
    faultCode := 0
    faultOp := 0
    faultInfo := 0
    outcnt := 0
    inMem := []
    ptMem := []
    out := []
    cmd := []
    params := p
    resetCount := n }

/-- The machine right after reset, its OPEN parameters uninterpreted (R6, R300). -/
def State.reset : State := State.resetWith Config.params 0

end Sys2Proof.Machine
end

