-- ==== Sys2Proof/Machine/Flags.lean ====
section
/-! DEFINITION. The bits a command computes: CARRY (10_state.md R32), the carry guard (R181), DBIT
(R39), and the counters and fill bytes that depend on them. -/

namespace Sys2Proof.Machine

/-- Bit 32 of the unmasked sum LOW + U (R32, R181). -/
def carryOut (low u : Word) : Bool := decide (2 ^ 32 ≤ low.toNat + u.toNat)

/-- A second carry would arise before the first is consumed (R181). -/
def accumulatorOverflow (s : State) (u : Word) : Bool := s.carry && carryOut s.low u

/-- The symbol a binary decision decodes: 0 when CODE is below the split point, else 1; the
comparison is unsigned (R212). -/
def decidedBit (code bound : Word) : Bool := decide (bound ≤ code)

/-- The full accumulator LOWF = CARRY * 2^32 + LOW (R32). -/
def State.lowf (s : State) : Nat := s.carry.toNat * 2 ^ 32 + s.low.toNat

/-- The queued bits PB = PBITS mod 2^PCNT (R34). -/
def State.pb (s : State) : Nat := s.pbits.toNat % 2 ^ s.pcnt.toNat

/-- `fill(p)`, the byte of a polarity (R36). -/
def Polarity.fillByte : Polarity → Byte
  | .allOnes => 0xFF
  | .allZeros => 0x00

/-- The value of MODE (R38). -/
def Mode.code : Mode → Word
  | .idle => 0
  | .enc => 1
  | .dec => 2
  | .fin => 3

/-- The value of RUN_POL (R36). -/
def Polarity.bit : Polarity → Bool
  | .allOnes => true
  | .allZeros => false

/-- The value of RCV_STATE (R40). -/
def RcvState.bit : RcvState → Bool
  | .searching => false
  | .done => true

/-- The code of a fault (R270). -/
def FaultCode.byte : FaultCode → Byte
  | .illegalCommand => 1
  | .sessionError => 2
  | .intervalError => 3
  | .carryOverflowBeyondStream => 4
  | .accumulatorOverflow => 5
  | .runLengthOverflow => 6
  | .bufferBounds => 7
  | .modelNonProgress => 8

/-- `min(i + 1, 2^32 - 1)`, the saturating step of IPOS (R151). -/
def nextIndex (i : Word) : Word := if i = Config.wordMax then i else i + 1

/-- The number of trailing zero bits of `v`, among its lowest `k` (R185's `ctz`). -/
def trailingZeros : Nat → Nat → Nat
  | 0, _ => 0
  | k + 1, v => if v % 2 = 1 then 0 else 1 + trailingZeros k (v / 2)

/-- k of E.FLUSH: the significant bits of LOW, 0 for LOW = 0 (R185). -/
def significantBits (low : Word) : Nat :=
  if low = 0 then 0 else 32 - trailingZeros 32 low.toNat

end Sys2Proof.Machine
end

