-- ==== Sys2Proof/Machine/Operands.lean ====
section
/-! DEFINITION. Everything a command reads besides the datapath registers: the bytes of IN and PT
(20_memory.md R72, R73; 43_recovery.md R242), and the checks on its operands (R181, R184, R210, R240). -/

namespace Sys2Proof.Machine

/-- The size of a buffer: IN_SIZE or PT_SIZE (R70). -/
def bufferSize (p : Params) : Buffer → Nat
  | .input => p.inSize
  | .plaintext => p.ptSize

/-- The written bytes of a buffer. -/
def State.mem (s : State) : Buffer → Memory
  | .input => s.inMem
  | .plaintext => s.ptMem

/-- The byte that address `a` of buffer `b` holds: the one the host wrote there, or, where it has
written none since reset, an arbitrary byte (R71, R302, U3). -/
def State.byteAt (s : State) (b : Buffer) (a : Nat) : Byte :=
  match Memory.read (s.mem b) a with
  | some v => v
  | none => Config.freeByte s.resetCount b a

/-- `MemRead(B, a, 1)` (R72). An address at or above the buffer's size names no byte. -/
def memRead (s : State) (b : Buffer) (a : Nat) : Except Fault Byte :=
  if a < bufferSize s.params b then .ok (s.byteAt b a) else .error (.outsideBuffer b a)

/-- `InByte(i)`, the decoder's sentinel-guarded read of the stream (R73). -/
def inByte (s : State) (i : Word) : Except Fault Byte :=
  if i < s.ilen then memRead s .input i.toNat else .ok Config.sentinel

/-- `InByteC(i)`, the read of candidate `b`'s stream `IN[0 .. TLEN-1] ++ [b]` (R242). -/
def inByteC (s : State) (tlen : Word) (b : Byte) (i : Word) : Except Fault Byte :=
  if i < tlen then memRead s .input i.toNat
  else if i = tlen then .ok b
  else .ok Config.sentinel

/-- The interval check of E.ADV and D.ADV: the sub-interval is empty or not inside the current one
(R181, R182, R211). The sum is exact. -/
def intervalBad (u w range : Word) : Bool :=
  w == 0 || decide (range.toNat < u.toNat + w.toNat)

/-- The check on a split point, of E.BIT, D.BIT and the model's bound (R184, R212, R243). -/
def splitBad (bound range : Word) : Bool := bound == 0 || decide (range ≤ bound)

/-- The low update U that a binary decision stands for: 0 for the lower part, BOUND for the upper
(R184, R212). -/
def splitOffset (sym : Bool) (bound : Word) : Word := if sym then bound else 0

/-- The interval width W that a binary decision stands for (R184, R212). -/
def splitWidth (sym : Bool) (bound range : Word) : Word := if sym then range - bound else bound

/-- A length operand is above the size of its buffer (R210, R240). -/
def lengthBad (s : State) (b : Buffer) (n : Word) : Bool :=
  decide (bufferSize s.params b < n.toNat)

end Sys2Proof.Machine
end

