-- ==== Sys2Proof/Machine/Ops.lean ====
section
/-! DEFINITION. The operations the commands share: fault entry (60_exceptions.md R271), the
micro-operations of 40_datapath.md, FLUSH_VALUE (41_encode.md R186), and the decoder registers that
D.ADV, D.BIT and RECOVER's private decoder step in the same way (R151, R211, R243). -/

namespace Sys2Proof.Machine

/-! ## Taking a fault -/

/-- The writes of `raise Fault(code, info)` in a command whose header has opcode byte `op` (R271).
Nothing else is saved, and there is no vector: the machine goes on from this state. -/
def State.enterFault (s : State) (op : Byte) (c : FaultCode) (info : Word) : State :=
  { s with faulted := true, faultCode := c.byte, faultOp := op, faultInfo := info }

/-- How a piece of a command's pseudocode ends. -/
inductive Micro where
  /-- it runs to its end -/
  | ok (s : State)
  /-- it raises a fault: `s` holds the writes made before the raise (R141, R273) -/
  | raise (c : FaultCode) (info : Word) (s : State)
  /-- it reads a byte that does not exist -/
  | stop (f : Fault)
deriving DecidableEq, Repr

/-- Sequence: nothing after a raise happens (R10, R141). -/
def Micro.andThen : Micro → (State → Micro) → Micro
  | .ok s, k => k s
  | .raise c info s, _ => .raise c info s
  | .stop f, _ => .stop f

/-- The end of a command: a raise enters the fault with the command's own opcode (R271). -/
def Micro.finish (op : Opcode) : Micro → Host.Outcome State Fault Refusal
  | .ok s => .next s
  | .raise c info s => .next (s.enterFault op.byte c info)
  | .stop f => .fault f

/-- There is no return from a fault but reset (R275): the input `rst` puts every register to its reset
value, empties OUT and CMD and leaves IN and PT arbitrary (R300 to R303). -/
def State.rst (s : State) : State := State.resetWith s.params (s.resetCount + 1)

/-! ## The output stream -/

/-- `Commit(b)`, `n` times over: append to OUT and count (R75). -/
def State.commitRun (s : State) (n : Nat) (b : Byte) : State :=
  { s with out := s.out ++ List.replicate n b, outcnt := s.outcnt + BitVec.ofNat 32 n }

/-- `Commit(b)` (R75). -/
def State.commit (s : State) (b : Byte) : State := s.commitRun 1 b

/-- Commit the held byte, if there is one (R147, R148). -/
def State.commitHeld (s : State) : State := if s.heldV then s.commit s.held else s

/-! ## The byte emitter and the pending run -/

/-- EMIT_CARRY (R146). -/
def emitCarry (s : State) : Micro :=
  if s.heldV = false ∨ s.held = 0xFF then
    .raise .carryOverflowBeyondStream s.runLen s
  else
    let s := { s.commit (s.held + 1) with runPol := .allZeros }
    let s := s.commitRun s.runLen.toNat s.runPol.fillByte
    .ok { s with runLen := 0, held := 0, heldV := false }

/-- DEFER (R147). -/
def defer (b : Byte) (s : State) : Micro :=
  if b = Config.fill then
    if s.runLen = Config.wordMax then .raise .runLengthOverflow 0 s
    else
      .ok { s with
        runPol := if s.runLen = 0 then .allOnes else s.runPol
        runLen := s.runLen + 1 }
  else
    let s := s.commitHeld
    let s := s.commitRun s.runLen.toNat s.runPol.fillByte
    .ok { s with runLen := 0, held := b, heldV := true }

/-- FINALIZE (R148). -/
def finalize (s : State) : State :=
  let s := s.commitHeld
  let s := s.commitRun s.runLen.toNat s.runPol.fillByte
  { s with runLen := 0, held := 0, heldV := false }

/-- EMIT: resolve the carry, then decide the byte's fate (R149). -/
def emit (b : Byte) (c : Bool) (s : State) : Micro :=
  (if c then emitCarry s else .ok s).andThen (defer b)

/-! ## The pending-bit queue -/

/-- The first half of QPUSH: the pending carry lands on the last queued bit, is absorbed there or
passes out of the queue. Answers the queued bits and whether a carry goes on to the emitter (R143). -/
def queueCarry (s : State) : Nat × Bool :=
  if s.carry = true ∧ 0 < s.pcnt.toNat then
    if s.pb + 1 < 2 ^ s.pcnt.toNat then (s.pb + 1, false) else (0, true)
  else (s.pb, s.carry)

/-- The second half of QPUSH: the top `n` bits of LOW move behind the queued bits `pb`, and a whole
byte goes on to DEFER (R143). -/
def queueShift (n pb : Nat) (s : State) : Micro :=
  let t := pb * 2 ^ n + s.low.toNat / 2 ^ (32 - n)
  let q := s.pcnt.toNat + n
  if 8 ≤ q then
    defer (BitVec.ofNat 8 (t / 2 ^ (q - 8)))
      { s with
        low := s.low <<< n
        pbits := BitVec.ofNat 8 (t % 2 ^ (q - 8))
        pcnt := BitVec.ofNat 3 (q - 8) }
  else
    .ok { s with
      low := s.low <<< n
      pbits := BitVec.ofNat 8 t
      pcnt := BitVec.ofNat 3 q }

/-- QPUSH(n), for 1 ≤ n ≤ 8 (R143). -/
def qpush (n : Nat) (s : State) : Micro :=
  let (pb, c) := queueCarry s
  let s := { s with carry := false }
  (if c then emitCarry s else .ok s).andThen (queueShift n pb)

/-- QPUSH(8), `k` times over (R185). -/
def qpushBytes : Nat → State → Micro
  | 0, s => .ok s
  | k + 1, s => (qpush 8 s).andThen (qpushBytes k)

/-! ## Renormalization -/

/-- At most `k` steps of the loop of RENORM_E (R150). -/
def renormESteps : Nat → State → Micro
  | 0, s => .ok s
  | k + 1, s =>
    if s.range < Config.top then
      (qpush 8 s).andThen fun s => renormESteps k { s with range := s.range <<< 8 }
    else .ok s

/-- RENORM_E (R150). It runs at most 3 steps, since every command that runs it has written a RANGE
of at least 1. -/
def renormE (s : State) : Micro := renormESteps 3 s

/-- E.ADV-body: rule R181 from `s <- LOW + U` on. -/
def advanceE (u w : Word) (s : State) : Micro :=
  if accumulatorOverflow s u then .raise .accumulatorOverflow s.low s
  else
    renormE { s with
      carry := s.carry || carryOut s.low u
      low := s.low + u
      range := w }

/-! ## FLUSH_VALUE -/

/-- The least multiple of `g` that is not below `x` (R186). -/
def ceilTo (g x : Nat) : Nat := (x + (g - 1)) / g * g

/-- The loop of FLUSH_VALUE from `nb` on, with `k` rounds left (R186). -/
def flushSearch (lowf range : Nat) : Nat → Nat → Option Nat
  | 0, _ => none
  | k + 1, nb =>
    let v := ceilTo (2 ^ (32 - 8 * nb)) lowf
    if v < lowf + range then some v else flushSearch lowf range k (nb + 1)

/-- FLUSH_VALUE (R186). `none` only for RANGE = 0. -/
def flushValue (lowf range : Nat) : Option Nat := flushSearch lowf range 5 0

/-- CARRY and LOW from what FLUSH_VALUE answers (R185). Where the spec gives no V, or a V too wide for
CARRY, the value is free; neither happens in a reachable state (R45, R186). -/
def flushRegs (lowf range : Nat) : Option Nat → Bool × Word
  | some v =>
    (if v < 2 ^ 33 then decide (2 ^ 32 ≤ v) else Config.freeFlushCarry lowf range, BitVec.ofNat 32 v)
  | none => Config.freeFlush lowf range

/-- CARRY and LOW that E.FLUSH goes on with (R185). -/
def flushPoint (lowf range : Nat) : Bool × Word := flushRegs lowf range (flushValue lowf range)

/-! ## The decoder registers -/

/-- RANGE, CODE and IPOS, of the session's decoder or of RECOVER's private one (R37, R243). -/
structure Dec where
  range : Word
  code  : Word
  ipos  : Word
deriving DecidableEq, Repr

/-- The decoder registers of the open session. -/
def State.decoder (s : State) : Dec := { range := s.range, code := s.code, ipos := s.ipos }

/-- Write the decoder registers of the open session. -/
def State.setDecoder (s : State) (d : Dec) : State :=
  { s with range := d.range, code := d.code, ipos := d.ipos }

/-- `trunc_32(CODE << 8) + b` (R151, R210). -/
def pushCode (code : Word) (b : Byte) : Word := (code <<< 8) + b.setWidth 32

/-- One step of RENORM_D, given the byte read (R151). -/
def Dec.refill (d : Dec) (b : Byte) : Dec :=
  { range := d.range <<< 8, code := pushCode d.code b, ipos := nextIndex d.ipos }

/-- At most `k` steps of the loop of RENORM_D, reading through `rd` (R151). -/
def Dec.renormSteps (rd : Word → Except Fault Byte) : Nat → Dec → Except Fault Dec
  | 0, d => .ok d
  | k + 1, d =>
    if d.range < Config.top then
      match rd d.ipos with
      | .ok b => Dec.renormSteps rd k (d.refill b)
      | .error f => .error f
    else .ok d

/-- RENORM_D (R151). At most 3 steps, as RENORM_E. -/
def Dec.renorm (rd : Word → Except Fault Byte) (d : Dec) : Except Fault Dec :=
  Dec.renormSteps rd 3 d

/-- D.ADV-body: rule R211 from `CODE <- trunc_32(CODE - U)` on. -/
def Dec.advance (rd : Word → Except Fault Byte) (u w : Word) (d : Dec) : Except Fault Dec :=
  Dec.renorm rd { d with code := d.code - u, range := w }

/-- Read `k` bytes into CODE, the first highest (R210, R243). -/
def Dec.primeSteps (rd : Word → Except Fault Byte) : Nat → Dec → Except Fault Dec
  | 0, d => .ok d
  | k + 1, d =>
    match rd d.ipos with
    | .ok b => Dec.primeSteps rd k { d with code := pushCode d.code b, ipos := d.ipos + 1 }
    | .error f => .error f

/-- The decoder registers at the start of a decode: RANGE_INIT, and CODE from four bytes (R210, R243). -/
def Dec.prime (rd : Word → Except Fault Byte) : Except Fault Dec :=
  Dec.primeSteps rd 4 { range := Config.rangeInit, code := 0, ipos := 0 }

/-- Write the decoder registers, or stop where a byte does not exist. -/
def State.withDecoder (s : State) : Except Fault Dec → Micro
  | .ok d => .ok (s.setDecoder d)
  | .error f => .stop f

end Sys2Proof.Machine
end

