-- ==== Sys2Proof/Machine/DecodeCommands.lean ====
section
/-! DEFINITION. The decode commands D.INIT, D.ADV and D.BIT (42_decode.md). The checks stand in the order
of 60_exceptions.md R272. -/

namespace Sys2Proof.Machine

/-- D.INIT ILEN (R210): open a decode session over the first ILEN bytes of IN. Legal in every MODE. -/
def execDInit (n : Word) (s : State) : Host.Outcome State Fault Refusal :=
  Micro.finish .dInit <|
    if lengthBad s .input n then .raise .bufferBounds n s
    else
      let s := { s with ilen := n }
      (s.withDecoder (Dec.prime (inByte s))).andThen fun s => .ok { s with mode := .dec }

/-- D.ADV U, W (R211). It does not check that CODE lies in the sub-interval. -/
def execDAdv (u w : Word) (s : State) : Host.Outcome State Fault Refusal :=
  Micro.finish .dAdv <|
    if s.mode ≠ .dec then .raise .sessionError s.mode.code s
    else if intervalBad u w s.range then .raise .intervalError s.range s
    else s.withDecoder (Dec.advance (inByte s) u w s.decoder)

/-- D.BIT BOUND (R212): decode one binary decision into DBIT. -/
def execDBit (bound : Word) (s : State) : Host.Outcome State Fault Refusal :=
  Micro.finish .dBit <|
    if s.mode ≠ .dec then .raise .sessionError s.mode.code s
    else if splitBad bound s.range then .raise .intervalError s.range s
    else
      let bit := decidedBit s.code bound
      State.withDecoder { s with dbit := bit }
        (Dec.advance (inByte s) (splitOffset bit bound) (splitWidth bit bound s.range) s.decoder)

end Sys2Proof.Machine
end

