-- ==== Sys2Proof/Machine/Encode.lean ====
section
/-! DEFINITION. The encode commands E.INIT, E.ADV, E.BIT and E.FLUSH (41_encode.md). The checks stand in
the order of 60_exceptions.md R272. -/

namespace Sys2Proof.Machine

/-- E.INIT (R180): open an encode session. Legal in every MODE; an open session is abandoned (R306). -/
def execEInit (s : State) : Host.Outcome State Fault Refusal :=
  .next { s with
    low := 0
    carry := false
    range := Config.rangeInit
    pcnt := 0
    pbits := 0
    held := 0
    heldV := false
    runLen := 0
    runPol := .allOnes
    mode := .enc }

/-- E.ADV U, W (R181). -/
def execEAdv (u w : Word) (s : State) : Host.Outcome State Fault Refusal :=
  Micro.finish .eAdv <|
    if s.mode ≠ .enc then .raise .sessionError s.mode.code s
    else if intervalBad u w s.range then .raise .intervalError s.range s
    else advanceE u w s

/-- E.BIT s, BOUND (R184). -/
def execEBit (sym : Bool) (bound : Word) (s : State) : Host.Outcome State Fault Refusal :=
  Micro.finish .eBit <|
    if s.mode ≠ .enc then .raise .sessionError s.mode.code s
    else if splitBad bound s.range then .raise .intervalError s.range s
    else advanceE (splitOffset sym bound) (splitWidth sym bound s.range) s

/-- The bits of the flush value move through the queue, and a carry with no bit behind it is resolved
(R185, R187 step 1). `k` is the number of significant bits of LOW. -/
def flushBits (k : Nat) (s : State) : Micro :=
  (qpushBytes (k / 8) s).andThen fun s =>
    if 0 < k % 8 then qpush (k % 8) s
    else if s.carry then emitCarry { s with carry := false }
    else .ok s

/-- The final partial byte, zero-padded, is deferred (R185, R187 step 2). -/
def flushPad (s : State) : Micro :=
  if 0 < s.pcnt.toNat then
    defer (BitVec.ofNat 8 (s.pb * 2 ^ (8 - s.pcnt.toNat))) { s with pcnt := 0, pbits := 0 }
  else .ok s

/-- E.FLUSH in an open encode session, once CARRY and LOW hold the flush value (R185). -/
def flushFrom (carry : Bool) (low : Word) (s : State) : Micro :=
  (flushBits (significantBits low) { s with carry := carry, low := low }).andThen fun s =>
    (flushPad s).andThen fun s =>
      .ok { finalize s with low := 0, mode := .fin }

/-- E.FLUSH in an open encode session, from `V <- FLUSH_VALUE()` on (R185). -/
def flushOpen (s : State) : Micro :=
  flushFrom (flushPoint s.lowf s.range.toNat).1 (flushPoint s.lowf s.range.toNat).2 s

/-- E.FLUSH (R185); in FIN mode it does nothing (R188). -/
def execEFlush (s : State) : Host.Outcome State Fault Refusal :=
  Micro.finish .eFlush <|
    if s.mode = .fin then .ok s
    else if s.mode ≠ .enc then .raise .sessionError s.mode.code s
    else flushOpen s

end Sys2Proof.Machine
end

