-- ==== Sys2Proof/Machine/Models.lean ====
section
/-! DEFINITION. The test models of 95_test_vectors.md (TM0, TM1 and that of V-R8), in the form of R241,
and the history form of any model. -/

namespace Sys2Proof.Machine

/-- State of TM0 and TM1: the probabilities p[i] that have left 2048, and ctx. -/
structure BitwiseState where
  probs : List (Nat × Nat)
  ctx   : Nat
deriving DecidableEq, Repr

/-- p[i]: a 12-bit probability of a 0 bit, 2048 at first. -/
def BitwiseState.prob (m : BitwiseState) (i : Nat) : Nat := (m.probs.lookup i).getD 2048

/-- `p[i] <- v`. -/
def BitwiseState.setProb (m : BitwiseState) (i v : Nat) : BitwiseState :=
  { m with probs := (i, v) :: m.probs.filter (fun e => e.1 != i) }

/-- `bound(σ, R) = (R >> 12) * p[ctx]`. -/
def bitwiseBound (m : BitwiseState) (r : Word) : Word :=
  BitVec.ofNat 32 (r.toNat / 2 ^ 12 * m.prob m.ctx)

/-- TM1's update of p[ctx] after a decision. -/
def adaptProb (p : Nat) (bit : Bool) : Nat := if bit then p - p / 2 ^ 4 else p + (4096 - p) / 2 ^ 4

/-- The context after a decision, and the byte that the eighth decision completes. -/
def bitwiseShift (m : BitwiseState) (bit : Bool) : BitwiseState × Option Byte :=
  let ctx := 2 * m.ctx + bit.toNat
  if 256 ≤ ctx then ({ m with ctx := 1 }, some (BitVec.ofNat 8 (ctx - 256)))
  else ({ m with ctx := ctx }, none)

/-- TM1, the adaptive bitwise order-0 model. -/
def tm1 : Model BitwiseState :=
  { init := { probs := [], ctx := 1 }
    bound := bitwiseBound
    next := fun m bit => bitwiseShift (m.setProb m.ctx (adaptProb (m.prob m.ctx) bit)) bit }

/-- TM0: as TM1, but p never changes. -/
def tm0 : Model BitwiseState :=
  { init := { probs := [], ctx := 1 }, bound := bitwiseBound, next := bitwiseShift }

/-- The model of vector V-R8, `bound(σ, R) = R`: every bound it gives is a bad one (R243), so that no
decision is ever made under it and `next` is never asked. -/
def tmEdge : Model BitwiseState :=
  { init := { probs := [], ctx := 1 }, bound := fun _ r => r, next := bitwiseShift }

/-- Any model with its state replaced by the decisions made so far, oldest first: R241's models are
deterministic, so the decisions determine the state. -/
def historyState {St : Type} (m : Model St) (h : List Bool) : St :=
  h.foldl (fun σ bit => (m.next σ bit).1) m.init

/-- The model over decision histories that behaves as `m` does (log entry 4). -/
def historyModel {St : Type} (m : Model St) : Model (List Bool) :=
  { init := []
    bound := fun h r => m.bound (historyState m h) r
    next := fun h bit => (h ++ [bit], (m.next (historyState m h) bit).2) }

end Sys2Proof.Machine
end

