-- ==== Sys2Proof/Machine/Recover.lean ====
section
/-! DEFINITION. RECOVER, the truncated-tail oracle search (43_recovery.md). -/

namespace Sys2Proof.Machine

/-- How the decode of one candidate ends (R243). -/
inductive Verdict where
  /-- the first PLEN decoded bytes equal the plaintext -/
  | hit
  /-- a decoded byte differs -/
  | miss
  /-- the model's bound is outside `[1, pRANGE - 1]` -/
  | badBound
  /-- MAX_DPB decisions in a row made no byte -/
  | nonProgress
  /-- a byte that does not exist was read; the length checks of RECOVER rule it out -/
  | stop (f : Fault)
deriving DecidableEq, Repr

/-- How the decoding of one plaintext byte ends (R243). -/
inductive ByteResult (St : Type) where
  | byte (y : Byte) (σ : St) (d : Dec)
  | badBound
  | nonProgress
  | stop (f : Fault)

/-- One binary decision of the private decoder, as D.BIT (R212, R243). -/
def Dec.decideAt (rd : Word → Except Fault Byte) (x : Word) (d : Dec) : Bool × Except Fault Dec :=
  let bit := decidedBit d.code x
  (bit, Dec.advance rd (splitOffset bit x) (splitWidth bit x d.range) d)

/-- Decode decisions until one completes a byte, with `k` of the MAX_DPB decisions left (R243). -/
def decodeByte {St : Type} (m : Model St) (rd : Word → Except Fault Byte) :
    Nat → St → Dec → ByteResult St
  | 0, _, _ => .nonProgress
  | k + 1, σ, d =>
    let x := m.bound σ d.range
    if splitBad x d.range then .badBound
    else
      match Dec.decideAt rd x d with
      | (_, .error f) => .stop f
      | (bit, .ok d) =>
        match m.next σ bit with
        | (σ, some y) => .byte y σ d
        | (σ, none) => decodeByte m rd k σ d

/-- Decode and compare `k` more plaintext bytes, from byte `n` on; `pt` reads PT (R243). -/
def matchBytes {St : Type} (m : Model St) (rd : Word → Except Fault Byte)
    (pt : Nat → Except Fault Byte) (maxDpb : Nat) : Nat → Nat → St → Dec → Verdict
  | 0, _, _, _ => .hit
  | k + 1, n, σ, d =>
    match decodeByte m rd maxDpb σ d with
    | .badBound => .badBound
    | .nonProgress => .nonProgress
    | .stop f => .stop f
    | .byte y σ d =>
      match pt n with
      | .error f => .stop f
      | .ok v => if y ≠ v then .miss else matchBytes m rd pt maxDpb k (n + 1) σ d

/-- MATCH(b, TLEN, PLEN) under model `m` (R243). -/
def matchWith {St : Type} (m : Model St) (s : State) (tlen plen : Word) (b : Byte) : Verdict :=
  match Dec.prime (inByteC s tlen b) with
  | .error f => .stop f
  | .ok d =>
    matchBytes m (inByteC s tlen b) (memRead s .plaintext) s.params.maxDpb plen.toNat 0 m.init d

/-- MATCH(b, TLEN, PLEN) under the MODEL that the machine carries (R6, R243). -/
def matchCandidate (s : State) (tlen plen : Word) (b : Byte) : Verdict :=
  match s.params.model with
  | .injected => matchWith Config.injectedModel s tlen plen b
  | .tm0 => matchWith tm0 s tlen plen b
  | .tm1 => matchWith tm1 s tlen plen b
  | .tmEdge => matchWith tmEdge s tlen plen b

/-- How the search ends (R240, R246). -/
inductive Found where
  | byte (b : Byte)
  | none
  | raise (c : FaultCode) (b : Byte)
  | stop (f : Fault)
deriving DecidableEq, Repr

/-- Try the candidates in the order given; the first that does not simply miss ends the search
(R240, R244, R246). -/
def searchIn (verdict : Byte → Verdict) : List Byte → Found
  | [] => .none
  | b :: bs =>
    match verdict b with
    | .hit => .byte b
    | .miss => searchIn verdict bs
    | .badBound => .raise .intervalError b
    | .nonProgress => .raise .modelNonProgress b
    | .stop f => .stop f

/-- The candidates 0, 1, ..., 255, ascending (R244). -/
def candidates : List Byte := (List.range 256).map (BitVec.ofNat 8)

/-- The result registers after the search, or the fault of a candidate with FAULT_INFO its value; a
fault leaves RCV_STATE at SEARCHING (R240, R245, R246). -/
def recoverResult (s : State) : Found → Micro
  | .byte b => .ok { s with rcvFound := true, rcvByte := b, rcvState := .done }
  | .none => .ok { s with rcvFound := false, rcvByte := 0, rcvState := .done }
  | .raise c b => .raise c (b.setWidth 32) s
  | .stop f => .stop f

/-- RECOVER TLEN, PLEN (R240). Legal in every MODE; TLEN is checked before PLEN. -/
def execRecover (tlen plen : Word) (s : State) : Host.Outcome State Fault Refusal :=
  Micro.finish .recover <|
    if lengthBad s .input tlen then .raise .bufferBounds tlen s
    else if lengthBad s .plaintext plen then .raise .bufferBounds plen s
    else
      recoverResult { s with rcvState := .searching }
        (searchIn (matchCandidate s tlen plen) candidates)

end Sys2Proof.Machine
end

