-- ==== Sys2Proof/Machine/Dispatch.lean ====
section
/-! DEFINITION. One arm per command: what running it does (30_encoding.md R103). -/

namespace Sys2Proof.Machine

def exec (i : Instr) (s : State) : Host.Outcome State Fault Refusal :=
  match i with
  -- encode commands, 41_encode.md
  | .eInit => Sys2Proof.Machine.execEInit s
  | .eAdv u w => Sys2Proof.Machine.execEAdv u w s
  | .eBit sym bound => Sys2Proof.Machine.execEBit sym bound s
  | .eFlush => Sys2Proof.Machine.execEFlush s
  -- decode commands, 42_decode.md
  | .dInit ilen => Sys2Proof.Machine.execDInit ilen s
  | .dAdv u w => Sys2Proof.Machine.execDAdv u w s
  | .dBit bound => Sys2Proof.Machine.execDBit bound s
  -- the truncated-tail oracle search, 43_recovery.md
  | .recover tlen plen => Sys2Proof.Machine.execRecover tlen plen s

end Sys2Proof.Machine
end

