-- ==== Sys2Proof/Machine/Fetch.lean ====
section
/-! DEFINITION. Taking a command from CMD (30_encoding.md R100, R104; 60_exceptions.md R272, R274;
70_reset_and_hazards.md R311): what CORE does with the words waiting there, before any command runs. -/

namespace Sys2Proof.Machine

/-- What CORE does next with the words waiting on CMD. -/
inductive Fetched where
  /-- no command runs, and `s` is the next state -/
  | rest (s : State)
  /-- command `i` runs in `s`, its packet taken from CMD -/
  | run (i : Instr) (s : State)
deriving DecidableEq, Repr

/-- OPC of a header word, which FAULT_OP takes (R271). -/
def headerOpcode (h : Word) : Byte := (headerOf h).opc

/-- CMD without its first word. -/
def State.dropWord (s : State) : State := { s with cmd := s.cmd.tail }

/-- The first two checks of R272 and the packet rule of R100.
A faulted CORE takes a word and ignores it (R274).
With no word, or with a packet whose operand words have not arrived, CORE waits and nothing changes
(R283, R311).
An illegal header faults the moment it arrives, FAULT_INFO being the header, and no operand word is
taken for it (R104). -/
def fetch (s : State) : Fetched :=
  if s.faulted then .rest s.dropWord
  else
    match decode s.cmd with
    | .empty => .rest s
    | .incomplete => .rest s
    | .illegal _ =>
      let h := s.cmd.headD 0
      .rest (s.dropWord.enterFault (headerOpcode h) .illegalCommand h)
    | .packet i rest => .run i { s with cmd := rest }

/-- `s` with the packet of the given bits at the front of CMD. -/
def State.withPacket (s : State) (nbits w : Nat) : State :=
  { s with cmd := packetOfBits nbits w ++ s.cmd }

end Sys2Proof.Machine
end

