-- ==== Sys2Proof/Machine/Step.lean ====
section
/-! DEFINITION. One step of CORE: take a command from CMD, if a whole one is there, and run it to its
end (20_memory.md R79, R81; 30_encoding.md R100). -/

namespace Sys2Proof.Machine

/-- One step. Where no command can run the step is a state of its own: CORE waits, drops an ignored
word, or enters the fault of an illegal header (`fetch`). -/
def step (s : State) : Host.Outcome State Fault Refusal :=
  match fetch s with
  | .rest s' => .next s'
  | .run i s' => exec i s'

/-- `s` with the instruction of those bits where `step` takes its next command from: the front of CMD
(R100). Nothing else is changed, so a faulted CORE ignores it (R274). -/
def State.withFetchWord (s : State) (nbits w : Nat) : State := s.withPacket nbits w

end Sys2Proof.Machine
end

