-- ==== Sys2Proof/Machine/Port.lean ====
section
/-! DEFINITION. The host's side of CORE: the read-only register port (10_state.md R46 to R58), the
output `irq_fault` (60_exceptions.md R276), and the four ways the host acts between commands
(20_memory.md R79), with the input `rst` (70_reset_and_hazards.md R300). -/

namespace Sys2Proof.Machine

/-! ## The register port -/

/-- A one-bit field at position `i`. -/
def flagAt (b : Bool) (i : Nat) : Word := if b then 1#32 <<< i else 0

/-- STATUS, 0x00 (R47). -/
def State.regStatus (s : State) : Word :=
  s.mode.code ||| flagAt s.faulted 2 ||| flagAt s.carry 3 ||| flagAt s.dbit 4

/-- FAULT, 0x04 (R48). -/
def State.regFault (s : State) : Word :=
  s.faultCode.setWidth 32 ||| (s.faultOp.setWidth 32 <<< 8)

/-- QUEUE, 0x18 (R53). -/
def State.regQueue (s : State) : Word :=
  s.pbits.setWidth 32 ||| (s.pcnt.setWidth 32 <<< 8)

/-- EMIT, 0x1C (R54). -/
def State.regEmit (s : State) : Word :=
  s.held.setWidth 32 ||| flagAt s.heldV 8 ||| flagAt s.runPol.bit 9

/-- RCV, 0x30 (R58). -/
def State.regRcv (s : State) : Word :=
  s.rcvByte.setWidth 32 ||| flagAt s.rcvFound 8 ||| flagAt s.rcvState.bit 9

/-- A read of the register port at a byte address 0x00 to 0xFF: bits [1:0] are ignored, an address not
listed reads as 0, and a read has no side effect (R46, R70, R80). -/
def readReg (s : State) (a : Byte) : Word :=
  match a.toNat / 4 with
  | 0 => s.regStatus
  | 1 => s.regFault
  | 2 => s.faultInfo
  | 3 => s.low
  | 4 => s.range
  | 5 => s.code
  | 6 => s.regQueue
  | 7 => s.regEmit
  | 8 => s.runLen
  | 9 => s.ipos
  | 10 => s.ilen
  | 11 => s.outcnt
  | 12 => s.regRcv
  | _ => 0

/-- The interrupt output, a level equal to FAULTED (R276). -/
def irqFault (s : State) : Bool := s.faulted

/-! ## What the host does to CORE -/

/-- The host's acts that change CORE's state. Reading a register and taking bytes from OUT are reads of
the state (R46, R76) and change nothing. -/
inductive HostAction where
  /-- send one word on CMD (R70, R100) -/
  | send (w : Word)
  /-- write one byte of IN or PT (R70, R79) -/
  | write (b : Buffer) (a : Nat) (v : Byte)
  /-- drive `rst` (R300) -/
  | rst
deriving DecidableEq, Repr

/-- Write one byte of a buffer. -/
def State.setByte (s : State) (b : Buffer) (a : Nat) (v : Byte) : State :=
  match b with
  | .input => { s with inMem := Memory.write s.inMem a v }
  | .plaintext => { s with ptMem := Memory.write s.ptMem a v }

/-- The host writes IN and PT only between commands (R79), so that a write made after a command's
header word is seen by no earlier command (R83): here, only while no word waits on CMD. -/
def State.betweenCommands (s : State) : Bool := s.cmd.isEmpty

/-- The state after an act of the host, `none` where the host cannot so act: a write of IN or PT while a
word waits on CMD (R79), or at an address that names no byte (R70). -/
def hostAct (x : HostAction) (s : State) : Option State :=
  match x with
  | .send w => some { s with cmd := s.cmd ++ [w] }
  | .write b a v =>
    if s.betweenCommands ∧ a < bufferSize s.params b then some (s.setByte b a v) else none
  | .rst => some s.rst

end Sys2Proof.Machine
end

