-- ==== Sys2Proof/Safety.lean ====
section
/-! DEFINITION. What counts as a good state and a safe run: the invariants of 10_state.md R45 and of the
registers' meanings, the number an encoder stands for (R44), reachability, and runs of commands. -/

namespace Sys2Proof.Machine

/-! ## The value an encoder stands for -/

/-- A byte string as a number, most significant byte first (R77). -/
def bytesValue (bs : List Byte) : Nat := bs.foldl (fun n b => n * 256 + b.toNat) 0

/-- The whole bytes of the uncommitted tail: HELD, then the run (R44). -/
def State.tailBytes (s : State) : List Byte :=
  (if s.heldV then [s.held] else []) ++ List.replicate s.runLen.toNat s.runPol.fillByte

/-- `OUT ‖ T` as a number (R44). -/
def State.streamBits (s : State) : Nat :=
  bytesValue (s.out ++ s.tailBytes) * 2 ^ s.pcnt.toNat + s.pb

/-- `(OUT ‖ T) * 2^32 + LOWF`, which every micro-operation keeps (R44, R154). -/
def State.streamValue (s : State) : Nat := s.streamBits * 2 ^ 32 + s.lowf

/-! ## Invariants -/

/-- I1 of R45, which holds in every mode: a held byte is not 0xFF. -/
abbrev State.heldDefinite (s : State) : Prop := s.heldV = true → s.held ≠ 0xFF

/-- I2 of R45, which holds in every mode: a run is ALL_ONES. -/
abbrev State.runIsOnes (s : State) : Prop := 0 < s.runLen.toNat → s.runPol = .allOnes

/-- I3 to I6 of R45, of an open encode session: no carry without a held byte, LOWF + RANGE below
2^33, an empty queue, and RANGE at least 2^24. -/
abbrev State.encodeInv (s : State) : Prop :=
  (s.heldV = false → s.lowf + s.range.toNat ≤ 2 ^ 32) ∧
  s.lowf + s.range.toNat < 2 ^ 33 ∧
  (s.pcnt = 0 ∧ s.pbits = 0) ∧
  2 ^ 24 ≤ s.range.toNat

/-- A flushed session leaves no tail (R185, R305). -/
abbrev State.flushed (s : State) : Prop :=
  s.heldV = false ∧ s.runLen = 0 ∧ s.pcnt = 0 ∧ s.low = 0 ∧ s.carry = false

/-- The fault registers agree with FAULTED: no code without a fault, and one of R270's eight with one. -/
abbrev State.faultConsistent (s : State) : Prop :=
  if s.faulted then 1 ≤ s.faultCode.toNat ∧ s.faultCode.toNat ≤ 8
  else s.faultCode = 0 ∧ s.faultOp = 0 ∧ s.faultInfo = 0

/-- The two buffers are in canonical form and ILEN lies inside IN (R70, R210). -/
abbrev State.buffersOk (s : State) : Prop :=
  Memory.wf s.params.inSize s.inMem = true ∧ Memory.wf s.params.ptSize s.ptMem = true ∧
  s.ilen.toNat ≤ s.params.inSize

/-- The invariant of CORE: it holds after reset, and every step and every act of the host keep it. The
session clauses speak of a CORE that has taken no fault, since a fault inside a command leaves that
command's half-done writes (R273). -/
abbrev State.Inv (s : State) : Prop :=
  s.params.valid ∧ s.buffersOk ∧ s.heldDefinite ∧ s.runIsOnes ∧ s.pbits.toNat < 2 ^ s.pcnt.toNat ∧
  s.faultConsistent ∧
  (s.mode = .fin → s.flushed) ∧
  (s.rcvState = .searching → s.faulted = true) ∧
  (s.faulted = false → s.mode = .enc → s.encodeInv) ∧
  (s.faulted = false → s.mode = .dec → 2 ^ 24 ≤ s.range.toNat)

/-! ## Runs -/

/-- The states that resets, steps and acts of the host lead to, for OPEN parameters within R6's bounds. -/
inductive Reachable : State → Prop where
  | reset {p : Params} {n : Nat} (hp : p.valid) : Reachable (State.resetWith p n)
  | step {s t : State} (hs : Reachable s) (h : step s = .next t) : Reachable t
  | host {s t : State} {x : HostAction} (hs : Reachable s) (h : hostAct x s = some t) : Reachable t

/-- Commands run one after the other, stopping where one stops. -/
def execAll : List Instr → State → Host.Outcome State Fault Refusal
  | [], s => .next s
  | i :: is, s =>
    match exec i s with
    | .next t => execAll is t
    | .fault f => .fault f
    | .refused r => .refused r

/-- `k` is the number of renormalization steps that a new width `w` takes: the least `k` with
`w * 2^(8k) >= 2^24` (R183). -/
abbrev RenormCount (w k : Nat) : Prop :=
  2 ^ 24 ≤ w * 2 ^ (8 * k) ∧ ∀ j < k, w * 2 ^ (8 * j) < 2 ^ 24

/-- Step `j` of the renormalization that E.ADV U, W runs would defer a 2^32-th byte of the pending run
(R147, R150): step `j` is taken, no carry resolves the run, bytes 0 to `j` of the new low bound are all
0xFF, and the run with bytes 0 to `j - 1` has the greatest length. -/
abbrev State.runOverflowsAt (s : State) (u w : Word) (j : Nat) : Prop :=
  w.toNat * 2 ^ (8 * j) < 2 ^ 24 ∧ s.lowf + u.toNat < 2 ^ 32 ∧
  (s.lowf + u.toNat) / 2 ^ (24 - 8 * j) = 2 ^ (8 * (j + 1)) - 1 ∧
  s.runLen.toNat + j + 1 = 2 ^ 32

/-- Byte `i` of the decode session's stream: IN below ILEN and the sentinel from there on (R73). -/
def State.streamByte (s : State) (i : Nat) : Byte :=
  if i < s.ilen.toNat then s.byteAt .input i else Config.sentinel

/-- The sub-interval (U, W) that a binary decision stands for, of an interval of width `range` (R184). -/
def splitInterval (sym : Bool) (bound range : Word) : Word × Word :=
  if sym then (bound, range - bound) else (0, bound)

/-- The registers that the encode commands work on (R30): what they read of the state. -/
structure EncoderRegs where
  low    : Word
  carry  : Bool
  range  : Word
  pcnt   : BitVec 3
  pbits  : Byte
  held   : Byte
  heldV  : Bool
  runLen : Word
  runPol : Polarity
  mode   : Mode
deriving DecidableEq, Repr

/-- The encoder's registers in a state. -/
def State.encoderRegs (s : State) : EncoderRegs :=
  { low := s.low, carry := s.carry, range := s.range, pcnt := s.pcnt, pbits := s.pbits,
    held := s.held, heldV := s.heldV, runLen := s.runLen, runPol := s.runPol, mode := s.mode }

/-- The four fault registers in a state (R41). -/
def State.faultRegs (s : State) : Bool × Byte × Byte × Word :=
  (s.faulted, s.faultCode, s.faultOp, s.faultInfo)

/-- The session table of R272: the commands that raise no SessionError in a MODE. E.FLUSH in FIN has
no effect, and is no error. -/
def sessionAllows : Instr → Mode → Bool
  | .eInit, _ => true
  | .eAdv _ _, m => m == .enc
  | .eBit _ _, m => m == .enc
  | .eFlush, m => m == .enc || m == .fin
  | .dInit _, _ => true
  | .dAdv _ _, m => m == .dec
  | .dBit _, m => m == .dec
  | .recover _ _, _ => true

/-- MATCH (R243) written again over the commands it names. From plaintext byte `n`, with `k` decisions
made since the last byte, model state `σ` and a decode session in state `d`, the decode that takes every
split point from the model and every decision from D.BIT ends in the verdict given. -/
inductive DecodeMatch {St : Type} (m : Model St) (maxDpb : Nat) (pt : Nat → Byte) (plen : Nat) :
    Nat → Nat → St → State → Verdict → Prop where
  /-- all PLEN bytes are decoded: `return true` -/
  | hit {n k : Nat} {σ : St} {d : State} (hn : plen ≤ n) : DecodeMatch m maxDpb pt plen n k σ d .hit
  /-- D.BIT refuses the model's bound: `raise Fault(IntervalError, b)` -/
  | badBound {n k : Nat} {σ : St} {d d' : State} (hn : n < plen)
      (hd : exec (.dBit (m.bound σ d.range)) d = .next d')
      (hf : d'.faulted = true) (hc : d'.faultCode = 3) :
      DecodeMatch m maxDpb pt plen n k σ d .badBound
  /-- a byte is complete and differs: `return false` -/
  | miss {n k : Nat} {σ σ' : St} {d d' : State} {y : Byte} (hn : n < plen)
      (hd : exec (.dBit (m.bound σ d.range)) d = .next d') (hf : d'.faulted = false)
      (hy : m.next σ d'.dbit = (σ', some y)) (hne : y ≠ pt n) :
      DecodeMatch m maxDpb pt plen n k σ d .miss
  /-- a byte is complete and equal: `n <- n + 1`, `d <- 0` -/
  | byte {n k : Nat} {σ σ' : St} {d d' : State} {y : Byte} {v : Verdict} (hn : n < plen)
      (hd : exec (.dBit (m.bound σ d.range)) d = .next d') (hf : d'.faulted = false)
      (hy : m.next σ d'.dbit = (σ', some y)) (he : y = pt n)
      (rest : DecodeMatch m maxDpb pt plen (n + 1) 0 σ' d' v) :
      DecodeMatch m maxDpb pt plen n k σ d v
  /-- MAX_DPB decisions have made no byte: `raise Fault(ModelNonProgress, b)` -/
  | nonProgress {n k : Nat} {σ σ' : St} {d d' : State} (hn : n < plen)
      (hd : exec (.dBit (m.bound σ d.range)) d = .next d') (hf : d'.faulted = false)
      (hy : m.next σ d'.dbit = (σ', none)) (hk : k + 1 = maxDpb) :
      DecodeMatch m maxDpb pt plen n k σ d .nonProgress
  /-- no byte yet: `d <- d + 1` -/
  | decision {n k : Nat} {σ σ' : St} {d d' : State} {v : Verdict} (hn : n < plen)
      (hd : exec (.dBit (m.bound σ d.range)) d = .next d') (hf : d'.faulted = false)
      (hy : m.next σ d'.dbit = (σ', none)) (hk : k + 1 ≠ maxDpb)
      (rest : DecodeMatch m maxDpb pt plen n (k + 1) σ' d' v) :
      DecodeMatch m maxDpb pt plen n k σ d v

/-- The decode session `d`, driven under the MODEL that machine `s` carries against the first PLEN bytes
of its PT, ends in the verdict given (R6, R243). -/
def State.decodesTo (s : State) (plen : Word) (d : State) (v : Verdict) : Prop :=
  match s.params.model with
  | .injected =>
    DecodeMatch Config.injectedModel s.params.maxDpb (s.byteAt .plaintext) plen.toNat 0 0
      Config.injectedModel.init d v
  | .tm0 => DecodeMatch tm0 s.params.maxDpb (s.byteAt .plaintext) plen.toNat 0 0 tm0.init d v
  | .tm1 => DecodeMatch tm1 s.params.maxDpb (s.byteAt .plaintext) plen.toNat 0 0 tm1.init d v
  | .tmEdge => DecodeMatch tmEdge s.params.maxDpb (s.byteAt .plaintext) plen.toNat 0 0 tmEdge.init d v

/-- A safe run of CORE: from `s`, for any number of steps, no step stops the model. -/
def Safe (s : State) : Prop :=
  ∀ k, ∃ t, Host.Core.run Sys2Proof.core k s = .next t

end Sys2Proof.Machine
end

