-- ==== Sys2Proof/Certificates/Slice0/Obligations.lean ====
section
/-! DEFINITION. The statements for the provers, each about every state that meets its hypotheses. A
docstring names the rule or the log entry a statement rests on. -/

open Sys2Proof Sys2Proof.Machine

/-! ## Encoding -/

/-- R100 to R103: the decoder reads a command exactly from that command's own words. The words after
them are left for the next packet. -/
def Obligations.DecodeReadsExactlyTheEncoding : Prop :=
  ∀ (ws : List Word) (i : Instr) (rest : List Word),
    decode ws = .packet i rest ↔ ws = encode i ++ rest

/-- R104, whole: which headers are illegal; the fault an illegal header raises the moment it arrives,
with no operand word taken; that every word after it is ignored; and that 248 opcode values are illegal.
That an ignored word is dropped by a step of its own is the model's choice (log entry 6). -/
def Obligations.IllegalHeaderFaultsAtOnce : Prop :=
  (∀ (h : Word) (rest : List Word),
    (∃ why, decode (h :: rest) = .illegal why) ↔
      (h.extractLsb' 0 8 ∉ [0x01#8, 0x02#8, 0x03#8, 0x04#8, 0x11#8, 0x12#8, 0x13#8, 0x21#8] ∨
       h.extractLsb' 9 23 ≠ 0 ∨
       (h.getLsbD 8 = true ∧ h.extractLsb' 0 8 ≠ 0x03#8))) ∧
  (∀ (s : State) (h : Word) (rest : List Word) (why : Illegal) (k : Nat),
    s.faulted = false → s.cmd = h :: rest → decode s.cmd = .illegal why →
      Host.Core.run Sys2Proof.core (k + 1) s =
        .next { s with
          cmd := rest.drop k
          faulted := true
          faultCode := 1
          faultOp := h.extractLsb' 0 8
          faultInfo := h }) ∧
  ((List.range 256).filter fun n =>
    decide (decode [BitVec.ofNat 32 n] = .illegal .unknownOpcode)).length = 248

/-- R106: a packet is 1 + N words long, N as in R103, and an illegal header is one word. -/
def Obligations.PacketLengthFromTheHeader : Prop :=
  (∀ (i : Instr), (encode i).length =
    match i with
    | .eInit => 1
    | .eAdv _ _ => 3
    | .eBit _ _ => 2
    | .eFlush => 1
    | .dInit _ => 2
    | .dAdv _ _ => 3
    | .dBit _ => 2
    | .recover _ _ => 3) ∧
  (∀ (i : Instr) (h : Word) (ops : List Word),
    encode i = h :: ops → packetLength h = (encode i).length) ∧
  (∀ (h : Word) (rest : List Word) (why : Illegal),
    decode (h :: rest) = .illegal why → packetLength h = 1)

/-- The examples of R107 and 95_test_vectors.md: words written out from R101 and R103. -/
def Obligations.WordsOfTheTableDecode : Prop :=
  decode [0x00000001#32] = .packet .eInit [] ∧
  decode [0x00000002#32, 0x12FF8000#32, 0x00010000#32] = .packet (.eAdv 0x12FF8000 0x10000) [] ∧
  decode [0x00000103#32, 0x80000000#32] = .packet (.eBit true 0x80000000) [] ∧
  decode [0x00000003#32, 0x7FFFF800#32] = .packet (.eBit false 0x7FFFF800) [] ∧
  decode [0x00000004#32] = .packet .eFlush [] ∧
  decode [0x00000011#32, 0x00000001#32] = .packet (.dInit 1) [] ∧
  decode [0x00000012#32, 0x12345678#32, 0x00000100#32] = .packet (.dAdv 0x12345678 0x100) [] ∧
  decode [0x00000013#32, 0x01000000#32] = .packet (.dBit 0x01000000) [] ∧
  decode [0x00000021#32, 0x00000002#32, 0x00000003#32] = .packet (.recover 2 3) []

/-! ## Stepping -/

/-- R100: when a whole packet waits on CMD of a CORE that has taken no fault, a step takes it from CMD
and runs its command. -/
def Obligations.StepRunsTheDecodedCommand : Prop :=
  (∀ (s : State) (i : Instr) (rest : List Word),
    s.faulted = false → decode s.cmd = .packet i rest →
      step s = exec i { s with cmd := rest }) ∧
  (∀ (s : State) (i : Instr) (rest : List Word),
    s.faulted = false → s.cmd = encode i ++ rest →
      step s = exec i { s with cmd := rest })

/-- R311, R283: with no word, or with fewer words than the packet has, CORE waits and nothing changes,
however often it steps; a word that completes the packet starts the command, whatever that word is. That
a waiting CORE steps at all is the model's choice (log entry 12). -/
def Obligations.IncompletePacketWaits : Prop :=
  (∀ (s : State) (k : Nat), s.cmd = [] → Host.Core.run Sys2Proof.core k s = .next s) ∧
  (∀ (s : State) (h : Word) (ops : List Word) (k : Nat),
    s.faulted = false → s.cmd = h :: ops → ops.length + 1 < packetLength h →
      Host.Core.run Sys2Proof.core k s = .next s) ∧
  (∀ (s : State) (h : Word) (ops : List Word),
    s.faulted = false → s.cmd = h :: ops → ops.length + 1 = packetLength h → packetLength h ≠ 1 →
      ∃ i, step s = exec i { s with cmd := [] } ∧ encode i = h :: ops)

/-- R274: a faulted CORE takes every word and ignores it; no state changes and no new fault is raised,
and register reads show the first fault. One word a step is the model's choice (log entry 6). -/
def Obligations.FaultedCoreIgnoresEveryWord : Prop :=
  ∀ (s : State) (k : Nat), s.faulted = true →
    ∃ t, Host.Core.run Sys2Proof.core k s = .next t ∧ t = { s with cmd := s.cmd.drop k } ∧
      ∀ a, readReg t a = readReg s a

/-! ## Reset -/

/-- R300, R301: the values after reset, as fields and as the register map shows them. That CMD is emptied
whole is the model's choice (log entry 6). -/
def Obligations.ResetValues : Prop :=
  ∀ (s t : State), hostAct .rst s = some t →
    (t.mode = .idle ∧ t.faulted = false ∧ t.range = 0xFFFFFFFF ∧ t.runPol = .allOnes ∧
      t.rcvState = .done) ∧
    (t.low = 0 ∧ t.carry = false ∧ t.pcnt = 0 ∧ t.pbits = 0 ∧ t.held = 0 ∧ t.heldV = false ∧
      t.runLen = 0 ∧ t.code = 0 ∧ t.ipos = 0 ∧ t.ilen = 0 ∧ t.dbit = false ∧ t.rcvByte = 0 ∧
      t.rcvFound = false ∧ t.faultCode = 0 ∧ t.faultOp = 0 ∧ t.faultInfo = 0 ∧ t.outcnt = 0) ∧
    (t.out = [] ∧ t.cmd = [] ∧ t.params = s.params) ∧
    (∀ a : Byte, readReg t a =
      if a.toNat / 4 = 4 then 0xFFFFFFFF
      else if a.toNat / 4 = 7 ∨ a.toNat / 4 = 12 then 0x00000200
      else 0)

/-! ## Invariants -/

/-- The invariant of CORE (R45 and the meanings of the registers) holds after reset, whatever the OPEN
parameters within R6's bounds. -/
def Obligations.InvariantHoldsAtReset : Prop :=
  State.Inv State.reset ∧ ∀ (p : Params) (n : Nat), p.valid → State.Inv (State.resetWith p n)

/-- Every step keeps the invariant of CORE. Its session clauses are I1 to I6 of R45. -/
def Obligations.EveryStepKeepsTheInvariant : Prop :=
  ∀ (s t : State), s.Inv → step s = .next t → t.Inv

/-- Every act of the host keeps the invariant of CORE, the canonical form of IN and PT with it. -/
def Obligations.EveryHostActKeepsTheInvariant : Prop :=
  ∀ (s t : State) (x : HostAction), s.Inv → hostAct x s = some t → t.Inv

/-- No step from a state with the invariant stops the model: every command word, of any content, leads
to a next state (R72, R105, R215). The model's only stop is log entry 2's. -/
def Obligations.NoRunStopsTheModel : Prop :=
  ∀ (s : State), s.Inv → Safe s

/-- R270 and U8, for the guards 4 and 5: no step from a state with the invariant raises
CarryOverflowBeyondStream or AccumulatorOverflow. R147 and R150, for the guard 6, which such a state can
raise (log entry 10): it needs a run that is already within three bytes of 2^32. -/
def Obligations.CarryGuardsNeverFireFromAGoodState : Prop :=
  ∀ (s t : State), s.Inv → s.faulted = false → step s = .next t →
    t.faultCode ≠ 4 ∧ t.faultCode ≠ 5 ∧ (t.faultCode = 6 → 2 ^ 32 ≤ s.runLen.toNat + 3)

/-- Log entry 10: a run of every 32-bit length is reached by commands from reset, so the guard against
a longer run (R147) can be met, whatever R270 says of code 6. -/
def Obligations.EveryRunLengthIsReachable : Prop :=
  ∀ (n : Nat), n < 2 ^ 32 →
    ∃ s, Reachable s ∧ s.mode = .enc ∧ s.faulted = false ∧ s.runLen.toNat = n

/-! ## Faults -/

/-- R272, check 3: the session table. A command that the table does not allow writes the fault
registers and nothing else; one that it allows raises no SessionError. -/
def Obligations.SessionTable : Prop :=
  (∀ (i : Instr) (s : State), sessionAllows i s.mode = false →
    exec i s = .next { s with
      faulted := true
      faultCode := 2
      faultOp := i.opcode.byte
      faultInfo := match s.mode with | .idle => 0 | .enc => 1 | .dec => 2 | .fin => 3 }) ∧
  (∀ (i : Instr) (s t : State), sessionAllows i s.mode = true → s.faultCode ≠ 2 →
    exec i s = .next t → t.faultCode ≠ 2)

/-- R272, check 4, and R270, code 7: lengths above the buffers, TLEN before PLEN, in every MODE. Only
the fault registers are written. -/
def Obligations.LengthChecks : Prop :=
  (∀ (s : State) (n : Word), s.params.inSize < n.toNat →
    exec (.dInit n) s = .next { s with
      faulted := true, faultCode := 7, faultOp := 0x11, faultInfo := n }) ∧
  (∀ (s : State) (tlen plen : Word), s.params.inSize < tlen.toNat →
    exec (.recover tlen plen) s = .next { s with
      faulted := true, faultCode := 7, faultOp := 0x21, faultInfo := tlen }) ∧
  (∀ (s : State) (tlen plen : Word), tlen.toNat ≤ s.params.inSize → s.params.ptSize < plen.toNat →
    exec (.recover tlen plen) s = .next { s with
      faulted := true, faultCode := 7, faultOp := 0x21, faultInfo := plen })

/-- R272, checks 5 and 6, and R270, codes 3 and 5: an interval that is empty or not inside the current
one, a split point outside it, and a second carry. Only the fault registers are written. -/
def Obligations.OperandChecks : Prop :=
  (∀ (s : State) (u w : Word), s.mode = .enc → (w = 0 ∨ s.range.toNat < u.toNat + w.toNat) →
    exec (.eAdv u w) s = .next { s with
      faulted := true, faultCode := 3, faultOp := 0x02, faultInfo := s.range }) ∧
  (∀ (s : State) (sym : Bool) (bound : Word), s.mode = .enc → (bound = 0 ∨ s.range ≤ bound) →
    exec (.eBit sym bound) s = .next { s with
      faulted := true, faultCode := 3, faultOp := 0x03, faultInfo := s.range }) ∧
  (∀ (s : State) (u w : Word), s.mode = .dec → (w = 0 ∨ s.range.toNat < u.toNat + w.toNat) →
    exec (.dAdv u w) s = .next { s with
      faulted := true, faultCode := 3, faultOp := 0x12, faultInfo := s.range }) ∧
  (∀ (s : State) (bound : Word), s.mode = .dec → (bound = 0 ∨ s.range ≤ bound) →
    exec (.dBit bound) s = .next { s with
      faulted := true, faultCode := 3, faultOp := 0x13, faultInfo := s.range }) ∧
  (∀ (s : State) (u w : Word), s.mode = .enc → 1 ≤ w.toNat → u.toNat + w.toNat ≤ s.range.toNat →
    s.carry = true → 2 ^ 32 ≤ s.low.toNat + u.toNat →
    exec (.eAdv u w) s = .next { s with
      faulted := true, faultCode := 5, faultOp := 0x02, faultInfo := s.low })

/-- R271, R41: a step that takes a fault records one of the eight codes, the opcode field of the header
word that led to it, and FAULTED; a step that takes none leaves the fault registers alone. -/
def Obligations.FaultEntryRecordsTheCommand : Prop :=
  ∀ (s t : State), s.faulted = false → step s = .next t →
    (t.faulted = true →
      (1 ≤ t.faultCode.toNat ∧ t.faultCode.toNat ≤ 8) ∧
      ∃ h rest, s.cmd = h :: rest ∧ t.faultOp = h.extractLsb' 0 8) ∧
    (t.faulted = false → t.faultRegs = s.faultRegs)

/-- R275, R276, R303: no command and no step clears a fault, and with it `irq_fault`, which is FAULTED in
every state; reset clears it. -/
def Obligations.OnlyResetClearsAFault : Prop :=
  (∀ (s : State), irqFault s = s.faulted) ∧
  (∀ (i : Instr) (s t : State), exec i s = .next t → irqFault s = true → irqFault t = true) ∧
  (∀ (s t : State), step s = .next t → irqFault s = true → t.faultRegs = s.faultRegs) ∧
  (∀ (s t : State) (x : HostAction), hostAct x s = some t → irqFault s = true →
    t.faultRegs = if x = .rst then (false, 0, 0, 0) else s.faultRegs)

/-! ## Micro-operations -/

/-- R146 and R153: a carry into a held byte that can take it commits that byte plus one and the whole
run as 0x00, before the byte that brought it is deferred; and when a carry finds no such byte. -/
def Obligations.CarryTurnsTheRunToZeros : Prop :=
  (∀ (s : State) (b : Byte), s.heldV = true → s.held ≠ 0xFF → b ≠ 0xFF →
    emit b true s = .ok { s with
      out := s.out ++ (s.held + 1) :: List.replicate s.runLen.toNat 0x00
      outcnt := s.outcnt + 1 + s.runLen
      runLen := 0, runPol := .allZeros, held := b, heldV := true }) ∧
  (∀ (s : State), s.heldV = true → s.held ≠ 0xFF →
    emit 0xFF true s = .ok { s with
      out := s.out ++ (s.held + 1) :: List.replicate s.runLen.toNat 0x00
      outcnt := s.outcnt + 1 + s.runLen
      runLen := 1, runPol := .allOnes, held := 0, heldV := false }) ∧
  (∀ (s : State) (b : Byte), (s.heldV = false ∨ s.held = 0xFF) →
    emit b true s = .raise .carryOverflowBeyondStream s.runLen s)

/-- R147: what DEFER does with a fill byte and with a definite byte. -/
def Obligations.DeferHoldsOrCommits : Prop :=
  (∀ (s : State), s.runLen ≠ 0xFFFFFFFF →
    defer 0xFF s = .ok { s with
      runLen := s.runLen + 1, runPol := if s.runLen = 0 then .allOnes else s.runPol }) ∧
  (∀ (s : State), s.runLen = 0xFFFFFFFF → defer 0xFF s = .raise .runLengthOverflow 0 s) ∧
  (∀ (s : State) (b : Byte), b ≠ 0xFF →
    defer b s = .ok { s with
      out := s.out ++ s.tailBytes
      outcnt := s.outcnt + BitVec.ofNat 32 s.tailBytes.length
      runLen := 0, held := b, heldV := true })

/-- R148: FINALIZE commits the held byte and then the run, and a second one commits nothing. -/
def Obligations.FinalizeCommitsTheTailOnce : Prop :=
  ∀ (s : State),
    finalize s = { s with
      out := s.out ++ s.tailBytes
      outcnt := s.outcnt + BitVec.ofNat 32 s.tailBytes.length
      runLen := 0, held := 0, heldV := false } ∧
    finalize (finalize s) = finalize s

/-- R145: with an empty queue, QPUSH(8) emits the top byte of LOW with the carry, and shifts LOW. -/
def Obligations.EmptyQueueIsBypassed : Prop :=
  ∀ (s t : State), s.pcnt = 0 →
    emit (s.low.extractLsb' 24 8) s.carry { s with carry := false } = .ok t →
    qpush 8 s = .ok { t with low := s.low <<< 8, pbits := 0 }

/-- R144: the byte QPUSH(8) forms from the queued bits and the top of LOW, and the source's example
(95_test_vectors.md W1: PCNT = 3, PBITS = 54 and LOW[31:27] = 0b01100 give 0xCC). -/
def Obligations.QueueFormsTheByte : Prop :=
  (∀ (s : State), s.carry = false →
    qpush 8 s = defer
      (BitVec.ofNat 8 (s.pb * 2 ^ (8 - s.pcnt.toNat) +
        (s.low.extractLsb' 24 8).toNat / 2 ^ s.pcnt.toNat))
      { s with
        low := s.low <<< 8
        pbits := BitVec.ofNat 8 ((s.low.extractLsb' 24 8).toNat % 2 ^ s.pcnt.toNat) }) ∧
  (∀ (s : State), s.carry = false → s.heldV = false → s.runLen = 0 → s.pcnt = 3 → s.pbits = 54 →
    s.low.extractLsb' 27 5 = 0b01100 →
    ∃ t, qpush 8 s = .ok t ∧ t.held = 0xCC ∧ t.heldV = true ∧ t.out = s.out)

/-- R34, U1: the bits of PBITS at or above position PCNT change nothing. -/
def Obligations.HighQueueBitsAreIgnored : Prop :=
  ∀ (n : Nat) (s t : State) (p : Byte), 1 ≤ n → n ≤ 8 →
    p.toNat % 2 ^ s.pcnt.toNat = s.pbits.toNat % 2 ^ s.pcnt.toNat →
    qpush n s = .ok t → qpush n { s with pbits := p } = .ok t

/-- R36, U2: no command's effect depends on RUN_POL while RUN_LEN is 0, but for RUN_POL itself while the
run stays empty. -/
def Obligations.PolarityOfAnEmptyRunIsIgnored : Prop :=
  ∀ (i : Instr) (s t : State) (p : Polarity), s.runLen = 0 → exec i s = .next t →
    ∃ q, exec i { s with runPol := p } = .next { t with runPol := q } ∧
      (t.runLen ≠ 0 → q = t.runPol)

/-- R154, R44: QPUSH moves bits from LOWF into the tail, EMIT_CARRY adds the carry's unit to the tail,
DEFER and FINALIZE move bytes to OUT unchanged; so the number (OUT ‖ T) * 2^32 + LOWF never changes but
for the zero bits that QPUSH(n) appends at the bottom. -/
def Obligations.MicroOperationsKeepTheStreamValue : Prop :=
  (∀ (n : Nat) (s t : State), 1 ≤ n → n ≤ 8 → s.runIsOnes → qpush n s = .ok t →
    t.streamValue = s.streamValue * 2 ^ n ∧ t.runIsOnes ∧ s.out <+: t.out) ∧
  (∀ (s t : State), s.carry = true → s.pcnt = 0 → s.runIsOnes →
    emitCarry { s with carry := false } = .ok t →
    t.streamValue = s.streamValue ∧ t.runIsOnes ∧ s.out <+: t.out) ∧
  (∀ (b : Byte) (s t : State), s.runIsOnes → defer b s = .ok t →
    t.out ++ t.tailBytes = s.out ++ s.tailBytes ++ [b] ∧ t.runIsOnes ∧ s.out <+: t.out) ∧
  (∀ (s : State), (finalize s).streamValue = s.streamValue ∧ (finalize s).tailBytes = [])

/-- R186: FLUSH_VALUE returns a value of the interval on the coarsest byte grid that has one, the least
there, and for a RANGE of at least 2^24 that grid is 2^32 or 2^24. -/
def Obligations.FlushValueIsTheLeastOnTheCoarsestGrid : Prop :=
  ∀ (lowf range : Nat), 1 ≤ range →
    ∃ v nb, flushValue lowf range = some v ∧ nb ≤ 4 ∧
      lowf ≤ v ∧ v < lowf + range ∧ 2 ^ (32 - 8 * nb) ∣ v ∧
      (∀ x, lowf ≤ x → 2 ^ (32 - 8 * nb) ∣ x → v ≤ x) ∧
      (∀ m < nb, ∀ x, lowf ≤ x → x < lowf + range → ¬ 2 ^ (32 - 8 * m) ∣ x) ∧
      (2 ^ 24 ≤ range → nb ≤ 1)

/-! ## Encode commands -/

/-- R180, whole: the word of E.INIT, what it writes, and that it writes nothing else, in every MODE. -/
def Obligations.EInitOpensASession : Prop :=
  encode .eInit = [0x00000001#32] ∧
  ∀ (s : State),
    exec .eInit s = .next { s with
      low := 0, carry := false, range := 0xFFFFFFFF, pcnt := 0, pbits := 0, held := 0,
      heldV := false, runLen := 0, runPol := .allOnes, mode := .enc }

/-- R181 for a width of at least 2^24: LOW, CARRY and RANGE take the new interval, and nothing else
changes. -/
def Obligations.EAdvNarrowsTheInterval : Prop :=
  ∀ (s : State) (u w : Word), s.mode = .enc → 2 ^ 24 ≤ w.toNat →
    u.toNat + w.toNat ≤ s.range.toNat → (s.carry = true → s.low.toNat + u.toNat < 2 ^ 32) →
    exec (.eAdv u w) s = .next { s with
      carry := s.carry || decide (2 ^ 32 ≤ s.low.toNat + u.toNat)
      low := s.low + u
      range := w }

/-- R181, R183, R154: E.ADV completes on every operand pair of a good state, unless the pending run would
grow past 2^32 - 1, where RunLengthOverflowLeavesThePartialWrites says what happens. It adds U to the
number the encoder stands for, and its k renormalization steps, k the least that brings RANGE to 2^24,
shift that number by k bytes and commit or defer k bytes. Nothing outside the encoder changes. -/
def Obligations.EAdvAddsToTheStream : Prop :=
  ∀ (s : State) (u w : Word), s.Inv → s.faulted = false → s.mode = .enc →
    1 ≤ w.toNat → u.toNat + w.toNat ≤ s.range.toNat → (∀ j, ¬ s.runOverflowsAt u w j) →
    ∃ t k, exec (.eAdv u w) s = .next t ∧
      k ≤ 3 ∧ RenormCount w.toNat k ∧
      t.range.toNat = w.toNat * 2 ^ (8 * k) ∧
      t.streamValue = (s.streamValue + u.toNat) * 2 ^ (8 * k) ∧
      t.out.length + t.tailBytes.length = s.out.length + s.tailBytes.length + k ∧
      s.out <+: t.out ∧
      t = { s with
        low := t.low, carry := t.carry, range := t.range, held := t.held, heldV := t.heldV,
        runLen := t.runLen, runPol := t.runPol, out := t.out, outcnt := t.outcnt }

/-- R184, R183, R154: E.BIT completes for every split point inside the interval of a good state, unless
the pending run would grow past 2^32 - 1 (RunLengthOverflowLeavesThePartialWrites). Symbol 0 keeps the
lower part [0, BOUND) and symbol 1 the upper part [BOUND, RANGE); the rest is as for E.ADV. -/
def Obligations.EBitAddsToTheStream : Prop :=
  ∀ (s : State) (sym : Bool) (bound : Word), s.Inv → s.faulted = false → s.mode = .enc →
    1 ≤ bound.toNat → bound.toNat < s.range.toNat →
    (∀ j, ¬ s.runOverflowsAt (splitInterval sym bound s.range).1
      (splitInterval sym bound s.range).2 j) →
    ∃ t k, exec (.eBit sym bound) s = .next t ∧
      k ≤ 3 ∧ RenormCount (if sym then s.range.toNat - bound.toNat else bound.toNat) k ∧
      t.range.toNat = (if sym then s.range.toNat - bound.toNat else bound.toNat) * 2 ^ (8 * k) ∧
      t.streamValue = (s.streamValue + (if sym then bound.toNat else 0)) * 2 ^ (8 * k) ∧
      t.out.length + t.tailBytes.length = s.out.length + s.tailBytes.length + k ∧
      s.out <+: t.out ∧
      t = { s with
        low := t.low, carry := t.carry, range := t.range, held := t.held, heldV := t.heldV,
        runLen := t.runLen, runPol := t.runPol, out := t.out, outcnt := t.outcnt }

/-- R184: E.BIT is E.ADV of the sub-interval its symbol names, in every state and to the last register,
but for FAULT_OP, which is E.BIT's own opcode. -/
def Obligations.EBitIsEAdvOfItsPart : Prop :=
  ∀ (s t : State) (sym : Bool) (bound : Word), s.faulted = false → s.mode = .enc →
    1 ≤ bound.toNat → bound.toNat < s.range.toNat →
    exec (.eAdv (splitInterval sym bound s.range).1 (splitInterval sym bound s.range).2) s = .next t →
    exec (.eBit sym bound) s = .next (if t.faulted then { t with faultOp := 0x03 } else t)

/-- R183: after every E.ADV and E.BIT that does not fault, RANGE is at least 2^24, from any state. -/
def Obligations.RangeStaysWideAfterEncoding : Prop :=
  ∀ (i : Instr) (s t : State), s.faulted = false → exec i s = .next t → t.faulted = false →
    (i.opcode = .eAdv ∨ i.opcode = .eBit) → 2 ^ 24 ≤ t.range.toNat ∧ t.range.toNat ≤ 2 ^ 32 - 1

/-- R147, R150, R185, R273: where a renormalization step or the flush would defer a 2^32-th byte of the run,
E.ADV, E.BIT and E.FLUSH raise RunLengthOverflow and leave the writes made before it: the new low bound
shifted by the step that raised, the steps before it, and no commit. MODE is as before (vector V-E14). -/
def Obligations.RunLengthOverflowLeavesThePartialWrites : Prop :=
  (∀ (s : State) (u w : Word) (j : Nat), s.mode = .enc → s.pcnt = 0 →
    1 ≤ w.toNat → u.toNat + w.toNat ≤ s.range.toNat → s.runOverflowsAt u w j →
    exec (.eAdv u w) s = .next { s with
      low := (s.low + u) <<< (8 * (j + 1)), carry := false, range := w <<< (8 * j), pbits := 0,
      runLen := 0xFFFFFFFF,
      faulted := true, faultCode := 6, faultOp := 0x02, faultInfo := 0 }) ∧
  (∀ (s : State) (sym : Bool) (bound : Word) (j : Nat), s.mode = .enc → s.pcnt = 0 →
    1 ≤ bound.toNat → bound.toNat < s.range.toNat →
    s.runOverflowsAt (splitInterval sym bound s.range).1 (splitInterval sym bound s.range).2 j →
    exec (.eBit sym bound) s = .next { s with
      low := (s.low + (splitInterval sym bound s.range).1) <<< (8 * (j + 1)), carry := false,
      range := (splitInterval sym bound s.range).2 <<< (8 * j), pbits := 0, runLen := 0xFFFFFFFF,
      faulted := true, faultCode := 6, faultOp := 0x03, faultInfo := 0 }) ∧
  (∀ (s : State), s.mode = .enc → s.pcnt = 0 → s.runLen = 0xFFFFFFFF →
    flushValue s.lowf s.range.toNat = some 0xFF000000 →
    exec .eFlush s = .next { s with
      low := 0, carry := false, pbits := 0,
      faulted := true, faultCode := 6, faultOp := 0x04, faultInfo := 0 })

/-- R185, R186, R187: E.FLUSH ends the session of a good state, unless the pending run would grow past
2^32 - 1 (RunLengthOverflowLeavesThePartialWrites). The whole tail and at most one byte more are committed;
with the bytes of OUT before them they spell the flush value V of R186, aligned below the session's bytes,
the trailing zero bytes of V left out: the byte more is there exactly when the low 32 bits of V are not 0.
RANGE and all outside the encoder are unchanged. -/
def Obligations.EFlushSpellsTheFlushValue : Prop :=
  ∀ (s : State), s.Inv → s.faulted = false → s.mode = .enc →
    ¬ (s.runLen = 0xFFFFFFFF ∧ flushValue s.lowf s.range.toNat = some 0xFF000000) →
    ∃ t v j, exec .eFlush s = .next t ∧
      flushValue s.lowf s.range.toNat = some v ∧ j ≤ 1 ∧ (j = 0 ↔ v % 2 ^ 32 = 0) ∧
      t.out.length = s.out.length + s.tailBytes.length + j ∧
      bytesValue t.out * 2 ^ (32 - 8 * j) = bytesValue (s.out ++ s.tailBytes) * 2 ^ 32 + v ∧
      s.out <+: t.out ∧
      t = { s with
        low := 0, carry := false, held := 0, heldV := false, runLen := 0, mode := .fin,
        runPol := t.runPol, out := t.out, outcnt := t.outcnt }

/-- R188, whole: E.FLUSH in FIN mode does nothing; after a first E.FLUSH nothing is held and no run
stands, so that a second FINALIZE would commit nothing. -/
def Obligations.SecondFlushDoesNothing : Prop :=
  (∀ (s : State), s.mode = .fin → exec .eFlush s = .next s) ∧
  (∀ (s t : State), s.mode = .enc → s.faulted = false → exec .eFlush s = .next t → t.faulted = false →
    t.mode = .fin ∧ t.heldV = false ∧ t.runLen = 0 ∧ finalize t = t ∧ exec .eFlush t = .next t)

/-- R190: a session with no symbol commits no byte; and a flush value whose low 32 bits are 0 with no
carry commits only what was held. R185, R146: with a carry, V = 2^32, it commits the held byte plus one
and the run as zeros (vector V-E9). -/
def Obligations.EmptySessionCommitsNothing : Prop :=
  (∀ (s : State), ∃ t, execAll [.eInit, .eFlush] s = .next t ∧ t.out = s.out ∧ t.mode = .fin) ∧
  (∀ (s : State), s.Inv → s.faulted = false → s.mode = .enc →
    flushValue s.lowf s.range.toNat = some 0 →
    ∃ t, exec .eFlush s = .next t ∧ t.mode = .fin ∧ t.out = s.out ++ s.tailBytes) ∧
  (∀ (s : State), s.Inv → s.faulted = false → s.mode = .enc →
    flushValue s.lowf s.range.toNat = some (2 ^ 32) →
    ∃ t, exec .eFlush s = .next t ∧ t.mode = .fin ∧
      t.out = s.out ++ (s.held + 1) :: List.replicate s.runLen.toNat 0x00)

/-- What an encode command leaves alone when it gives a next state: the decoder's and RECOVER's
registers, the parameters, CMD, and every byte of IN and PT (R71, R180, R181, R184, R185). -/
def Obligations.EncodeCommandsFrame : Prop :=
  ∀ (i : Instr) (s t : State),
    (i.opcode = .eInit ∨ i.opcode = .eAdv ∨ i.opcode = .eBit ∨ i.opcode = .eFlush) →
    exec i s = .next t →
    (t.code = s.code ∧ t.ipos = s.ipos ∧ t.ilen = s.ilen ∧ t.dbit = s.dbit) ∧
    (t.rcvByte = s.rcvByte ∧ t.rcvFound = s.rcvFound ∧ t.rcvState = s.rcvState) ∧
    (t.params = s.params ∧ t.cmd = s.cmd ∧ t.resetCount = s.resetCount) ∧
    (∀ b a, memRead t b a = memRead s b a)

/-- R191: what an encode command does to the encoder, to OUT and to the fault registers is a function
of its operands and the encoder's registers: nothing else in the state is read. -/
def Obligations.EncodingReadsOnlyTheEncoder : Prop :=
  ∀ (i : Instr) (s s' t : State),
    (i.opcode = .eInit ∨ i.opcode = .eAdv ∨ i.opcode = .eBit ∨ i.opcode = .eFlush) →
    s'.encoderRegs = s.encoderRegs → s'.faultRegs = s.faultRegs → exec i s = .next t →
    ∃ t' bs, exec i s' = .next t' ∧ t'.encoderRegs = t.encoderRegs ∧ t'.faultRegs = t.faultRegs ∧
      t.out = s.out ++ bs ∧ t'.out = s'.out ++ bs

/-! ## Decode commands -/

/-- R210, whole: D.INIT's words are 0x00000011 and ILEN; it primes CODE with the first four bytes of the
stream, the first highest and the sentinel past ILEN, in every MODE, and writes nothing else; or it
faults before any write. -/
def Obligations.DInitPrimesTheDecoder : Prop :=
  (∀ (n : Word), encode (.dInit n) = [0x00000011#32, n]) ∧
  (∀ (s : State) (n : Word), n.toNat ≤ s.params.inSize →
    exec (.dInit n) s = .next { s with
      ilen := n
      range := 0xFFFFFFFF
      code :=
        (((if 0 < n.toNat then s.byteAt .input 0 else 0x00) ++
          (if 1 < n.toNat then s.byteAt .input 1 else 0x00)) ++
        ((if 2 < n.toNat then s.byteAt .input 2 else 0x00) ++
          (if 3 < n.toNat then s.byteAt .input 3 else 0x00)) : BitVec 32)
      ipos := 4
      mode := .dec }) ∧
  (∀ (s : State) (n : Word), s.params.inSize < n.toNat →
    exec (.dInit n) s = .next { s with
      faulted := true, faultCode := 7, faultOp := 0x11, faultInfo := n })

/-- R211, R151: D.ADV completes on every operand pair inside the interval, whatever CODE is and however
short the stream: CODE loses U and takes in k bytes of the stream, k the least that brings RANGE to 2^24,
the sentinel past ILEN; IPOS moves by k and stops at 2^32 - 1. Nothing else changes. -/
def Obligations.DAdvRefillsFromTheStream : Prop :=
  ∀ (s : State) (u w : Word), s.mode = .dec → s.ilen.toNat ≤ s.params.inSize →
    1 ≤ w.toNat → u.toNat + w.toNat ≤ s.range.toNat →
    ∃ k, k ≤ 3 ∧ RenormCount w.toNat k ∧
      exec (.dAdv u w) s = .next { s with
        range := w <<< (8 * k)
        code := (List.range k).foldl
          (fun c j => (c <<< 8) + (s.streamByte (min (s.ipos.toNat + j) (2 ^ 32 - 1))).setWidth 32)
          (s.code - u)
        ipos := BitVec.ofNat 32 (min (s.ipos.toNat + k) (2 ^ 32 - 1)) }

/-- R212, R39: D.BIT completes for every split point inside the interval: it decodes 0 into DBIT when
CODE is below it, unsigned, and 1 otherwise, and the rest of its effect is D.ADV of the part decoded. -/
def Obligations.DBitDecodesIntoDbit : Prop :=
  ∀ (s : State) (bound : Word), s.mode = .dec → s.ilen.toNat ≤ s.params.inSize →
    1 ≤ bound.toNat → bound.toNat < s.range.toNat →
    ∃ t, exec (.dAdv (splitInterval (decide (bound.toNat ≤ s.code.toNat)) bound s.range).1
        (splitInterval (decide (bound.toNat ≤ s.code.toNat)) bound s.range).2) s = .next t ∧
      t.faulted = s.faulted ∧
      exec (.dBit bound) s = .next { t with dbit := decide (bound.toNat ≤ s.code.toNat) }

/-- R217: the decode commands never write OUT, the encoder's registers but RANGE, or the buffers; and
D.INIT, when its length fits, leaves the encode session. -/
def Obligations.DecodeCommandsFrame : Prop :=
  (∀ (i : Instr) (s t : State),
    (i.opcode = .dInit ∨ i.opcode = .dAdv ∨ i.opcode = .dBit) → exec i s = .next t →
    (t.out = s.out ∧ t.outcnt = s.outcnt ∧ t.low = s.low ∧ t.carry = s.carry ∧ t.pcnt = s.pcnt ∧
      t.pbits = s.pbits ∧ t.held = s.held ∧ t.heldV = s.heldV ∧ t.runLen = s.runLen ∧
      t.runPol = s.runPol) ∧
    (t.rcvByte = s.rcvByte ∧ t.rcvFound = s.rcvFound ∧ t.rcvState = s.rcvState) ∧
    (t.params = s.params ∧ t.cmd = s.cmd ∧ t.resetCount = s.resetCount) ∧
    (∀ b a, memRead t b a = memRead s b a)) ∧
  (∀ (s t : State) (n : Word), s.mode = .enc → n.toNat ≤ s.params.inSize →
    exec (.dInit n) s = .next t → t.mode = .dec)

/-- R214: a decode command whose operands pass the checks takes no fault, and what it decodes is a
function of the decoder's registers, its operands and IN[0 .. ILEN-1] alone. -/
def Obligations.DecodingReadsOnlyItsStream : Prop :=
  ∀ (i : Instr) (s s' : State), s.mode = .dec → s'.mode = .dec →
    s'.decoder = s.decoder → s'.ilen = s.ilen → s'.dbit = s.dbit →
    s.ilen.toNat ≤ s.params.inSize → s'.ilen.toNat ≤ s'.params.inSize →
    (∀ a, a < s.ilen.toNat → s'.byteAt .input a = s.byteAt .input a) →
    ((∃ u w, i = .dAdv u w ∧ intervalBad u w s.range = false) ∨
      (∃ b, i = .dBit b ∧ splitBad b s.range = false)) →
    ∃ t t', exec i s = .next t ∧ exec i s' = .next t' ∧
      t.faultRegs = s.faultRegs ∧ t'.faultRegs = s'.faultRegs ∧
      t'.decoder = t.decoder ∧ t'.dbit = t.dbit

/-- R189, the round trip: the stream of a fault-free encode session, read back by the replay of its own
advances, keeps CODE inside every sub-interval the encoder took. -/
def Obligations.RoundTrip : Prop :=
  ∀ (s t d : State) (cmds : List (Word × Word)),
    s.faulted = false →
    execAll (.eInit :: (cmds.map fun c => .eAdv c.1 c.2) ++ [.eFlush]) s = .next t →
    t.faulted = false →
    d.faulted = false → d.params.valid →
    (t.out.drop s.out.length).length ≤ d.params.inSize →
    (∀ a, a < (t.out.drop s.out.length).length →
      (t.out.drop s.out.length)[a]? = some (d.byteAt .input a)) →
    ∀ n (hn : n < cmds.length),
      ∃ e, execAll (.dInit (BitVec.ofNat 32 (t.out.drop s.out.length).length) ::
          ((cmds.take n).map fun c => .dAdv c.1 c.2)) d = .next e ∧
        e.faulted = false ∧
        cmds[n].1.toNat ≤ e.code.toNat ∧ e.code.toNat < cmds[n].1.toNat + cmds[n].2.toNat

/-! ## RECOVER -/

/-- R240, R244, R245: the lowest candidate that matches wins, and the result registers say so; when
none matches, the result is None. Nothing else is written. -/
def Obligations.RecoverReportsTheLowestMatch : Prop :=
  (∀ (s : State) (tlen plen : Word) (b : Byte),
    tlen.toNat ≤ s.params.inSize → plen.toNat ≤ s.params.ptSize →
    matchCandidate s tlen plen b = .hit →
    (∀ c : Byte, c < b → matchCandidate s tlen plen c = .miss) →
    exec (.recover tlen plen) s = .next { s with
      rcvFound := true, rcvByte := b, rcvState := .done }) ∧
  (∀ (s : State) (tlen plen : Word),
    tlen.toNat ≤ s.params.inSize → plen.toNat ≤ s.params.ptSize →
    (∀ c : Byte, matchCandidate s tlen plen c = .miss) →
    exec (.recover tlen plen) s = .next { s with
      rcvFound := false, rcvByte := 0, rcvState := .done })

/-- R243, R242, whole: the verdict on candidate b, hit, miss or fault alike, is the one that the decode
session of its stream IN[0 .. TLEN-1] ++ [b] ends in, opened with D.INIT and driven with D.BIT under the
MODEL's bounds. `d` is any machine whose IN has room for that stream and holds it. -/
def Obligations.MatchIsTheDecodeOfTheCandidate : Prop :=
  ∀ (s d t : State) (tlen plen : Word) (b : Byte) (v : Verdict), s.params.valid →
    tlen.toNat ≤ s.params.inSize → plen.toNat ≤ s.params.ptSize →
    d.faulted = false → tlen.toNat + 1 ≤ d.params.inSize →
    (∀ a, a < tlen.toNat → d.byteAt .input a = s.byteAt .input a) → d.byteAt .input tlen.toNat = b →
    exec (.dInit (tlen + 1)) d = .next t →
    (matchCandidate s tlen plen b = v ↔ s.decodesTo plen t v)

/-- R246, R243: a bad bound of the model, or MAX_DPB decisions with no byte, in the decode of candidate
b faults with FAULT_INFO = b, when every lower candidate misses; RCV_STATE stays SEARCHING and the other
result registers keep their values. -/
def Obligations.RecoverFaultsInTheSearch : Prop :=
  ∀ (s : State) (tlen plen : Word) (b : Byte),
    tlen.toNat ≤ s.params.inSize → plen.toNat ≤ s.params.ptSize →
    (∀ c : Byte, c < b → matchCandidate s tlen plen c = .miss) →
    (matchCandidate s tlen plen b = .badBound →
      exec (.recover tlen plen) s = .next { s with
        rcvState := .searching, faulted := true, faultCode := 3, faultOp := 0x21,
        faultInfo := b.setWidth 32 }) ∧
    (matchCandidate s tlen plen b = .nonProgress →
      exec (.recover tlen plen) s = .next { s with
        rcvState := .searching, faulted := true, faultCode := 8, faultOp := 0x21,
        faultInfo := b.setWidth 32 })

/-- R247: RECOVER always ends, in every state and on every operand, and writes no state but RCV_STATE,
RCV_FOUND, RCV_BYTE and, on a fault, the fault registers. -/
def Obligations.RecoverWritesOnlyItsResult : Prop :=
  ∀ (s : State) (tlen plen : Word),
    ∃ t, exec (.recover tlen plen) s = .next t ∧
      t = { s with
        rcvByte := t.rcvByte, rcvFound := t.rcvFound, rcvState := t.rcvState,
        faulted := t.faulted, faultCode := t.faultCode, faultOp := t.faultOp,
        faultInfo := t.faultInfo } ∧
      (t.faultRegs = s.faultRegs ∨
        (t.faulted = true ∧ t.rcvByte = s.rcvByte ∧ t.rcvFound = s.rcvFound))

/-- R240: the empty plaintext matches every candidate, so 0 is found, whatever the MODEL. -/
def Obligations.EmptyPlaintextMatchesZero : Prop :=
  ∀ (s : State) (tlen : Word), tlen.toNat ≤ s.params.inSize →
    exec (.recover tlen 0) s = .next { s with
      rcvFound := true, rcvByte := 0, rcvState := .done }

/-- R242, R243: the verdict on a candidate is a function of IN[0 .. TLEN-1], PT[0 .. PLEN-1], MAX_DPB and
the MODEL alone. -/
def Obligations.MatchReadsOnlyItsStreams : Prop :=
  ∀ (s s' : State) (tlen plen : Word) (b : Byte),
    s'.params = s.params → tlen.toNat ≤ s.params.inSize → plen.toNat ≤ s.params.ptSize →
    (∀ a, a < tlen.toNat → s'.byteAt .input a = s.byteAt .input a) →
    (∀ a, a < plen.toNat → s'.byteAt .plaintext a = s.byteAt .plaintext a) →
    matchCandidate s' tlen plen b = matchCandidate s tlen plen b

/-- Log entry 4: a model with its states replaced by the decisions made so far gives the same verdict on
every candidate, so the uninterpreted model over decision histories stands for every MODEL of R241. -/
def Obligations.EveryModelHasAHistoryModel : Prop :=
  ∀ (St : Type) (m : Model St) (s : State) (tlen plen : Word) (b : Byte),
    matchWith (historyModel m) s tlen plen b = matchWith m s tlen plen b

/-! ## Streams, buffers and the register port -/

/-- R75, R42: a step appends to OUT and counts what it appends, modulo 2^32; it never changes or removes
a byte; and only E.ADV, E.BIT and E.FLUSH append. -/
def Obligations.OutIsAppendOnly : Prop :=
  (∀ (s t : State), step s = .next t →
    ∃ bs, t.out = s.out ++ bs ∧ t.outcnt = s.outcnt + BitVec.ofNat 32 bs.length) ∧
  (∀ (i : Instr) (s t : State), exec i s = .next t →
    i.opcode ≠ .eAdv → i.opcode ≠ .eBit → i.opcode ≠ .eFlush → t.out = s.out ∧ t.outcnt = s.outcnt)

/-- R71, R6: CORE never writes IN or PT, and no step changes the OPEN parameters. -/
def Obligations.StepsLeaveTheBuffersAlone : Prop :=
  ∀ (s t : State), step s = .next t →
    t.params = s.params ∧ t.inMem = s.inMem ∧ t.ptMem = s.ptMem ∧
    ∀ b a, memRead t b a = memRead s b a

/-- R39, R40, R38: only D.BIT writes DBIT, only RECOVER the result registers, and only E.INIT, E.FLUSH and
D.INIT write MODE. -/
def Obligations.WhoWritesTheSessionRegisters : Prop :=
  ∀ (i : Instr) (s t : State), exec i s = .next t →
    (i.opcode ≠ .dBit → t.dbit = s.dbit) ∧
    (i.opcode ≠ .recover →
      t.rcvByte = s.rcvByte ∧ t.rcvFound = s.rcvFound ∧ t.rcvState = s.rcvState) ∧
    (i.opcode ≠ .eInit → i.opcode ≠ .eFlush → i.opcode ≠ .dInit → t.mode = s.mode)

/-- R72, R83: a byte the host writes is the byte CORE reads there, and every other byte reads as
before; no other part of the state changes. When the host may write is log entry 11. -/
def Obligations.HostWritesAreSeen : Prop :=
  ∀ (s t : State) (b : Buffer) (a : Nat) (v : Byte), hostAct (.write b a v) s = some t →
    memRead t b a = .ok v ∧
    (∀ b' a', (b', a') ≠ (b, a) → memRead t b' a' = memRead s b' a') ∧
    t = { s with inMem := t.inMem, ptMem := t.ptMem }

/-- R47 to R58: the fields of the register map, MODE, RUN_POL and RCV_STATE by the values of R38, R36 and
R40. -/
def Obligations.RegisterMapFields : Prop :=
  ∀ (s : State),
    ((readReg s 0x00).extractLsb' 0 2 =
        (match s.mode with | .idle => 0#2 | .enc => 1#2 | .dec => 2#2 | .fin => 3#2) ∧
      (readReg s 0x00).getLsbD 2 = s.faulted ∧ (readReg s 0x00).getLsbD 3 = s.carry ∧
      (readReg s 0x00).getLsbD 4 = s.dbit ∧ (readReg s 0x00).extractLsb' 5 27 = 0) ∧
    ((readReg s 0x04).extractLsb' 0 8 = s.faultCode ∧ (readReg s 0x04).extractLsb' 8 8 = s.faultOp ∧
      (readReg s 0x04).extractLsb' 16 16 = 0) ∧
    (readReg s 0x08 = s.faultInfo ∧ readReg s 0x0C = s.low ∧ readReg s 0x10 = s.range ∧
      readReg s 0x14 = s.code) ∧
    ((readReg s 0x18).extractLsb' 0 8 = s.pbits ∧ (readReg s 0x18).extractLsb' 8 3 = s.pcnt ∧
      (readReg s 0x18).extractLsb' 11 21 = 0) ∧
    ((readReg s 0x1C).extractLsb' 0 8 = s.held ∧ (readReg s 0x1C).getLsbD 8 = s.heldV ∧
      (readReg s 0x1C).getLsbD 9 = decide (s.runPol = .allOnes) ∧ (readReg s 0x1C).extractLsb' 10 22 = 0) ∧
    (readReg s 0x20 = s.runLen ∧ readReg s 0x24 = s.ipos ∧ readReg s 0x28 = s.ilen ∧
      readReg s 0x2C = s.outcnt) ∧
    ((readReg s 0x30).extractLsb' 0 8 = s.rcvByte ∧ (readReg s 0x30).getLsbD 8 = s.rcvFound ∧
      (readReg s 0x30).getLsbD 9 = decide (s.rcvState = .done) ∧ (readReg s 0x30).extractLsb' 10 22 = 0)

/-- R46, R80: a register read ignores address bits [1:0], and an address not listed reads as 0. -/
def Obligations.RegisterAddresses : Prop :=
  ∀ (s : State) (a : Byte),
    readReg s a = readReg s (a &&& 0xFC) ∧ (0x34 ≤ a.toNat → readReg s a = 0)
end

