-- ==== Sys2Proof/Laws/State.lean ====
section
/-! SUPPORT. One lemma per field and named update of State, each true by unfolding, so that no proof
unfolds a record update. -/

namespace Sys2Proof.Machine

variable (s : State)

/-! `raise Fault` writes the four fault registers and nothing else (R271). -/

@[simp] theorem State.enterFault_low (op : Byte) (c : FaultCode) (info : Word) : (s.enterFault op c info).low = s.low := rfl
@[simp] theorem State.enterFault_carry (op : Byte) (c : FaultCode) (info : Word) : (s.enterFault op c info).carry = s.carry := rfl
@[simp] theorem State.enterFault_range (op : Byte) (c : FaultCode) (info : Word) : (s.enterFault op c info).range = s.range := rfl
@[simp] theorem State.enterFault_pcnt (op : Byte) (c : FaultCode) (info : Word) : (s.enterFault op c info).pcnt = s.pcnt := rfl
@[simp] theorem State.enterFault_pbits (op : Byte) (c : FaultCode) (info : Word) : (s.enterFault op c info).pbits = s.pbits := rfl
@[simp] theorem State.enterFault_held (op : Byte) (c : FaultCode) (info : Word) : (s.enterFault op c info).held = s.held := rfl
@[simp] theorem State.enterFault_heldV (op : Byte) (c : FaultCode) (info : Word) : (s.enterFault op c info).heldV = s.heldV := rfl
@[simp] theorem State.enterFault_runLen (op : Byte) (c : FaultCode) (info : Word) : (s.enterFault op c info).runLen = s.runLen := rfl
@[simp] theorem State.enterFault_runPol (op : Byte) (c : FaultCode) (info : Word) : (s.enterFault op c info).runPol = s.runPol := rfl
@[simp] theorem State.enterFault_code (op : Byte) (c : FaultCode) (info : Word) : (s.enterFault op c info).code = s.code := rfl
@[simp] theorem State.enterFault_ipos (op : Byte) (c : FaultCode) (info : Word) : (s.enterFault op c info).ipos = s.ipos := rfl
@[simp] theorem State.enterFault_ilen (op : Byte) (c : FaultCode) (info : Word) : (s.enterFault op c info).ilen = s.ilen := rfl
@[simp] theorem State.enterFault_mode (op : Byte) (c : FaultCode) (info : Word) : (s.enterFault op c info).mode = s.mode := rfl
@[simp] theorem State.enterFault_dbit (op : Byte) (c : FaultCode) (info : Word) : (s.enterFault op c info).dbit = s.dbit := rfl
@[simp] theorem State.enterFault_rcvByte (op : Byte) (c : FaultCode) (info : Word) : (s.enterFault op c info).rcvByte = s.rcvByte := rfl
@[simp] theorem State.enterFault_rcvFound (op : Byte) (c : FaultCode) (info : Word) : (s.enterFault op c info).rcvFound = s.rcvFound := rfl
@[simp] theorem State.enterFault_rcvState (op : Byte) (c : FaultCode) (info : Word) : (s.enterFault op c info).rcvState = s.rcvState := rfl
@[simp] theorem State.enterFault_faulted (op : Byte) (c : FaultCode) (info : Word) : (s.enterFault op c info).faulted = true := rfl
@[simp] theorem State.enterFault_faultCode (op : Byte) (c : FaultCode) (info : Word) : (s.enterFault op c info).faultCode = c.byte := rfl
@[simp] theorem State.enterFault_faultOp (op : Byte) (c : FaultCode) (info : Word) : (s.enterFault op c info).faultOp = op := rfl
@[simp] theorem State.enterFault_faultInfo (op : Byte) (c : FaultCode) (info : Word) : (s.enterFault op c info).faultInfo = info := rfl
@[simp] theorem State.enterFault_outcnt (op : Byte) (c : FaultCode) (info : Word) : (s.enterFault op c info).outcnt = s.outcnt := rfl
@[simp] theorem State.enterFault_inMem (op : Byte) (c : FaultCode) (info : Word) : (s.enterFault op c info).inMem = s.inMem := rfl
@[simp] theorem State.enterFault_ptMem (op : Byte) (c : FaultCode) (info : Word) : (s.enterFault op c info).ptMem = s.ptMem := rfl
@[simp] theorem State.enterFault_out (op : Byte) (c : FaultCode) (info : Word) : (s.enterFault op c info).out = s.out := rfl
@[simp] theorem State.enterFault_cmd (op : Byte) (c : FaultCode) (info : Word) : (s.enterFault op c info).cmd = s.cmd := rfl
@[simp] theorem State.enterFault_params (op : Byte) (c : FaultCode) (info : Word) : (s.enterFault op c info).params = s.params := rfl
@[simp] theorem State.enterFault_resetCount (op : Byte) (c : FaultCode) (info : Word) : (s.enterFault op c info).resetCount = s.resetCount := rfl

/-! A run of commits writes OUT and OUTCNT and nothing else (R75). -/

@[simp] theorem State.commitRun_low (n : Nat) (b : Byte) : (s.commitRun n b).low = s.low := rfl
@[simp] theorem State.commitRun_carry (n : Nat) (b : Byte) : (s.commitRun n b).carry = s.carry := rfl
@[simp] theorem State.commitRun_range (n : Nat) (b : Byte) : (s.commitRun n b).range = s.range := rfl
@[simp] theorem State.commitRun_pcnt (n : Nat) (b : Byte) : (s.commitRun n b).pcnt = s.pcnt := rfl
@[simp] theorem State.commitRun_pbits (n : Nat) (b : Byte) : (s.commitRun n b).pbits = s.pbits := rfl
@[simp] theorem State.commitRun_held (n : Nat) (b : Byte) : (s.commitRun n b).held = s.held := rfl
@[simp] theorem State.commitRun_heldV (n : Nat) (b : Byte) : (s.commitRun n b).heldV = s.heldV := rfl
@[simp] theorem State.commitRun_runLen (n : Nat) (b : Byte) : (s.commitRun n b).runLen = s.runLen := rfl
@[simp] theorem State.commitRun_runPol (n : Nat) (b : Byte) : (s.commitRun n b).runPol = s.runPol := rfl
@[simp] theorem State.commitRun_code (n : Nat) (b : Byte) : (s.commitRun n b).code = s.code := rfl
@[simp] theorem State.commitRun_ipos (n : Nat) (b : Byte) : (s.commitRun n b).ipos = s.ipos := rfl
@[simp] theorem State.commitRun_ilen (n : Nat) (b : Byte) : (s.commitRun n b).ilen = s.ilen := rfl
@[simp] theorem State.commitRun_mode (n : Nat) (b : Byte) : (s.commitRun n b).mode = s.mode := rfl
@[simp] theorem State.commitRun_dbit (n : Nat) (b : Byte) : (s.commitRun n b).dbit = s.dbit := rfl
@[simp] theorem State.commitRun_rcvByte (n : Nat) (b : Byte) : (s.commitRun n b).rcvByte = s.rcvByte := rfl
@[simp] theorem State.commitRun_rcvFound (n : Nat) (b : Byte) : (s.commitRun n b).rcvFound = s.rcvFound := rfl
@[simp] theorem State.commitRun_rcvState (n : Nat) (b : Byte) : (s.commitRun n b).rcvState = s.rcvState := rfl
@[simp] theorem State.commitRun_faulted (n : Nat) (b : Byte) : (s.commitRun n b).faulted = s.faulted := rfl
@[simp] theorem State.commitRun_faultCode (n : Nat) (b : Byte) : (s.commitRun n b).faultCode = s.faultCode := rfl
@[simp] theorem State.commitRun_faultOp (n : Nat) (b : Byte) : (s.commitRun n b).faultOp = s.faultOp := rfl
@[simp] theorem State.commitRun_faultInfo (n : Nat) (b : Byte) : (s.commitRun n b).faultInfo = s.faultInfo := rfl
@[simp] theorem State.commitRun_outcnt (n : Nat) (b : Byte) : (s.commitRun n b).outcnt = s.outcnt + BitVec.ofNat 32 n := rfl
@[simp] theorem State.commitRun_inMem (n : Nat) (b : Byte) : (s.commitRun n b).inMem = s.inMem := rfl
@[simp] theorem State.commitRun_ptMem (n : Nat) (b : Byte) : (s.commitRun n b).ptMem = s.ptMem := rfl
@[simp] theorem State.commitRun_out (n : Nat) (b : Byte) : (s.commitRun n b).out = s.out ++ List.replicate n b := rfl
@[simp] theorem State.commitRun_cmd (n : Nat) (b : Byte) : (s.commitRun n b).cmd = s.cmd := rfl
@[simp] theorem State.commitRun_params (n : Nat) (b : Byte) : (s.commitRun n b).params = s.params := rfl
@[simp] theorem State.commitRun_resetCount (n : Nat) (b : Byte) : (s.commitRun n b).resetCount = s.resetCount := rfl

/-! Writing the decoder registers writes RANGE, CODE and IPOS and nothing else (R151). -/

@[simp] theorem State.setDecoder_low (d : Dec) : (s.setDecoder d).low = s.low := rfl
@[simp] theorem State.setDecoder_carry (d : Dec) : (s.setDecoder d).carry = s.carry := rfl
@[simp] theorem State.setDecoder_range (d : Dec) : (s.setDecoder d).range = d.range := rfl
@[simp] theorem State.setDecoder_pcnt (d : Dec) : (s.setDecoder d).pcnt = s.pcnt := rfl
@[simp] theorem State.setDecoder_pbits (d : Dec) : (s.setDecoder d).pbits = s.pbits := rfl
@[simp] theorem State.setDecoder_held (d : Dec) : (s.setDecoder d).held = s.held := rfl
@[simp] theorem State.setDecoder_heldV (d : Dec) : (s.setDecoder d).heldV = s.heldV := rfl
@[simp] theorem State.setDecoder_runLen (d : Dec) : (s.setDecoder d).runLen = s.runLen := rfl
@[simp] theorem State.setDecoder_runPol (d : Dec) : (s.setDecoder d).runPol = s.runPol := rfl
@[simp] theorem State.setDecoder_code (d : Dec) : (s.setDecoder d).code = d.code := rfl
@[simp] theorem State.setDecoder_ipos (d : Dec) : (s.setDecoder d).ipos = d.ipos := rfl
@[simp] theorem State.setDecoder_ilen (d : Dec) : (s.setDecoder d).ilen = s.ilen := rfl
@[simp] theorem State.setDecoder_mode (d : Dec) : (s.setDecoder d).mode = s.mode := rfl
@[simp] theorem State.setDecoder_dbit (d : Dec) : (s.setDecoder d).dbit = s.dbit := rfl
@[simp] theorem State.setDecoder_rcvByte (d : Dec) : (s.setDecoder d).rcvByte = s.rcvByte := rfl
@[simp] theorem State.setDecoder_rcvFound (d : Dec) : (s.setDecoder d).rcvFound = s.rcvFound := rfl
@[simp] theorem State.setDecoder_rcvState (d : Dec) : (s.setDecoder d).rcvState = s.rcvState := rfl
@[simp] theorem State.setDecoder_faulted (d : Dec) : (s.setDecoder d).faulted = s.faulted := rfl
@[simp] theorem State.setDecoder_faultCode (d : Dec) : (s.setDecoder d).faultCode = s.faultCode := rfl
@[simp] theorem State.setDecoder_faultOp (d : Dec) : (s.setDecoder d).faultOp = s.faultOp := rfl
@[simp] theorem State.setDecoder_faultInfo (d : Dec) : (s.setDecoder d).faultInfo = s.faultInfo := rfl
@[simp] theorem State.setDecoder_outcnt (d : Dec) : (s.setDecoder d).outcnt = s.outcnt := rfl
@[simp] theorem State.setDecoder_inMem (d : Dec) : (s.setDecoder d).inMem = s.inMem := rfl
@[simp] theorem State.setDecoder_ptMem (d : Dec) : (s.setDecoder d).ptMem = s.ptMem := rfl
@[simp] theorem State.setDecoder_out (d : Dec) : (s.setDecoder d).out = s.out := rfl
@[simp] theorem State.setDecoder_cmd (d : Dec) : (s.setDecoder d).cmd = s.cmd := rfl
@[simp] theorem State.setDecoder_params (d : Dec) : (s.setDecoder d).params = s.params := rfl
@[simp] theorem State.setDecoder_resetCount (d : Dec) : (s.setDecoder d).resetCount = s.resetCount := rfl

/-! Taking a word from CMD changes nothing else (R274). -/

@[simp] theorem State.dropWord_low : (s.dropWord).low = s.low := rfl
@[simp] theorem State.dropWord_carry : (s.dropWord).carry = s.carry := rfl
@[simp] theorem State.dropWord_range : (s.dropWord).range = s.range := rfl
@[simp] theorem State.dropWord_pcnt : (s.dropWord).pcnt = s.pcnt := rfl
@[simp] theorem State.dropWord_pbits : (s.dropWord).pbits = s.pbits := rfl
@[simp] theorem State.dropWord_held : (s.dropWord).held = s.held := rfl
@[simp] theorem State.dropWord_heldV : (s.dropWord).heldV = s.heldV := rfl
@[simp] theorem State.dropWord_runLen : (s.dropWord).runLen = s.runLen := rfl
@[simp] theorem State.dropWord_runPol : (s.dropWord).runPol = s.runPol := rfl
@[simp] theorem State.dropWord_code : (s.dropWord).code = s.code := rfl
@[simp] theorem State.dropWord_ipos : (s.dropWord).ipos = s.ipos := rfl
@[simp] theorem State.dropWord_ilen : (s.dropWord).ilen = s.ilen := rfl
@[simp] theorem State.dropWord_mode : (s.dropWord).mode = s.mode := rfl
@[simp] theorem State.dropWord_dbit : (s.dropWord).dbit = s.dbit := rfl
@[simp] theorem State.dropWord_rcvByte : (s.dropWord).rcvByte = s.rcvByte := rfl
@[simp] theorem State.dropWord_rcvFound : (s.dropWord).rcvFound = s.rcvFound := rfl
@[simp] theorem State.dropWord_rcvState : (s.dropWord).rcvState = s.rcvState := rfl
@[simp] theorem State.dropWord_faulted : (s.dropWord).faulted = s.faulted := rfl
@[simp] theorem State.dropWord_faultCode : (s.dropWord).faultCode = s.faultCode := rfl
@[simp] theorem State.dropWord_faultOp : (s.dropWord).faultOp = s.faultOp := rfl
@[simp] theorem State.dropWord_faultInfo : (s.dropWord).faultInfo = s.faultInfo := rfl
@[simp] theorem State.dropWord_outcnt : (s.dropWord).outcnt = s.outcnt := rfl
@[simp] theorem State.dropWord_inMem : (s.dropWord).inMem = s.inMem := rfl
@[simp] theorem State.dropWord_ptMem : (s.dropWord).ptMem = s.ptMem := rfl
@[simp] theorem State.dropWord_out : (s.dropWord).out = s.out := rfl
@[simp] theorem State.dropWord_cmd : (s.dropWord).cmd = s.cmd.tail := rfl
@[simp] theorem State.dropWord_params : (s.dropWord).params = s.params := rfl
@[simp] theorem State.dropWord_resetCount : (s.dropWord).resetCount = s.resetCount := rfl

end Sys2Proof.Machine
end

