-- ==== Sys2Proof/Laws/Ops.lean ====
section
/-! SUPPORT. One law per shared operation of Machine/Ops.lean: everything it can do, said once, for the
proofs to cite instead of unfolding it. -/

namespace Sys2Proof.Machine

/-! ## How commands end -/

@[simp] theorem Micro.ok_andThen (s : State) (k : State → Micro) : (Micro.ok s).andThen k = k s := rfl

@[simp] theorem Micro.raise_andThen (c : FaultCode) (i : Word) (s : State) (k : State → Micro) :
    (Micro.raise c i s).andThen k = .raise c i s := rfl

@[simp] theorem Micro.stop_andThen (f : Fault) (k : State → Micro) :
    (Micro.stop f).andThen k = .stop f := rfl

theorem Micro.andThen_eq_ok {m : Micro} {k : State → Micro} {t : State} :
    m.andThen k = .ok t ↔ ∃ s, m = .ok s ∧ k s = .ok t := by
  cases m <;> simp [Micro.andThen]

theorem Micro.andThen_assoc (m : Micro) (j k : State → Micro) :
    (m.andThen j).andThen k = m.andThen fun s => (j s).andThen k := by
  cases m <;> rfl

/-- A command that answers a next state either ran to its end or took the fault it raised. -/
theorem Micro.finish_eq_next {op : Opcode} {m : Micro} {t : State} :
    m.finish op = .next t ↔
      m = .ok t ∨ ∃ c i s, m = .raise c i s ∧ t = s.enterFault op.byte c i := by
  cases m with
  | ok s => simp [Micro.finish]
  | raise c i s =>
    constructor
    · intro h; cases h; exact .inr ⟨_, _, _, rfl, rfl⟩
    · rintro (h | ⟨c', i', s', h, rfl⟩)
      · cases h
      · cases h; rfl
  | stop f => simp [Micro.finish]

@[simp] theorem Micro.finish_ok (op : Opcode) (s : State) : (Micro.ok s).finish op = .next s := rfl

@[simp] theorem Micro.finish_raise (op : Opcode) (c : FaultCode) (i : Word) (s : State) :
    (Micro.raise c i s).finish op = .next (s.enterFault op.byte c i) := rfl

@[simp] theorem Micro.finish_stop (op : Opcode) (f : Fault) : (Micro.stop f).finish op = .fault f := rfl

/-- `P` holds of the state that a piece of pseudocode ends in, whether it runs to its end or raises. -/
def Micro.Ends (P : State → Prop) : Micro → Prop
  | .ok s => P s
  | .raise _ _ s => P s
  | .stop _ => True

theorem Micro.Ends.andThen {P Q : State → Prop} {m : Micro} {k : State → Micro}
    (hm : m.Ends P) (hP : ∀ s, P s → (k s).Ends Q) (hPQ : ∀ s, P s → Q s) : (m.andThen k).Ends Q := by
  cases m with
  | ok s => exact hP s hm
  | raise c i s => exact hPQ s hm
  | stop f => trivial

theorem Micro.Ends.mono {P Q : State → Prop} {m : Micro} (hm : m.Ends P) (h : ∀ s, P s → Q s) :
    m.Ends Q := by
  cases m with
  | ok s => exact h s hm
  | raise c i s => exact h s hm
  | stop f => trivial

/-! ## Bytes as numbers -/

@[simp] theorem bytesValue_nil : bytesValue [] = 0 := rfl

theorem bytesValue_concat (bs : List Byte) (b : Byte) :
    bytesValue (bs ++ [b]) = bytesValue bs * 256 + b.toNat := by
  simp [bytesValue, List.foldl_append]

theorem bytesValue_append (as bs : List Byte) :
    bytesValue (as ++ bs) = bytesValue as * 256 ^ bs.length + bytesValue bs := by
  induction bs generalizing as with
  | nil => simp
  | cons b bs ih =>
    rw [show as ++ b :: bs = as ++ [b] ++ bs by simp, ih, show b :: bs = [b] ++ bs by rfl, ih [b],
      bytesValue_concat, List.length_append, Nat.pow_add, Nat.add_mul, Nat.mul_assoc, Nat.add_assoc]
    simp [bytesValue]

theorem bytesValue_zeros (n : Nat) : bytesValue (List.replicate n 0x00) = 0 := by
  induction n with
  | zero => rfl
  | succ n ih => rw [List.replicate_succ', bytesValue_concat, ih]; rfl

theorem bytesValue_ones (n : Nat) : bytesValue (List.replicate n 0xFF) + 1 = 256 ^ n := by
  induction n with
  | zero => rfl
  | succ n ih =>
    rw [List.replicate_succ', bytesValue_concat, Nat.pow_succ, ← ih]
    simp; omega

/-! ## The output stream -/

@[simp] theorem State.commit_eq (s : State) (b : Byte) : s.commit b = s.commitRun 1 b := rfl

/-- Committing the held byte and then the run commits the whole-byte tail (R44, R147, R148). -/
theorem State.commitTail_eq (s : State) :
    (s.commitHeld).commitRun s.commitHeld.runLen.toNat s.commitHeld.runPol.fillByte =
      { s with
        out := s.out ++ s.tailBytes
        outcnt := s.outcnt + BitVec.ofNat 32 s.tailBytes.length } := by
  cases h : s.heldV with
  | false => simp [State.commitHeld, State.tailBytes, State.commitRun, h]
  | true =>
    simp [State.commitHeld, State.tailBytes, State.commitRun, h, BitVec.ofNat_add,
      BitVec.add_comm s.runLen 1#32, BitVec.add_assoc]

/-- What the encode datapath may write, and how: OUT only at its end, OUTCNT with it, and the registers
of the emitter, the queue and the interval. -/
def EmitterFrame (s t : State) : Prop :=
  (∃ bs, t.out = s.out ++ bs ∧ t.outcnt = s.outcnt + BitVec.ofNat 32 bs.length) ∧
  t = { s with
    low := t.low, carry := t.carry, range := t.range, pcnt := t.pcnt, pbits := t.pbits,
    held := t.held, heldV := t.heldV, runLen := t.runLen, runPol := t.runPol, out := t.out,
    outcnt := t.outcnt }

theorem EmitterFrame.refl (s : State) : EmitterFrame s s := ⟨⟨[], by simp⟩, rfl⟩

theorem EmitterFrame.trans {s t u : State} (h : EmitterFrame s t) (h' : EmitterFrame t u) :
    EmitterFrame s u := by
  obtain ⟨⟨bs, ho, hc⟩, ht⟩ := h
  obtain ⟨⟨bs', ho', hc'⟩, hu⟩ := h'
  refine ⟨⟨bs ++ bs', ?_, ?_⟩, ?_⟩
  · rw [ho', ho, List.append_assoc]
  · rw [hc', hc, List.length_append, BitVec.ofNat_add, BitVec.add_assoc]
  · rw [ht] at hu; exact hu

/-! ## The byte emitter -/

/-- EMIT_CARRY where a held byte can take the carry (R146). -/
theorem emitCarry_held {s : State} (hv : s.heldV = true) (hf : s.held ≠ 0xFF) :
    emitCarry s = .ok { s with
      out := s.out ++ (s.held + 1) :: List.replicate s.runLen.toNat 0x00
      outcnt := s.outcnt + 1 + s.runLen
      runLen := 0, runPol := .allZeros, held := 0, heldV := false } := by
  have hc : ¬ (s.heldV = false ∨ s.held = 0xFF) := by
    rintro (h | h)
    · rw [hv] at h; cases h
    · exact hf h
  rw [emitCarry, if_neg hc]
  simp [State.commitRun, Polarity.fillByte]

/-- EMIT_CARRY where none can (R146). -/
theorem emitCarry_none {s : State} (h : s.heldV = false ∨ s.held = 0xFF) :
    emitCarry s = .raise .carryOverflowBeyondStream s.runLen s := by
  simp only [emitCarry]; rw [if_pos h]

theorem emitCarry_eq_ok {s t : State} (h : emitCarry s = .ok t) :
    s.heldV = true ∧ s.held ≠ 0xFF := by
  by_cases hc : s.heldV = false ∨ s.held = 0xFF
  · rw [emitCarry_none hc] at h; cases h
  · cases hv : s.heldV <;> simp_all

theorem emitCarry_eq_raise {s t : State} {c : FaultCode} {i : Word}
    (h : emitCarry s = .raise c i t) :
    c = .carryOverflowBeyondStream ∧ (s.heldV = false ∨ s.held = 0xFF) ∧ i = s.runLen ∧ t = s := by
  by_cases hc : s.heldV = false ∨ s.held = 0xFF
  · rw [emitCarry_none hc] at h; cases h; exact ⟨rfl, hc, rfl, rfl⟩
  · have hv : s.heldV = true := by cases h : s.heldV <;> simp_all
    rw [emitCarry_held hv fun h => hc (.inr h)] at h; cases h

theorem emitCarry_ne_stop (s : State) (f : Fault) : emitCarry s ≠ .stop f := by
  by_cases hc : s.heldV = false ∨ s.held = 0xFF
  · rw [emitCarry_none hc]; intro h; cases h
  · have hv : s.heldV = true := by cases h : s.heldV <;> simp_all
    rw [emitCarry_held hv fun h => hc (.inr h)]; intro h; cases h

theorem emitCarry_frame (s : State) : (emitCarry s).Ends (EmitterFrame s) := by
  by_cases hc : s.heldV = false ∨ s.held = 0xFF
  · rw [emitCarry_none hc]; exact EmitterFrame.refl s
  · have hv : s.heldV = true := by cases h : s.heldV <;> simp_all
    have hf : s.held ≠ 0xFF := fun h => hc (.inr h)
    rw [emitCarry_held hv hf]
    refine ⟨⟨(s.held + 1) :: List.replicate s.runLen.toNat 0x00, rfl, ?_⟩, rfl⟩
    simp [Nat.add_comm, BitVec.ofNat_add, BitVec.add_assoc]

/-- DEFER of a definite byte (R147). -/
theorem defer_definite {s : State} {b : Byte} (hb : b ≠ 0xFF) :
    defer b s = .ok { s with
      out := s.out ++ s.tailBytes
      outcnt := s.outcnt + BitVec.ofNat 32 s.tailBytes.length
      runLen := 0, held := b, heldV := true } := by
  simp only [defer, Config.fill, if_neg hb, State.commitTail_eq]

/-- DEFER of a fill byte (R147). -/
theorem defer_fill {s : State} (h : s.runLen ≠ 0xFFFFFFFF) :
    defer 0xFF s = .ok { s with
      runPol := if s.runLen = 0 then .allOnes else s.runPol
      runLen := s.runLen + 1 } := by
  rw [defer, if_pos (show (0xFF : Byte) = Config.fill from rfl),
    if_neg (show s.runLen ≠ Config.wordMax from h)]

/-- DEFER of a fill byte behind the longest run (R147). -/
theorem defer_overflow {s : State} (h : s.runLen = 0xFFFFFFFF) :
    defer 0xFF s = .raise .runLengthOverflow 0 s := by
  rw [defer, if_pos (show (0xFF : Byte) = Config.fill from rfl),
    if_pos (show s.runLen = Config.wordMax from h)]

theorem defer_frame (b : Byte) (s : State) : (defer b s).Ends (EmitterFrame s) := by
  by_cases hb : b = 0xFF
  · subst hb
    by_cases h : s.runLen = 0xFFFFFFFF
    · rw [defer_overflow h]; exact EmitterFrame.refl s
    · rw [defer_fill h]; exact ⟨⟨[], by simp⟩, rfl⟩
  · rw [defer_definite hb]; exact ⟨⟨s.tailBytes, rfl, rfl⟩, rfl⟩

/-- DEFER never raises but at the end of the run length. -/
theorem defer_eq_raise {s t : State} {b : Byte} {c : FaultCode} {i : Word}
    (h : defer b s = .raise c i t) :
    c = .runLengthOverflow ∧ s.runLen = 0xFFFFFFFF ∧ i = 0 ∧ t = s := by
  by_cases hb : b = 0xFF
  · subst hb
    by_cases hr : s.runLen = 0xFFFFFFFF
    · rw [defer_overflow hr] at h; cases h; exact ⟨rfl, hr, rfl, rfl⟩
    · rw [defer_fill hr] at h; cases h
  · rw [defer_definite hb] at h; cases h

theorem defer_ne_stop (b : Byte) (s : State) (f : Fault) : defer b s ≠ .stop f := by
  by_cases hb : b = 0xFF
  · subst hb
    by_cases hr : s.runLen = 0xFFFFFFFF
    · rw [defer_overflow hr]; intro h; cases h
    · rw [defer_fill hr]; intro h; cases h
  · rw [defer_definite hb]; intro h; cases h

theorem succ_runLen {r : Word} (h : r ≠ 0xFFFFFFFF) : (r + 1).toNat = r.toNat + 1 := by
  have : r.toNat ≠ 4294967295 := fun hc => h (BitVec.eq_of_toNat_eq hc)
  have := r.isLt
  rw [BitVec.toNat_add]
  simp; omega

/-- DEFER lengthens the run by at most one. -/
theorem defer_runLen {s t : State} {b : Byte} (h : defer b s = .ok t) :
    t.runLen.toNat ≤ s.runLen.toNat + 1 := by
  by_cases hb : b = 0xFF
  · subst hb
    by_cases hr : s.runLen = 0xFFFFFFFF
    · rw [defer_overflow hr] at h; cases h
    · rw [defer_fill hr] at h; cases h
      exact Nat.le_of_eq (succ_runLen hr)
  · rw [defer_definite hb] at h; cases h
    exact Nat.zero_le _

/-- Everything DEFER does when it ends (R147): it puts byte `b` behind the bytes of OUT and the tail, and
keeps I1 and I2 of R45. -/
theorem defer_spec {s t : State} {b : Byte} (h : defer b s = .ok t) (hr : s.runIsOnes) :
    t.out ++ t.tailBytes = s.out ++ s.tailBytes ++ [b] ∧ t.runIsOnes ∧
    (s.heldDefinite → t.heldDefinite) ∧
    (t.low = s.low ∧ t.carry = s.carry ∧ t.range = s.range ∧ t.pcnt = s.pcnt ∧ t.pbits = s.pbits) ∧
    (t.heldV = false ↔ (s.heldV = false ∧ b = 0xFF)) ∧
    t.runLen.toNat ≤ s.runLen.toNat + 1 := by
  by_cases hb : b = 0xFF
  · subst hb
    have hl : s.runLen ≠ 0xFFFFFFFF := by
      intro hc; rw [defer_overflow hc] at h; cases h
    rw [defer_fill hl] at h
    cases h
    have hs := succ_runLen hl
    refine ⟨?_, ?_, fun hd => hd, ⟨rfl, rfl, rfl, rfl, rfl⟩, by simp, Nat.le_of_eq hs⟩
    · simp only [State.tailBytes, hs]
      by_cases hz : s.runLen = 0
      · simp [hz, Polarity.fillByte]
      · have hp : 0 < s.runLen.toNat := by
          rcases Nat.eq_zero_or_pos s.runLen.toNat with h0 | h0
          · exact absurd (BitVec.eq_of_toNat_eq h0) hz
          · exact h0
        simp [hr hp, Polarity.fillByte, List.replicate_succ', List.append_assoc]
    · intro _
      by_cases hz : s.runLen = 0
      · simp [hz]
      · have hp : 0 < s.runLen.toNat := by
          rcases Nat.eq_zero_or_pos s.runLen.toNat with h0 | h0
          · exact absurd (BitVec.eq_of_toNat_eq h0) hz
          · exact h0
        simp [hr hp]
  · rw [defer_definite hb] at h
    cases h
    refine ⟨?_, ?_, fun _ _ => hb, ⟨rfl, rfl, rfl, rfl, rfl⟩,
      ⟨fun h => (nomatch h), fun h => absurd h.2 hb⟩, by simp⟩
    · simp [State.tailBytes]
    · intro hp; simp at hp

/-- Everything EMIT_CARRY does when it ends (R146): it adds one to the number that OUT and the tail
spell, and leaves nothing held and no run. -/
theorem emitCarry_spec {s t : State} (h : emitCarry s = .ok t) (hr : s.runIsOnes) :
    bytesValue (t.out ++ t.tailBytes) = bytesValue (s.out ++ s.tailBytes) + 1 ∧
    (t.out ++ t.tailBytes).length = (s.out ++ s.tailBytes).length ∧
    (t.heldV = false ∧ t.runLen = 0) ∧
    (t.low = s.low ∧ t.carry = s.carry ∧ t.range = s.range ∧ t.pcnt = s.pcnt ∧ t.pbits = s.pbits) := by
  obtain ⟨hv, hf⟩ := emitCarry_eq_ok h
  rw [emitCarry_held hv hf] at h
  cases h
  have hinc : (s.held + 1).toNat = s.held.toNat + 1 := by
    have : s.held.toNat ≠ 255 := fun hc => hf (BitVec.eq_of_toNat_eq hc)
    have := s.held.isLt
    rw [BitVec.toNat_add]; simp; omega
  have hfill : List.replicate s.runLen.toNat s.runPol.fillByte = List.replicate s.runLen.toNat 0xFF := by
    rcases Nat.eq_zero_or_pos s.runLen.toNat with h0 | h0
    · simp [h0]
    · rw [hr h0]; rfl
  have h1 : bytesValue [s.held + 1] = bytesValue [s.held] + 1 := by
    simp only [bytesValue, List.foldl_cons, List.foldl_nil, hinc]; omega
  refine ⟨?_, ?_, ⟨rfl, rfl⟩, ⟨rfl, rfl, rfl, rfl, rfl⟩⟩
  · have hones := bytesValue_ones s.runLen.toNat
    have ht : s.out ++ s.tailBytes = s.out ++ [s.held] ++ List.replicate s.runLen.toNat 0xFF := by
      simp [State.tailBytes, hv, hfill]
    have ht' : ∀ l : List Byte, s.out ++ (s.held + 1) :: l ++ [] = s.out ++ [s.held + 1] ++ l := by
      simp
    rw [ht]
    show bytesValue (s.out ++ (s.held + 1) :: List.replicate s.runLen.toNat 0x00 ++ []) = _
    rw [ht', bytesValue_append,
      bytesValue_append, bytesValue_append (s.out ++ [s.held]), bytesValue_append s.out [s.held],
      bytesValue_zeros, h1]
    simp only [List.length_replicate, List.length_cons, List.length_nil]
    rw [← Nat.add_assoc, Nat.add_mul _ 1, Nat.one_mul, ← hones, Nat.add_zero, Nat.add_assoc]
  · simp [State.tailBytes, hv]

end Sys2Proof.Machine
end

