-- ==== Sys2Proof/Laws/Decoder.lean ====
section
/-! SUPPORT. The laws of the decoder registers (R73, R151, R210, R211, R242, R243): reads inside a buffer
succeed, and what priming and renormalization do when every read succeeds. -/

namespace Sys2Proof.Machine

/-- Below ILEN, and ILEN inside IN, a read of the stream answers its byte (R73). -/
theorem inByte_ok {s : State} (h : s.ilen.toNat ≤ s.params.inSize) (i : Word) :
    inByte s i = .ok (s.streamByte i.toNat) := by
  unfold inByte State.streamByte
  by_cases hi : i < s.ilen
  · have hlt : i.toNat < s.ilen.toNat := hi
    rw [if_pos hi, if_pos hlt, memRead, if_pos (show i.toNat < bufferSize s.params .input from
      Nat.lt_of_lt_of_le hlt h)]
  · have hlt : ¬ i.toNat < s.ilen.toNat := hi
    rw [if_neg hi, if_neg hlt]

/-- Byte `i` of candidate `b`'s stream (R242). -/
def State.candidateByte (s : State) (tlen : Word) (b : Byte) (i : Word) : Byte :=
  if i < tlen then s.byteAt .input i.toNat else if i = tlen then b else Config.sentinel

/-- With TLEN inside IN, a read of a candidate's stream answers its byte (R242). -/
theorem inByteC_ok {s : State} {tlen : Word} (h : tlen.toNat ≤ s.params.inSize) (b : Byte) (i : Word) :
    inByteC s tlen b i = .ok (s.candidateByte tlen b i) := by
  unfold inByteC State.candidateByte
  by_cases hi : i < tlen
  · have hlt : i.toNat < tlen.toNat := hi
    rw [if_pos hi, if_pos hi, memRead, if_pos (show i.toNat < bufferSize s.params .input from
      Nat.lt_of_lt_of_le hlt h)]
  · rw [if_neg hi, if_neg hi]
    split <;> rfl

/-- One step and then `j` more, each stopping at `m`. -/
theorem min_step (i j m : Nat) : min (min (i + 1) m + j) m = min (i + (j + 1)) m := by omega

theorem nextIndex_toNat (i : Word) : (nextIndex i).toNat = min (i.toNat + 1) 4294967295 := by
  have := i.isLt
  unfold nextIndex Config.wordMax
  by_cases h : i = 0xFFFFFFFF
  · subst h; rfl
  · have : i.toNat ≠ 4294967295 := fun hc => h (BitVec.eq_of_toNat_eq hc)
    rw [if_neg h, BitVec.toNat_add]
    simp; omega

/-- CODE after `k` bytes read from index `i` on, the index stopping at 2^32 - 1 (R151). -/
def codeAfter (f : Nat → Byte) (i : Nat) (k : Nat) (code : Word) : Word :=
  (List.range k).foldl (fun c j => pushCode c (f (min (i + j) 4294967295))) code

theorem codeAfter_succ (f : Nat → Byte) (i k : Nat) (code : Word) (hi : i < 2 ^ 32) :
    codeAfter f i (k + 1) code =
      codeAfter f (min (i + 1) 4294967295) k (pushCode code (f i)) := by
  unfold codeAfter
  rw [List.range_succ_eq_map, List.foldl_cons, List.foldl_map, Nat.add_zero,
    Nat.min_eq_left (by omega : i ≤ 4294967295)]
  congr 1
  funext c j
  rw [min_step]

/-- No step of RENORM_D changes nothing. -/
theorem Dec.after_none (f : Nat → Byte) (d : Dec) :
    (⟨d.range <<< (8 * 0), codeAfter f d.ipos.toNat 0 d.code,
      BitVec.ofNat 32 (min (d.ipos.toNat + 0) 4294967295)⟩ : Dec) = d := by
  have := d.ipos.isLt
  have h1 : BitVec.ofNat 32 (min (d.ipos.toNat + 0) 4294967295) = d.ipos := by
    rw [Nat.add_zero, Nat.min_eq_left (by omega)]; simp
  rw [h1]
  simp [codeAfter]

/-- RENORM_D where every read succeeds and `k` steps are enough (R151): it takes the least number of steps
that brings RANGE to 2^24, each taking in one byte. -/
theorem Dec.renormSteps_spec {rd : Word → Except Fault Byte} {f : Nat → Byte}
    (hrd : ∀ i, rd i = .ok (f i.toNat)) (k : Nat) {d : Dec}
    (hk : 2 ^ 24 ≤ d.range.toNat * 2 ^ (8 * k)) :
    ∃ j, j ≤ k ∧ RenormCount d.range.toNat j ∧
      Dec.renormSteps rd k d = .ok
        { range := d.range <<< (8 * j)
          code := codeAfter f d.ipos.toNat j d.code
          ipos := BitVec.ofNat 32 (min (d.ipos.toNat + j) 4294967295) } := by
  induction k generalizing d with
  | zero =>
    exact ⟨0, Nat.le_refl _, ⟨by simpa using hk, fun j hj => absurd hj (by omega)⟩, by
      rw [Dec.after_none]; rfl⟩
  | succ k ih =>
    unfold Dec.renormSteps
    have htop : Config.top.toNat = 2 ^ 24 := rfl
    by_cases hr : d.range < Config.top
    · have hr' : d.range.toNat < 2 ^ 24 := by rw [← htop]; exact hr
      rw [if_pos hr, hrd]
      have hrs : (d.range <<< 8).toNat = d.range.toNat * 256 := by
        rw [BitVec.toNat_shiftLeft, Nat.shiftLeft_eq]; omega
      have e : ∀ j, d.range.toNat * 256 * 2 ^ (8 * j) = d.range.toNat * 2 ^ (8 * (j + 1)) := by
        intro j
        rw [show 8 * (j + 1) = 8 + 8 * j by omega, Nat.pow_add, Nat.mul_assoc]
      obtain ⟨j, hj, ⟨hcnt, hmin⟩, heq⟩ := ih (d := d.refill (f d.ipos.toNat)) (by
        show 2 ^ 24 ≤ (d.range <<< 8).toNat * _
        rw [hrs, e]; exact hk)
      refine ⟨j + 1, by omega, ⟨?_, ?_⟩, ?_⟩
      · rw [← e, ← hrs]; exact hcnt
      · intro i hi
        cases i with
        | zero => simpa using hr'
        | succ i => rw [← e, ← hrs]; exact hmin i (by omega)
      · dsimp only
        rw [heq, codeAfter_succ _ _ _ _ d.ipos.isLt]
        simp only [Dec.refill, nextIndex_toNat]
        rw [← BitVec.shiftLeft_add, show 8 + 8 * j = 8 * (j + 1) by omega,
          min_step]
    · rw [if_neg hr]
      have hr' : 2 ^ 24 ≤ d.range.toNat := by rw [← htop]; exact Nat.le_of_not_lt hr
      exact ⟨0, by omega, ⟨by simpa using hr', fun j hj => absurd hj (by omega)⟩, by rw [Dec.after_none]⟩

/-- Three steps are always enough for a width of at least 1 (R108, R150, R151). -/
theorem three_steps {w : Nat} (h : 1 ≤ w) : 2 ^ 24 ≤ w * 2 ^ (8 * 3) := by
  have : 1 * 2 ^ (8 * 3) ≤ w * 2 ^ (8 * 3) := Nat.mul_le_mul_right _ h
  simpa using this

/-- Priming where every read succeeds: four bytes, the first highest (R210, R243). -/
theorem Dec.prime_spec {rd : Word → Except Fault Byte} {f : Word → Byte} (hrd : ∀ i, rd i = .ok (f i)) :
    Dec.prime rd = .ok
      { range := 0xFFFFFFFF
        code := pushCode (pushCode (pushCode (pushCode 0 (f 0)) (f 1)) (f 2)) (f 3)
        ipos := 4 } := by
  simp [Dec.prime, Dec.primeSteps, hrd, Config.rangeInit]

theorem mul256_lt {x : Nat} (h : x < 16777216) : x * 256 < 4294967296 := by omega

/-- The renormalized width fits its register (R150, R151). -/
theorem renormCount_shift {w : Word} {j : Nat} (hj : j ≤ 3) (hc : RenormCount w.toNat j) :
    (w <<< (8 * j)).toNat = w.toNat * 2 ^ (8 * j) := by
  have hw := w.isLt
  rw [BitVec.toNat_shiftLeft, Nat.shiftLeft_eq]
  apply Nat.mod_eq_of_lt
  have h : j = 0 ∨ j = 1 ∨ j = 2 ∨ j = 3 := by omega
  rcases h with rfl | rfl | rfl | rfl
  · simpa using hw
  · have h0 : w.toNat * 2 ^ (8 * 0) * 256 < 4294967296 := mul256_lt (hc.2 0 Nat.one_pos)
    rw [Nat.mul_assoc] at h0
    exact h0
  · have h0 : w.toNat * 2 ^ (8 * 1) * 256 < 4294967296 := mul256_lt (hc.2 1 (Nat.lt_succ_self 1))
    rw [Nat.mul_assoc] at h0
    exact h0
  · have h0 : w.toNat * 2 ^ (8 * 2) * 256 < 4294967296 := mul256_lt (hc.2 2 (Nat.lt_succ_self 2))
    rw [Nat.mul_assoc] at h0
    exact h0

/-! ## The checks on operands -/

/-- What the length check lets pass (R210, R240). -/
theorem lengthBad_eq_false {s : State} {b : Buffer} {n : Word} :
    lengthBad s b n = false ↔ n.toNat ≤ bufferSize s.params b := by
  unfold lengthBad
  rw [decide_eq_false_iff_not, Nat.not_lt]

/-- What the check on a split point lets pass (R184, R212). -/
theorem not_splitBad {b r : Word} (h : splitBad b r = false) : 1 ≤ b.toNat ∧ b.toNat < r.toNat := by
  simp only [splitBad, Bool.or_eq_false_iff, beq_eq_false_iff_ne, decide_eq_false_iff_not] at h
  have : b.toNat ≠ 0 := fun hc => h.1 (BitVec.eq_of_toNat_eq hc)
  have h2 : ¬ r.toNat ≤ b.toNat := h.2
  omega

/-- What the interval check lets pass (R181, R211). -/
theorem not_intervalBad {u w r : Word} (h : intervalBad u w r = false) :
    1 ≤ w.toNat ∧ u.toNat + w.toNat ≤ r.toNat := by
  simp only [intervalBad, Bool.or_eq_false_iff, beq_eq_false_iff_ne, decide_eq_false_iff_not] at h
  have : w.toNat ≠ 0 := fun hc => h.1 (BitVec.eq_of_toNat_eq hc)
  omega

/-- The part of a split interval that a decision names is not empty and lies inside (R184, R212). -/
theorem split_fits (sym : Bool) {b r : Word} (h1 : 1 ≤ b.toNat) (h2 : b.toNat < r.toNat) :
    1 ≤ (splitWidth sym b r).toNat ∧
    (splitOffset sym b).toNat + (splitWidth sym b r).toNat ≤ r.toNat := by
  cases sym with
  | false => simp [splitWidth, splitOffset]; omega
  | true =>
    have : (r - b).toNat = r.toNat - b.toNat := BitVec.toNat_sub_of_le (Nat.le_of_lt h2)
    simp [splitWidth, splitOffset, this]; omega

/-- The decoder registers go where they belong when the decode ends. -/
@[simp] theorem State.withDecoder_ok (s : State) (d : Dec) :
    s.withDecoder (.ok d) = .ok (s.setDecoder d) := rfl

@[simp] theorem State.withDecoder_error (s : State) (f : Fault) :
    s.withDecoder (.error f) = .stop f := rfl

end Sys2Proof.Machine
end

