-- ==== Sys2Proof/Laws/Queue.lean ====
section
/-! SUPPORT. The laws of QPUSH and of renormalization (40_datapath.md R143, R150): the stream value they
keep, what they leave alone, and when they fault. -/

namespace Sys2Proof.Machine

/-! ## Arithmetic of one shift -/

theorem shift_split (low : Word) {n : Nat} (h1 : 1 ≤ n) (h8 : n ≤ 8) :
    low.toNat * 2 ^ n = low.toNat / 2 ^ (32 - n) * 2 ^ 32 + (low <<< n).toNat := by
  rw [BitVec.toNat_shiftLeft, Nat.shiftLeft_eq]
  have := low.isLt
  obtain rfl | rfl | rfl | rfl | rfl | rfl | rfl | rfl :
    n = 1 ∨ n = 2 ∨ n = 3 ∨ n = 4 ∨ n = 5 ∨ n = 6 ∨ n = 7 ∨ n = 8 := by omega
  all_goals omega

theorem top_lt (low : Word) {n : Nat} (h8 : n ≤ 32) : low.toNat / 2 ^ (32 - n) < 2 ^ n := by
  rw [Nat.div_lt_iff_lt_mul (Nat.two_pow_pos _), ← Nat.pow_add, show n + (32 - n) = 32 by omega]
  exact low.isLt

theorem carry_unit (a p c l : Nat) : (a + (p + c)) * 2 ^ 32 + l = (a + p) * 2 ^ 32 + (c * 2 ^ 32 + l) := by
  omega

theorem pb_lt (s : State) : s.pb < 2 ^ s.pcnt.toNat := Nat.mod_lt _ (Nat.two_pow_pos _)

/-! ## The carry into the queue -/

/-- The carry's unit is either added to the queued bits or passes on to the emitter (R143). -/
theorem queueCarry_spec (s : State) :
    (queueCarry s).1 < 2 ^ s.pcnt.toNat ∧
    (queueCarry s).1 + (queueCarry s).2.toNat * 2 ^ s.pcnt.toNat = s.pb + s.carry.toNat ∧
    ((queueCarry s).2 = true → s.carry = true) := by
  have hpb := pb_lt s
  unfold queueCarry
  cases hc : s.carry with
  | false => simp [hpb]
  | true =>
    by_cases hp : 0 < s.pcnt.toNat
    · by_cases hb : s.pb + 1 < 2 ^ s.pcnt.toNat
      · simp [hp, hb]
      · have : s.pb + 1 = 2 ^ s.pcnt.toNat := by omega
        simp [hp, this, Nat.two_pow_pos]
    · have h0 : s.pcnt.toNat = 0 := by omega
      have : s.pb = 0 := by rw [h0] at hpb; omega
      simp [h0, this]

theorem queueCarry_pbits (s : State) (p : Byte)
    (h : p.toNat % 2 ^ s.pcnt.toNat = s.pbits.toNat % 2 ^ s.pcnt.toNat) :
    queueCarry { s with pbits := p } = queueCarry s := by
  have : State.pb { s with pbits := p } = s.pb := h
  simp only [queueCarry, this]

/-! ## QPUSH -/

/-- The bits of the whole tail, in bytes and queued bits. -/
def State.bitCount (s : State) : Nat := 8 * (s.out ++ s.tailBytes).length + s.pcnt.toNat

theorem queueShift_frame (n pb : Nat) (s : State) : (queueShift n pb s).Ends (EmitterFrame s) := by
  unfold queueShift
  dsimp only
  split
  · refine (defer_frame _ _).mono fun t ht => EmitterFrame.trans ?_ ht
    exact ⟨⟨[], by simp⟩, rfl⟩
  · exact ⟨⟨[], by simp⟩, rfl⟩

theorem qpush_frame (n : Nat) (s : State) : (qpush n s).Ends (EmitterFrame s) := by
  unfold qpush
  dsimp only
  have h0 : EmitterFrame s { s with carry := false } := ⟨⟨[], by simp⟩, rfl⟩
  refine Micro.Ends.andThen (P := EmitterFrame s) ?_ ?_ fun _ h => h
  · split
    · exact (emitCarry_frame _).mono fun t ht => h0.trans ht
    · exact h0
  · intro t ht
    exact (queueShift_frame _ _ _).mono fun u hu => ht.trans hu

/-- Everything the second half of QPUSH does when it ends: `n` bits of LOW move behind the queue. -/
theorem queueShift_spec {n pb : Nat} {s t : State} (h1 : 1 ≤ n) (h8 : n ≤ 8)
    (hpb : pb < 2 ^ s.pcnt.toNat) (hr : s.runIsOnes) (h : queueShift n pb s = .ok t) :
    (t.streamBits * 2 ^ 32 + t.low.toNat =
      ((bytesValue (s.out ++ s.tailBytes) * 2 ^ s.pcnt.toNat + pb) * 2 ^ 32 + s.low.toNat) * 2 ^ n) ∧
    t.bitCount = s.bitCount + n ∧
    t.runIsOnes ∧ (s.heldDefinite → t.heldDefinite) ∧
    (t.low = s.low <<< n ∧ t.carry = s.carry ∧ t.range = s.range) ∧
    t.pbits.toNat < 2 ^ t.pcnt.toNat ∧
    t.runLen.toNat ≤ s.runLen.toNat + 1 ∧
    (t.pcnt.toNat = (s.pcnt.toNat + n) % 8) ∧
    (8 ≤ s.pcnt.toNat + n →
      (t.heldV = false ↔ (s.heldV = false ∧
        BitVec.ofNat 8 ((pb * 2 ^ n + s.low.toNat / 2 ^ (32 - n)) / 2 ^ (s.pcnt.toNat + n - 8)) = 0xFF))) ∧
    (s.pcnt.toNat + n < 8 → t.heldV = s.heldV ∧ t.runLen = s.runLen) := by
  have hsplit := shift_split s.low h1 h8
  have htop := top_lt s.low (show n ≤ 32 by omega)
  have hp8 := s.pcnt.isLt
  unfold queueShift at h
  dsimp only at h
  generalize s.low.toNat / 2 ^ (32 - n) = top at *
  have htb : pb * 2 ^ n + top < 2 ^ (s.pcnt.toNat + n) := by
    rw [Nat.pow_add]
    calc pb * 2 ^ n + top < pb * 2 ^ n + 2 ^ n := by omega
      _ = (pb + 1) * 2 ^ n := by rw [Nat.add_mul, Nat.one_mul]
      _ ≤ 2 ^ s.pcnt.toNat * 2 ^ n := Nat.mul_le_mul_right _ hpb
  have key : ∀ x : Nat, (x * 2 ^ (s.pcnt.toNat + n) + (pb * 2 ^ n + top)) * 2 ^ 32 + (s.low <<< n).toNat =
      ((x * 2 ^ s.pcnt.toNat + pb) * 2 ^ 32 + s.low.toNat) * 2 ^ n := by
    intro x
    rw [Nat.add_mul _ s.low.toNat, hsplit, Nat.pow_add]
    generalize 2 ^ s.pcnt.toNat = P
    generalize 2 ^ n = N
    generalize (s.low <<< n).toNat = l
    rw [show (x * P + pb) * 2 ^ 32 * N = (x * (P * N) + pb * N) * 2 ^ 32 by
      rw [Nat.mul_right_comm, Nat.add_mul, Nat.mul_assoc x]]
    rw [← Nat.add_assoc (x * (P * N)), Nat.add_mul _ top]
    omega
  generalize pb * 2 ^ n + top = tt at *
  by_cases hq : 8 ≤ s.pcnt.toNat + n
  · rw [if_pos hq] at h
    obtain ⟨hbytes, hrun, hheld, ⟨hlow, hcar, hrng, hpc, hpbits⟩, hhv, hlen⟩ :=
      defer_spec h (by exact hr)
    simp only at hbytes hlow hcar hrng hpc hpbits hhv hlen
    have e : s.pcnt.toNat + n = (s.pcnt.toNat + n - 8) + 8 := by omega
    generalize hm : s.pcnt.toNat + n - 8 = m at *
    have hm7 : m < 8 := by omega
    have hpc' : t.pcnt.toNat = m := by
      rw [hpc, BitVec.toNat_ofNat]; exact Nat.mod_eq_of_lt (by omega)
    have hmod : tt % 2 ^ m < 2 ^ m := Nat.mod_lt _ (Nat.two_pow_pos _)
    have hm256 : 2 ^ m ≤ 2 ^ 7 := Nat.pow_le_pow_right (by omega) (by omega)
    have hpb' : t.pbits.toNat = tt % 2 ^ m := by
      rw [hpbits, BitVec.toNat_ofNat]; exact Nat.mod_eq_of_lt (by omega)
    have hdiv : tt / 2 ^ m < 256 := by
      rw [Nat.div_lt_iff_lt_mul (Nat.two_pow_pos _)]
      rw [e, Nat.pow_add] at htb; omega
    have hb : (BitVec.ofNat 8 (tt / 2 ^ m)).toNat = tt / 2 ^ m := by
      rw [BitVec.toNat_ofNat]; exact Nat.mod_eq_of_lt hdiv
    refine ⟨?_, ?_, hrun, hheld, ⟨hlow, hcar, hrng⟩, ?_, hlen, ?_, fun _ => hhv, fun hlt => by omega⟩
    · rw [← key, State.streamBits, hbytes, State.pb, hpc', hpb', hlow]
      have hx : s.out ++ State.tailBytes { s with
          low := s.low <<< n, pbits := BitVec.ofNat 8 (tt % 2 ^ m), pcnt := BitVec.ofNat 3 m } =
          s.out ++ s.tailBytes := rfl
      rw [hx, bytesValue_concat, hb, Nat.mod_mod]
      have hdm := Nat.div_add_mod tt (2 ^ m)
      rw [e, Nat.pow_add]
      generalize bytesValue (s.out ++ s.tailBytes) = B
      have e2 : (B * 256 + tt / 2 ^ m) * 2 ^ m + tt % 2 ^ m = B * (2 ^ m * 2 ^ 8) + tt := by
        rw [Nat.add_mul, Nat.mul_comm (tt / 2 ^ m), Nat.add_assoc, hdm, Nat.mul_assoc,
          Nat.mul_comm 256]
        try rfl
      rw [e2]
    · simp only [State.bitCount, hbytes, hpc']
      simp only [List.length_append, List.length_cons, List.length_nil]
      have : (State.tailBytes { s with
          low := s.low <<< n, pbits := BitVec.ofNat 8 (tt % 2 ^ m), pcnt := BitVec.ofNat 3 m }).length =
          s.tailBytes.length := rfl
      omega
    · rw [hpc', hpb']; exact hmod
    · rw [hpc']; omega
  · rw [if_neg hq] at h
    cases h
    have hlt : s.pcnt.toNat + n < 8 := by omega
    have hpc' : (BitVec.ofNat 3 (s.pcnt.toNat + n)).toNat = s.pcnt.toNat + n := by
      rw [BitVec.toNat_ofNat]; exact Nat.mod_eq_of_lt (by omega)
    have h128 : 2 ^ (s.pcnt.toNat + n) ≤ 2 ^ 7 := Nat.pow_le_pow_right (by omega) (by omega)
    have htt : (BitVec.ofNat 8 tt).toNat = tt := by
      rw [BitVec.toNat_ofNat]; exact Nat.mod_eq_of_lt (by omega)
    refine ⟨?_, ?_, hr, fun hd => hd, ⟨rfl, rfl, rfl⟩, ?_, by simp, ?_, fun h => absurd h hq,
      fun _ => ⟨rfl, rfl⟩⟩
    · rw [← key]
      simp only [State.streamBits, State.pb, State.tailBytes, hpc', htt]
      rw [Nat.mod_eq_of_lt htb]
    · simp only [State.bitCount, State.tailBytes, hpc']; omega
    · simp only [hpc', htt]; exact htb
    · simp only [hpc']; omega

/-- Everything QPUSH(n) does when it ends (R143, R154). -/
theorem qpush_spec {n : Nat} {s t : State} (h1 : 1 ≤ n) (h8 : n ≤ 8) (hr : s.runIsOnes)
    (h : qpush n s = .ok t) :
    t.streamValue = s.streamValue * 2 ^ n ∧ t.bitCount = s.bitCount + n ∧
    t.runIsOnes ∧ (s.heldDefinite → t.heldDefinite) ∧
    (t.low = s.low <<< n ∧ t.carry = false ∧ t.range = s.range) ∧
    t.pbits.toNat < 2 ^ t.pcnt.toNat ∧
    t.runLen.toNat ≤ s.runLen.toNat + 1 ∧
    t.pcnt.toNat = (s.pcnt.toNat + n) % 8 := by
  obtain ⟨hlt, hsum, -⟩ := queueCarry_spec s
  unfold qpush at h
  dsimp only at h
  obtain ⟨m, hm, hq⟩ := Micro.andThen_eq_ok.1 h
  generalize (queueCarry s).1 = pb at *
  cases hc : (queueCarry s).2 with
  | false =>
    simp only [hc, Bool.false_eq_true, if_false] at hm
    cases hm
    obtain ⟨hv, hb, hrun, hheld, ⟨hlow, hcar, hrng⟩, hpb, hlen, hpc, -⟩ :=
      queueShift_spec (s := { s with carry := false }) h1 h8 hlt hr hq
    simp only at hv hlow hcar hrng hpc
    refine ⟨?_, hb, hrun, hheld, ⟨hlow, hcar, hrng⟩, hpb, hlen, hpc⟩
    simp only [hc, Bool.toNat_false, Nat.zero_mul, Nat.add_zero] at hsum
    have : t.lowf = t.low.toNat := by simp [State.lowf, hcar]
    rw [State.streamValue, this, hv, State.streamValue, State.streamBits, State.lowf, hsum,
      carry_unit]
    rfl
  | true =>
    simp only [hc, if_true] at hm
    obtain ⟨hB, hlenB, ⟨hm0, hm1⟩, ⟨hl, hcr, hrg, hpcn, hpbt⟩⟩ := emitCarry_spec hm (by exact hr)
    simp only at hB hlenB hl hcr hrg hpcn hpbt
    have hrm : m.runIsOnes := by intro h0; rw [hm1] at h0; cases h0
    obtain ⟨hv, hb, hrun, hheld, ⟨hlow, hcar, hrng⟩, hpb, hlen, hpc, -⟩ :=
      queueShift_spec h1 h8 (by rw [hpcn]; exact hlt) hrm hq
    have hmd : m.heldDefinite := by intro h0; rw [hm0] at h0; cases h0
    refine ⟨?_, ?_, hrun, fun _ => hheld hmd, ⟨by rw [hlow, hl], by rw [hcar, hcr], by rw [hrng, hrg]⟩,
      hpb, ?_, by rw [hpc, hpcn]⟩
    · simp only [hc, Bool.toNat_true, Nat.one_mul] at hsum
      have : t.lowf = t.low.toNat := by simp [State.lowf, hcar, hcr]
      rw [State.streamValue, this, hv, State.streamValue, State.streamBits, State.lowf, hB, hpcn, hl,
        Nat.add_mul _ 1, Nat.one_mul, Nat.add_assoc, Nat.add_comm _ pb, hsum, carry_unit]
      rfl
    · rw [hb]
      simp only [State.bitCount, hlenB, hpcn]
      rfl
    · rw [hm1] at hlen
      simp at hlen; omega

end Sys2Proof.Machine
end

