-- ==== Sys2Proof/Laws/Session.lean ====
section
/-! SUPPORT. QPUSH(8) and RENORM_E inside an encode session (10_state.md R45, 40_datapath.md R150): they
never meet a carry without a held byte, and keep I1 to I5. -/

namespace Sys2Proof.Machine

/-! ## What every use of the queue keeps -/

/-- I1, I2 and R34's bound on PBITS: they hold in every state, in a fault's half-done state too. -/
abbrev State.tailOk (s : State) : Prop :=
  s.heldDefinite ∧ s.runIsOnes ∧ s.pbits.toNat < 2 ^ s.pcnt.toNat

theorem emitCarry_tailOk {s : State} (hs : s.tailOk) : (emitCarry s).Ends State.tailOk := by
  by_cases hc : s.heldV = false ∨ s.held = 0xFF
  · rw [emitCarry_none hc]; exact hs
  · have hv : s.heldV = true := by cases h : s.heldV <;> simp_all
    rw [emitCarry_held hv fun h => hc (.inr h)]
    exact ⟨fun h => (nomatch h), fun h => (nomatch h), hs.2.2⟩

theorem defer_tailOk {s : State} (b : Byte) (hs : s.tailOk) : (defer b s).Ends State.tailOk := by
  cases h : defer b s with
  | ok t =>
    obtain ⟨-, hr, hd, ⟨-, -, -, hp, hb⟩, -⟩ := defer_spec h hs.2.1
    exact ⟨hd hs.1, hr, by rw [hp, hb]; exact hs.2.2⟩
  | raise c i t =>
    obtain ⟨-, -, -, rfl⟩ := defer_eq_raise h
    exact hs
  | stop f => trivial

theorem qpush_tailOk {s : State} {n : Nat} (h1 : 1 ≤ n) (h8 : n ≤ 8) (hs : s.tailOk) :
    (qpush n s).Ends State.tailOk := by
  have hlt := (queueCarry_spec s).1
  unfold qpush
  dsimp only
  refine Micro.Ends.andThen
    (P := fun m => m.tailOk ∧ (m.low = s.low ∧ m.pcnt = s.pcnt)) ?_ ?_ fun _ h => h.1
  · split
    · cases hm : emitCarry { s with carry := false } with
      | ok m =>
        have := emitCarry_tailOk (s := { s with carry := false }) hs
        rw [hm] at this
        obtain ⟨-, -, -, hl, -, -, hp, -⟩ := emitCarry_spec hm (by exact hs.2.1)
        exact ⟨this, hl, hp⟩
      | raise c i m =>
        obtain ⟨-, -, -, rfl⟩ := emitCarry_eq_raise hm
        exact ⟨hs, rfl, rfl⟩
      | stop f => trivial
    · exact ⟨hs, rfl, rfl⟩
  · rintro m ⟨hm, hl, hp⟩
    cases hq : queueShift n (queueCarry s).1 m with
    | ok t =>
      obtain ⟨-, -, hr, hd, -, hb, -⟩ :=
        queueShift_spec h1 h8 (by rw [hp]; exact hlt) hm.2.1 hq
      exact ⟨hd hm.1, hr, hb⟩
    | raise c i t =>
      unfold queueShift at hq
      dsimp only at hq
      split at hq
      · rename_i h8q
        obtain ⟨-, -, -, rfl⟩ := defer_eq_raise hq
        refine ⟨hm.1, hm.2.1, ?_⟩
        have h7 := m.pcnt.isLt
        generalize hj : m.pcnt.toNat + n - 8 = j
        have hj7 : j < 8 := by omega
        have hlt' := Nat.mod_lt (((queueCarry s).1 * 2 ^ n + m.low.toNat / 2 ^ (32 - n)))
          (Nat.two_pow_pos j)
        show (BitVec.ofNat 8 _).toNat < 2 ^ (BitVec.ofNat 3 _).toNat
        rw [BitVec.toNat_ofNat, BitVec.toNat_ofNat, Nat.mod_eq_of_lt (a := j) (by omega)]
        exact Nat.lt_of_le_of_lt (Nat.mod_le _ _) hlt'
      · cases hq
    | stop f => trivial

theorem renormESteps_tailOk (k : Nat) {s : State} (hs : s.tailOk) :
    (renormESteps k s).Ends State.tailOk := by
  induction k generalizing s with
  | zero => exact hs
  | succ k ih =>
    unfold renormESteps
    split
    · exact Micro.Ends.andThen (qpush_tailOk (by omega) (by omega) hs) (fun t ht => ih ht) fun _ h => h
    · exact hs

theorem renormESteps_frame (k : Nat) (s : State) : (renormESteps k s).Ends (EmitterFrame s) := by
  induction k generalizing s with
  | zero => exact EmitterFrame.refl s
  | succ k ih =>
    unfold renormESteps
    split
    · refine Micro.Ends.andThen (qpush_frame 8 s) (fun t ht => ?_) fun _ h => h
      have h1 : EmitterFrame t { t with range := t.range <<< 8 } := ⟨⟨[], by simp⟩, rfl⟩
      exact (ih _).mono fun u hu => ht.trans (h1.trans hu)
    · exact EmitterFrame.refl s

/-! ## The session's invariant inside the loop of RENORM_E -/

/-- I1 to I5 of R45, and a RANGE that is at least 1: what holds between the steps of RENORM_E. -/
abbrev State.loopInv (s : State) : Prop :=
  s.runIsOnes ∧ s.heldDefinite ∧ (s.heldV = false → s.lowf + s.range.toNat ≤ 2 ^ 32) ∧
  s.lowf + s.range.toNat < 2 ^ 33 ∧ (s.pcnt = 0 ∧ s.pbits = 0) ∧ 1 ≤ s.range.toNat

theorem range_shift {r : Word} (h : r.toNat < 2 ^ 24) : (r <<< 8).toNat = r.toNat * 256 := by
  rw [BitVec.toNat_shiftLeft, Nat.shiftLeft_eq]
  omega

theorem lowf_of_carry {s : State} (h : s.carry = false) : s.lowf = s.low.toNat := by
  simp [State.lowf, h]

theorem low_shift (low : Word) : (low <<< 8).toNat = low.toNat % 2 ^ 24 * 256 := by
  rw [BitVec.toNat_shiftLeft, Nat.shiftLeft_eq]
  omega

/-- An accumulator below 2^32 has no carry (R32). -/
theorem carry_of_lowf {s : State} (h : s.lowf < 2 ^ 32) : s.carry = false := by
  cases hc : s.carry with
  | false => rfl
  | true => rw [State.lowf, hc, Bool.toNat_true] at h; omega

/-- With an empty queue the carry goes straight to the emitter. -/
theorem queueCarry_empty {s : State} (h : s.pcnt = 0) : queueCarry s = (0, s.carry) := by
  have h0 : s.pcnt.toNat = 0 := by rw [h]; rfl
  have : s.pb = 0 := by have := pb_lt s; rw [h0] at this; omega
  simp [queueCarry, h0, this]

/-- With an empty queue and no carry, QPUSH(8) defers the top byte of LOW (R145). -/
theorem qpush_bypass {s : State} (hp : s.pcnt = 0) (hc : s.carry = false) :
    qpush 8 s = defer (BitVec.ofNat 8 (s.low.toNat / 2 ^ 24))
      { s with low := s.low <<< 8, carry := false, pbits := 0 } := by
  have hp0 : s.pcnt.toNat = 0 := by rw [hp]; rfl
  unfold qpush
  rw [queueCarry_empty hp, hc]
  unfold queueShift
  simp only [Bool.false_eq_true, if_false, Micro.ok_andThen, hp0, Nat.zero_mul, Nat.zero_add,
    Nat.sub_self, Nat.pow_zero, Nat.div_one, Nat.mod_one, Nat.le_refl, if_true]
  rw [hp]
  rfl

/-- A byte that is 0xFF as a number. -/
theorem ofNat_eq_fill {n : Nat} (h : n < 256) : BitVec.ofNat 8 n = 0xFF ↔ n = 255 := by
  constructor
  · intro he
    have := congrArg BitVec.toNat he
    rw [BitVec.toNat_ofNat, Nat.mod_eq_of_lt h] at this
    exact this
  · rintro rfl; rfl

theorem maxRun {r : Word} (h : r = 0xFFFFFFFF) : r.toNat = 2 ^ 32 - 1 := by subst h; rfl

/-- With an empty queue and no carry, a top byte of 0xFF lengthens the run (R145, R147). -/
theorem qpush_fill {s : State} (hp : s.pcnt = 0) (hc : s.carry = false) (hb : s.low.toNat / 2 ^ 24 = 255)
    (hr : s.runLen ≠ 0xFFFFFFFF) :
    qpush 8 s = .ok { s with
      low := s.low <<< 8, carry := false, pbits := 0
      runPol := if s.runLen = 0 then .allOnes else s.runPol
      runLen := s.runLen + 1 } := by
  rw [qpush_bypass hp hc, hb]
  exact defer_fill (s := { s with low := s.low <<< 8, carry := false, pbits := 0 }) hr

/-- As `qpush_fill`, at the greatest length: the raise, with QPUSH's own writes made (R147, R273). -/
theorem qpush_overflow {s : State} (hp : s.pcnt = 0) (hc : s.carry = false)
    (hb : s.low.toNat / 2 ^ 24 = 255) (hr : s.runLen = 0xFFFFFFFF) :
    qpush 8 s = .raise .runLengthOverflow 0 { s with low := s.low <<< 8, carry := false, pbits := 0 } := by
  rw [qpush_bypass hp hc, hb]
  exact defer_overflow (s := { s with low := s.low <<< 8, carry := false, pbits := 0 }) hr

theorem queueShift_runLen {n pb : Nat} {s t : State} (h : queueShift n pb s = .ok t) :
    t.runLen.toNat ≤ s.runLen.toNat + 1 := by
  unfold queueShift at h
  dsimp only at h
  split at h
  · have hd := defer_runLen h
    exact hd
  · cases h; exact Nat.le_succ _

/-- What QPUSH(8) on an empty queue makes of the run: one byte longer, for a top byte of 0xFF with no
carry, or a new one of at most one byte. -/
theorem qpush_run {s t : State} (hp : s.pcnt = 0) (h : qpush 8 s = .ok t) :
    t.runLen.toNat ≤ 1 ∨ (s.carry = false ∧ s.low.toNat / 2 ^ 24 = 255 ∧
      t.runLen.toNat = s.runLen.toNat + 1 ∧ t.low = s.low <<< 8 ∧ t.carry = false) := by
  have hlow := s.low.isLt
  cases hc : s.carry with
  | false =>
    by_cases hb : s.low.toNat / 2 ^ 24 = 255
    · by_cases hr : s.runLen = 0xFFFFFFFF
      · rw [qpush_overflow hp hc hb hr] at h; cases h
      · rw [qpush_fill hp hc hb hr] at h
        cases h
        exact .inr ⟨rfl, hb, succ_runLen hr, rfl, rfl⟩
    · left
      rw [qpush_bypass hp hc, defer_definite fun he => hb ((ofNat_eq_fill (by omega)).1 he)] at h
      cases h
      exact Nat.zero_le _
  | true =>
    left
    unfold qpush at h
    rw [queueCarry_empty hp, hc] at h
    dsimp only at h
    rw [if_pos rfl] at h
    by_cases hv : s.heldV = false ∨ s.held = 0xFF
    · rw [emitCarry_none (s := { s with carry := false }) hv] at h; cases h
    · have hv' : s.heldV = true := by cases hh : s.heldV <;> simp_all
      rw [emitCarry_held (s := { s with carry := false }) hv' fun he => hv (.inr he),
        Micro.ok_andThen] at h
      exact queueShift_runLen h

/-- One renormalization step of a session: it ends, and keeps the session's invariant, or it finds the
longest run. It never raises CarryOverflowBeyondStream. -/
theorem qpush_session {s : State} (hs : s.loopInv) (hr : s.range.toNat < 2 ^ 24) :
    (∃ t, qpush 8 s = .ok t ∧ State.loopInv { t with range := t.range <<< 8 }) ∨
    (s.runLen = 0xFFFFFFFF ∧ (s.carry = false ∧ s.low.toNat / 2 ^ 24 = 255) ∧
      ∃ t, qpush 8 s = .raise .runLengthOverflow 0 t) := by
  obtain ⟨hrun, hdef, hI3, hI4, ⟨hpc, hpb⟩, hr1⟩ := hs
  have hpc0 : s.pcnt.toNat = 0 := by rw [hpc]; rfl
  have hlow := s.low.isLt
  -- the state in which the byte is deferred
  have hcar : s.carry = true → s.heldV = true := by
    intro hc
    cases hv : s.heldV with
    | true => rfl
    | false =>
      have := hI3 hv
      simp [State.lowf, hc] at this
      omega
  have hq : ∃ m, qpush 8 s = queueShift 8 0 m ∧ (s.carry = true → m.heldV = false ∧ m.runLen = 0) ∧
      (s.carry = false → m.heldV = s.heldV ∧ m.runLen = s.runLen) ∧
      (m.low = s.low ∧ m.carry = false ∧ m.range = s.range ∧ m.pcnt = s.pcnt) ∧
      m.runIsOnes ∧ m.heldDefinite := by
    unfold qpush
    rw [queueCarry_empty hpc]
    cases hc : s.carry with
    | false =>
      exact ⟨{ s with carry := false }, rfl, fun h => (nomatch h), fun _ => ⟨rfl, rfl⟩,
        ⟨rfl, rfl, rfl, rfl⟩, hrun, hdef⟩
    | true =>
      have hv := hcar hc
      dsimp only
      rw [if_pos rfl, emitCarry_held (s := { s with carry := false }) hv (hdef hv)]
      exact ⟨_, rfl, fun _ => ⟨rfl, rfl⟩, fun h => (nomatch h), ⟨rfl, rfl, rfl, rfl⟩,
        fun h => (nomatch h), fun h => (nomatch h)⟩
  obtain ⟨m, hqm, hm1, hm0, ⟨hml, hmc, hmr, hmp⟩, hmrun, hmdef⟩ := hq
  rw [hqm]
  cases hsh : queueShift 8 0 m with
  | ok t =>
    left
    refine ⟨t, rfl, ?_⟩
    have hmp0 : m.pcnt.toNat = 0 := by rw [hmp, hpc0]
    obtain ⟨-, -, htrun, htdef, ⟨htl, htc, htr⟩, htb, -, htp, hhv, -⟩ :=
      queueShift_spec (by omega) (by omega) (by rw [hmp0]; omega) hmrun hsh
    have htp0 : t.pcnt.toNat = 0 := by rw [htp, hmp0]
    have hrs := range_shift hr
    have hlt := low_shift s.low
    have hlf : State.lowf { t with range := t.range <<< 8 } = s.low.toNat % 2 ^ 24 * 256 := by
      simp only [State.lowf, htc, hmc, htl, hml, hlt]; simp
    have hrf : (t.range <<< 8).toNat = s.range.toNat * 256 := by rw [htr, hmr, hrs]
    refine ⟨htrun, htdef hmdef, ?_, ?_, ⟨?_, ?_⟩, ?_⟩
    · intro hv
      rw [hlf, hrf]
      have hv' := (hhv (by omega)).1 hv
      obtain ⟨hmv, hff⟩ := hv'
      have htop : s.low.toNat / 2 ^ 24 = 255 := by
        have := congrArg BitVec.toNat hff
        rw [hmp0, hml] at this
        simp only [BitVec.toNat_ofNat, Nat.zero_mul, Nat.zero_add] at this
        have h1 : (0xFF : Byte).toNat = 255 := rfl
        rw [h1] at this
        omega
      cases hc : s.carry with
      | false =>
        have := hI3 ((hm0 hc).1 ▸ hmv)
        simp [State.lowf, hc] at this
        omega
      | true =>
        simp [State.lowf, hc] at hI4
        omega
    · rw [hlf, hrf]; omega
    · exact BitVec.eq_of_toNat_eq htp0
    · apply BitVec.eq_of_toNat_eq
      have : t.pbits.toNat < 2 ^ t.pcnt.toNat := htb
      rw [htp0] at this
      show t.pbits.toNat = 0
      omega
    · rw [hrf]; omega
  | raise c i t =>
    right
    have hraise := hqm.trans hsh
    unfold queueShift at hsh
    dsimp only at hsh
    rw [if_pos (by omega)] at hsh
    obtain ⟨rfl, hmx, rfl, rfl⟩ := defer_eq_raise hsh
    cases hc : s.carry with
    | false =>
      refine ⟨by rw [← (hm0 hc).2]; exact hmx, ⟨rfl, ?_⟩, _, rfl⟩
      refine Decidable.byContradiction fun hb => ?_
      rw [qpush_bypass hpc hc, defer_definite fun he => hb ((ofNat_eq_fill (by omega)).1 he)] at hraise
      cases hraise
    | true => have h0 := (hm1 hc).2; rw [h0] at hmx; cases hmx
  | stop f =>
    exfalso
    unfold queueShift at hsh
    dsimp only at hsh
    rw [if_pos (by omega)] at hsh
    exact defer_ne_stop _ _ _ hsh

/-- Looking one step back: the run overflows one step later, counted from before a QPUSH. -/
theorem runOverflowsAt_succ {s t : State} {j : Nat}
    (hq : t.runLen.toNat ≤ 1 ∨ (s.carry = false ∧ s.low.toNat / 2 ^ 24 = 255 ∧
      t.runLen.toNat = s.runLen.toNat + 1 ∧ t.low = s.low <<< 8 ∧ t.carry = false))
    (h1 : s.range.toNat * 2 ^ (8 * (j + 1)) < 2 ^ 24)
    (h3 : (t.lowf + (0 : Word).toNat) / 2 ^ (24 - 8 * j) = 2 ^ (8 * (j + 1)) - 1)
    (h4 : t.runLen.toNat + j + 1 = 2 ^ 32) (hr1 : 1 ≤ s.range.toNat) :
    s.runOverflowsAt 0 s.range (j + 1) := by
  have hj : j ≤ 1 := by
    refine Nat.le_of_not_lt fun hj => ?_
    have : 2 ^ 24 ≤ 2 ^ (8 * (j + 1)) := Nat.pow_le_pow_right (by omega) (by omega)
    have := Nat.mul_le_mul hr1 this
    omega
  have hlow := s.low.isLt
  rcases hq with hq | ⟨hc, hb, hrun, hl, htc⟩
  · omega
  · have hsl := lowf_of_carry hc
    have htl : t.lowf = s.low.toNat % 2 ^ 24 * 256 := by rw [lowf_of_carry htc, hl, low_shift]
    have h0 : (0 : Word).toNat = 0 := rfl
    rw [htl, h0] at h3
    refine ⟨h1, by rw [hsl, h0]; omega, ?_, by omega⟩
    rw [hsl, h0]
    have : j = 0 ∨ j = 1 := by omega
    rcases this with rfl | rfl
    · simp at h3 ⊢; omega
    · simp at h3 ⊢; omega

/-- RENORM_E of a session, with `k` steps allowed and enough of them: it takes the least number of steps
that brings RANGE to 2^24, keeps the session's invariant and shifts the stream value by as many bytes; or
the run overflows at one of them. -/
theorem renormESteps_session (k : Nat) {s : State} (hs : s.loopInv)
    (hk : 2 ^ 24 ≤ s.range.toNat * 2 ^ (8 * k)) :
    (∃ t j, renormESteps k s = .ok t ∧ j ≤ k ∧ RenormCount s.range.toNat j ∧
      t.range.toNat = s.range.toNat * 2 ^ (8 * j) ∧
      t.streamValue = s.streamValue * 2 ^ (8 * j) ∧ t.bitCount = s.bitCount + 8 * j ∧
      t.loopInv ∧ t.runLen.toNat ≤ s.runLen.toNat + j) ∨
    (∃ j, j < k ∧ s.runOverflowsAt 0 s.range j ∧
      ∃ t, renormESteps k s = .raise .runLengthOverflow 0 t) := by
  induction k generalizing s with
  | zero =>
    left
    exact ⟨s, 0, rfl, Nat.le_refl _, ⟨by simpa using hk, fun j hj => absurd hj (by omega)⟩, by simp,
      by simp, by simp, hs, by simp⟩
  | succ k ih =>
    unfold renormESteps
    have htop : Config.top.toNat = 2 ^ 24 := rfl
    by_cases hr : s.range < Config.top
    · rw [if_pos hr]
      have hr' : s.range.toNat < 2 ^ 24 := by rw [← htop]; exact hr
      rcases qpush_session hs hr' with ⟨t, ht, hinv⟩ | ⟨hmx, ⟨hc, hb⟩, t, ht⟩
      · rw [ht, Micro.ok_andThen]
        obtain ⟨hval, hbits, hrun, -, ⟨hl, hc, hrg⟩, -, hlen, -⟩ :=
          qpush_spec (by omega) (by omega) hs.1 ht
        have hrs : (t.range <<< 8).toNat = s.range.toNat * 256 := by rw [hrg, range_shift hr']
        have e : ∀ j, s.range.toNat * 256 * 2 ^ (8 * j) = s.range.toNat * 2 ^ (8 * (j + 1)) := by
          intro j
          rw [show 8 * (j + 1) = 8 + 8 * j by omega, Nat.pow_add, Nat.mul_assoc]
        have hk' : 2 ^ 24 ≤ (t.range <<< 8).toNat * 2 ^ (8 * k) := by rw [hrs, e]; exact hk
        rcases ih hinv hk' with ⟨u, j, hu, hj, ⟨hcnt, hmin⟩, hur, huv, hub, hui, hul⟩ | ⟨j, hj, hover, u, hu⟩
        · left
          refine ⟨u, j + 1, hu, by omega, ⟨?_, ?_⟩, ?_, ?_, ?_, hui, ?_⟩
          · rw [← e, ← hrs]; exact hcnt
          · intro i hi
            cases i with
            | zero => simpa using hr'
            | succ i => rw [← e, ← hrs]; exact hmin i (by omega)
          · rw [hur]; show (t.range <<< 8).toNat * _ = _; rw [hrs, e]
          · rw [huv]
            show t.streamValue * 2 ^ (8 * j) = _
            rw [hval, show 8 * (j + 1) = 8 + 8 * j by omega, Nat.pow_add, Nat.mul_assoc]
          · rw [hub]; show t.bitCount + _ = _; rw [hbits]; omega
          · have : u.runLen.toNat ≤ t.runLen.toNat + j := hul
            omega
        · right
          refine ⟨j + 1, by omega, ?_, u, hu⟩
          exact runOverflowsAt_succ (qpush_run hs.2.2.2.2.1.1 ht) (e j ▸ hrs ▸ hover.1)
            hover.2.2.1 hover.2.2.2 hs.2.2.2.2.2
      · right
        rw [ht]
        have := maxRun hmx
        have := s.low.isLt
        refine ⟨0, by omega, ⟨by simpa using hr', ?_, ?_, by omega⟩, t, rfl⟩
        · simp [State.lowf, hc]; omega
        · simp [State.lowf, hc]; omega
    · rw [if_neg hr]
      left
      have hr' : 2 ^ 24 ≤ s.range.toNat := by
        rw [← htop]; exact Nat.le_of_not_lt hr
      exact ⟨s, 0, rfl, by omega, ⟨by simpa using hr', fun j hj => absurd hj (by omega)⟩, by simp,
        by simp, by simp, hs, by simp⟩

end Sys2Proof.Machine
end

