-- ==== Sys2Proof/Laws/Encode.lean ====
section
/-! SUPPORT. The laws of the encode commands' bodies (41_encode.md R181, R185, R186): what they raise, what
they leave alone, and what they do in an open session. -/

namespace Sys2Proof.Machine

/-! ## What the encode datapath can raise -/

/-- Every raise of a piece of pseudocode has a code in `Q`, and it never stops. -/
def Micro.Raises (Q : FaultCode → Prop) : Micro → Prop
  | .ok _ => True
  | .raise c _ _ => Q c
  | .stop _ => False

theorem Micro.Raises.andThen {Q : FaultCode → Prop} {m : Micro} {k : State → Micro}
    (hm : m.Raises Q) (hk : ∀ s, (k s).Raises Q) : (m.andThen k).Raises Q := by
  cases m with
  | ok s => exact hk s
  | raise c i s => exact hm
  | stop f => exact hm

/-- The two faults of the micro-operations (R273). -/
def microFault (c : FaultCode) : Prop := c = .carryOverflowBeyondStream ∨ c = .runLengthOverflow

theorem emitCarry_raises (s : State) : (emitCarry s).Raises microFault := by
  cases h : emitCarry s with
  | ok t => trivial
  | raise c i t => exact .inl (emitCarry_eq_raise h).1
  | stop f => exact absurd h (emitCarry_ne_stop s f)

theorem defer_raises (b : Byte) (s : State) : (defer b s).Raises microFault := by
  cases h : defer b s with
  | ok t => trivial
  | raise c i t => exact .inr (defer_eq_raise h).1
  | stop f => exact absurd h (defer_ne_stop b s f)

theorem qpush_raises (n : Nat) (s : State) : (qpush n s).Raises microFault := by
  unfold qpush
  dsimp only
  refine Micro.Raises.andThen ?_ fun t => ?_
  · split
    · exact emitCarry_raises _
    · trivial
  · unfold queueShift
    dsimp only
    split
    · exact defer_raises _ _
    · trivial

theorem qpushBytes_raises (k : Nat) (s : State) : (qpushBytes k s).Raises microFault := by
  induction k generalizing s with
  | zero => trivial
  | succ k ih => exact Micro.Raises.andThen (qpush_raises 8 s) ih

theorem renormESteps_raises (k : Nat) (s : State) : (renormESteps k s).Raises microFault := by
  induction k generalizing s with
  | zero => trivial
  | succ k ih =>
    unfold renormESteps
    split
    · exact Micro.Raises.andThen (qpush_raises 8 s) fun t => ih _
    · trivial

theorem flushBits_raises (k : Nat) (s : State) : (flushBits k s).Raises microFault := by
  unfold flushBits
  refine Micro.Raises.andThen (qpushBytes_raises _ s) fun t => ?_
  split
  · exact qpush_raises _ t
  · split
    · exact emitCarry_raises _
    · trivial

theorem flushPad_raises (s : State) : (flushPad s).Raises microFault := by
  unfold flushPad
  split
  · exact defer_raises _ _
  · trivial

theorem flushFrom_raises (c : Bool) (low : Word) (s : State) : (flushFrom c low s).Raises microFault := by
  unfold flushFrom
  exact Micro.Raises.andThen (flushBits_raises _ _) fun t =>
    Micro.Raises.andThen (flushPad_raises t) fun u => trivial

/-! ## What the encode datapath leaves alone -/

theorem advanceE_frame (u w : Word) (s : State) : (advanceE u w s).Ends (EmitterFrame s) := by
  unfold advanceE
  split
  · exact EmitterFrame.refl s
  · exact (renormESteps_frame 3 _).mono fun t ht => EmitterFrame.trans ⟨⟨[], by simp⟩, rfl⟩ ht

theorem qpushBytes_frame (k : Nat) (s : State) : (qpushBytes k s).Ends (EmitterFrame s) := by
  induction k generalizing s with
  | zero => exact EmitterFrame.refl s
  | succ k ih =>
    exact Micro.Ends.andThen (qpush_frame 8 s) (fun t ht => (ih t).mono fun u hu => ht.trans hu)
      fun _ h => h

theorem flushBits_frame (k : Nat) (s : State) : (flushBits k s).Ends (EmitterFrame s) := by
  unfold flushBits
  refine Micro.Ends.andThen (qpushBytes_frame _ s) (fun t ht => ?_) fun _ h => h
  split
  · exact (qpush_frame _ t).mono fun u hu => ht.trans hu
  · split
    · have h1 : EmitterFrame t { t with carry := false } := ⟨⟨[], by simp⟩, rfl⟩
      exact (emitCarry_frame _).mono fun u hu => ht.trans (h1.trans hu)
    · exact ht

theorem flushPad_frame (s : State) : (flushPad s).Ends (EmitterFrame s) := by
  unfold flushPad
  split
  · exact (defer_frame _ _).mono fun t ht => EmitterFrame.trans ⟨⟨[], by simp⟩, rfl⟩ ht
  · exact EmitterFrame.refl s

theorem finalize_eq (s : State) : finalize s = { s with
    out := s.out ++ s.tailBytes
    outcnt := s.outcnt + BitVec.ofNat 32 s.tailBytes.length
    runLen := 0, held := 0, heldV := false } := by
  unfold finalize
  dsimp only
  rw [State.commitTail_eq]

theorem finalize_frame (s : State) : EmitterFrame s (finalize s) := by
  rw [finalize_eq]
  exact ⟨⟨s.tailBytes, rfl, rfl⟩, rfl⟩

/-- E.FLUSH writes the registers of the emitter, the queue and the interval, and MODE (R185). -/
def FlushFrame (s t : State) : Prop := EmitterFrame { s with mode := t.mode } t

theorem FlushFrame.of_emitter {s t : State} (h : EmitterFrame s t) : FlushFrame s t := by
  obtain ⟨hb, ht⟩ := h
  refine ⟨hb, ?_⟩
  rw [ht]

theorem FlushFrame.finish {s t : State} (h : EmitterFrame s t) (low : Word) (m : Mode) :
    FlushFrame s { t with low := low, mode := m } := by
  obtain ⟨hb, ht⟩ := h
  refine ⟨hb, ?_⟩
  conv => lhs; rw [ht]

theorem flushTail_frame (c : Bool) (low : Word) (s : State) :
    ((flushBits (significantBits low) { s with carry := c, low := low }).andThen flushPad).Ends
      (EmitterFrame s) := by
  have h0 : EmitterFrame s { s with carry := c, low := low } := ⟨⟨[], by simp⟩, rfl⟩
  refine Micro.Ends.andThen ((flushBits_frame _ _).mono fun t ht => h0.trans ht) (fun t ht => ?_)
    fun _ h => h
  exact (flushPad_frame t).mono fun u hu => ht.trans hu

theorem flushFrom_eq (c : Bool) (low : Word) (s : State) : flushFrom c low s =
    ((flushBits (significantBits low) { s with carry := c, low := low }).andThen flushPad).andThen
      fun t => .ok { finalize t with low := 0, mode := .fin } := by
  rw [Micro.andThen_assoc]; rfl

theorem flushFrom_frame (c : Bool) (low : Word) (s : State) :
    (flushFrom c low s).Ends (FlushFrame s) := by
  rw [flushFrom_eq]
  exact Micro.Ends.andThen (flushTail_frame c low s)
    (fun t ht => FlushFrame.finish (ht.trans (finalize_frame t)) _ _) fun _ => FlushFrame.of_emitter

/-- A raise inside E.FLUSH comes before the write of MODE (R185, R273). -/
theorem flushFrom_raise_frame {c : Bool} {low : Word} {s t : State} {f : FaultCode} {i : Word}
    (h : flushFrom c low s = .raise f i t) : EmitterFrame s t := by
  rw [flushFrom_eq] at h
  have hf := flushTail_frame c low s
  revert h hf
  generalize (flushBits (significantBits low) { s with carry := c, low := low }).andThen flushPad = m
  intro h hf
  cases m with
  | ok u => cases h
  | raise f' i' u => cases h; exact hf
  | stop f' => cases h

/-! ## What holds in every state -/

theorem advanceE_tailOk (u w : Word) {s : State} (hs : s.tailOk) :
    (advanceE u w s).Ends State.tailOk := by
  unfold advanceE
  split
  · exact hs
  · exact renormESteps_tailOk 3 hs

theorem qpushBytes_tailOk (k : Nat) {s : State} (hs : s.tailOk) :
    (qpushBytes k s).Ends State.tailOk := by
  induction k generalizing s with
  | zero => exact hs
  | succ k ih =>
    exact Micro.Ends.andThen (qpush_tailOk (by omega) (by omega) hs) (fun t ht => ih ht) fun _ h => h

theorem flushFrom_tailOk (c : Bool) (low : Word) {s : State} (hs : s.tailOk) :
    (flushFrom c low s).Ends State.tailOk := by
  unfold flushFrom flushBits
  generalize significantBits low = k
  refine Micro.Ends.andThen (P := State.tailOk) ?_ (fun t ht => ?_) fun _ h => h
  · refine Micro.Ends.andThen (qpushBytes_tailOk _ (s := { s with carry := c, low := low }) hs)
      (fun t ht => ?_) fun _ h => h
    split
    · exact qpush_tailOk (by omega) (by omega) ht
    · split
      · exact emitCarry_tailOk (s := { t with carry := false }) ht
      · exact ht
  · refine Micro.Ends.andThen (P := State.tailOk) ?_ (fun u hu => ?_) fun _ h => h
    · unfold flushPad
      split
      · exact defer_tailOk _ (s := { t with pcnt := 0, pbits := 0 }) ⟨ht.1, ht.2.1, Nat.one_pos⟩
      · exact ht
    · rw [finalize_eq]
      exact ⟨fun h => (nomatch h), fun h => (nomatch h), hu.2.2⟩

theorem defer_range (b : Byte) (s : State) : (defer b s).Ends fun t => t.range = s.range := by
  by_cases hb : b = 0xFF
  · subst hb
    by_cases h : s.runLen = 0xFFFFFFFF
    · rw [defer_overflow h]; rfl
    · rw [defer_fill h]; rfl
  · rw [defer_definite hb]; rfl

theorem emitCarry_range (s : State) : (emitCarry s).Ends fun t => t.range = s.range := by
  by_cases hc : s.heldV = false ∨ s.held = 0xFF
  · rw [emitCarry_none hc]; rfl
  · have hv : s.heldV = true := by cases h : s.heldV <;> simp_all
    rw [emitCarry_held hv fun h => hc (.inr h)]; rfl

/-- QPUSH leaves RANGE alone, a raise included (R143). -/
theorem qpush_range (n : Nat) (s : State) : (qpush n s).Ends fun t => t.range = s.range := by
  unfold qpush
  dsimp only
  refine Micro.Ends.andThen (P := fun t => t.range = s.range) ?_ (fun t ht => ?_) fun _ h => h
  · split
    · exact emitCarry_range _
    · rfl
  · unfold queueShift
    dsimp only
    split
    · exact (defer_range _ _).mono fun u hu => hu.trans ht
    · exact ht

theorem qpushBytes_range (k : Nat) (s : State) : (qpushBytes k s).Ends fun t => t.range = s.range := by
  induction k generalizing s with
  | zero => exact rfl
  | succ k ih =>
    exact Micro.Ends.andThen (qpush_range 8 s) (fun t ht => (ih t).mono fun u hu => hu.trans ht)
      fun _ h => h

/-- E.FLUSH leaves RANGE alone (R185). -/
theorem flushFrom_range (c : Bool) (low : Word) (s : State) :
    (flushFrom c low s).Ends fun t => t.range = s.range := by
  unfold flushFrom flushBits flushPad
  generalize significantBits low = k
  refine Micro.Ends.andThen (P := fun t => t.range = s.range) ?_ (fun t ht => ?_) fun _ h => h
  · refine Micro.Ends.andThen (qpushBytes_range _ { s with carry := c, low := low })
      (fun t ht => ?_) fun _ h => h
    split
    · exact (qpush_range _ t).mono fun u hu => hu.trans ht
    · split
      · exact (emitCarry_range _).mono fun u hu => hu.trans ht
      · exact ht
  · refine Micro.Ends.andThen (P := fun t => t.range = s.range) ?_ (fun u hu => ?_) fun _ h => h
    · split
      · exact (defer_range _ _).mono fun u hu => hu.trans ht
      · exact ht
    · rw [finalize_eq]
      exact hu

/-- RENORM_E from a width of at least 1 leaves RANGE at least 2^24 when it ends (R150, R183). -/
theorem renormESteps_range (k : Nat) {s t : State} (h : renormESteps k s = .ok t)
    (hk : 2 ^ 24 ≤ s.range.toNat * 2 ^ (8 * k)) : 2 ^ 24 ≤ t.range.toNat := by
  induction k generalizing s with
  | zero => cases h; simpa using hk
  | succ k ih =>
    have htop : Config.top.toNat = 2 ^ 24 := rfl
    unfold renormESteps at h
    by_cases hr : s.range < Config.top
    · rw [if_pos hr] at h
      have hr' : s.range.toNat < 2 ^ 24 := by rw [← htop]; exact hr
      obtain ⟨m, hm, h⟩ := Micro.andThen_eq_ok.1 h
      have hf := qpush_range 8 s
      rw [hm] at hf
      have hf : m.range = s.range := hf
      refine ih h ?_
      show 2 ^ 24 ≤ (m.range <<< 8).toNat * _
      rw [hf, range_shift hr', Nat.mul_assoc, show 256 = 2 ^ 8 from rfl, ← Nat.pow_add,
        show 8 + 8 * k = 8 * (k + 1) by omega]
      exact hk
    · rw [if_neg hr] at h
      cases h
      rw [← htop]; exact Nat.le_of_not_lt hr

/-! ## E.ADV-body in an open session -/

/-- The sum of E.ADV-body: LOWF grows by U, when no second carry arises (R181). -/
theorem lowf_add {s : State} {u : Word} (h : accumulatorOverflow s u = false) :
    State.lowf { s with carry := s.carry || carryOut s.low u, low := s.low + u } =
      s.lowf + u.toNat := by
  have h1 := s.low.isLt
  have h2 := u.isLt
  have hsum : (s.low + u).toNat = (s.low.toNat + u.toNat) % 2 ^ 32 := BitVec.toNat_add ..
  have hcar : (carryOut s.low u) = decide (2 ^ 32 ≤ s.low.toNat + u.toNat) := rfl
  unfold accumulatorOverflow at h
  show (s.carry || carryOut s.low u).toNat * 2 ^ 32 + (s.low + u).toNat =
    s.carry.toNat * 2 ^ 32 + s.low.toNat + u.toNat
  rw [hsum]
  by_cases hc : 2 ^ 32 ≤ s.low.toNat + u.toNat
  · rw [decide_eq_true hc] at hcar
    rw [hcar, Bool.and_true] at h
    rw [hcar, h]
    simp only [Bool.or_true, Bool.toNat_true, Bool.toNat_false]
    omega
  · rw [decide_eq_false hc] at hcar
    rw [hcar, Bool.or_false]
    omega

/-- Inside the interval of an open session no second carry arises (R181, I4 of R45). -/
theorem no_accumulatorOverflow {s : State} {u w : Word} (h4 : s.lowf + s.range.toNat < 2 ^ 33)
    (hw : 1 ≤ w.toNat) (hu : u.toNat + w.toNat ≤ s.range.toNat) : accumulatorOverflow s u = false := by
  unfold accumulatorOverflow carryOut
  cases hc : s.carry with
  | false => rfl
  | true =>
    simp [State.lowf, hc] at h4
    simp; omega

theorem runLen_max {r : Word} (h : r.toNat + 1 = 2 ^ 32) : r = 0xFFFFFFFF := by
  apply BitVec.eq_of_toNat_eq
  rw [maxRun rfl]
  omega

/-- One byte more in the run, one step fewer to the overflow. -/
theorem runLen_step {r : Word} {j N : Nat} (hr : r ≠ 0xFFFFFFFF) (h : r.toNat + (j + 1) + 1 = N) :
    (r + 1).toNat + j + 1 = N := by
  rw [succ_runLen hr]; omega

/-- The steps of a renormalization are numbered 0 to 2 (R150). -/
theorem overflow_step {r j : Nat} (hr : 1 ≤ r) (h : r * 2 ^ (8 * j) < 2 ^ 24) : j ≤ 2 := by
  refine Nat.le_of_not_lt fun hj => ?_
  have h2 : 2 ^ 24 ≤ 2 ^ (8 * j) := Nat.pow_le_pow_right (by omega) (by omega)
  have := Nat.mul_le_mul hr h2
  omega

/-- E.ADV-body on a sub-interval of an open session (R181, R183, R154): it adds U to the stream value and
renormalizes with the least number of steps; or the run overflows at one of them. -/
theorem advanceE_session {s : State} {u w : Word} (hr : s.runIsOnes) (hd : s.heldDefinite)
    (hs : s.encodeInv) (hw : 1 ≤ w.toNat) (hu : u.toNat + w.toNat ≤ s.range.toNat) :
    (∃ t j, advanceE u w s = .ok t ∧ j ≤ 3 ∧ RenormCount w.toNat j ∧
      t.range.toNat = w.toNat * 2 ^ (8 * j) ∧
      t.streamValue = (s.streamValue + u.toNat) * 2 ^ (8 * j) ∧ t.bitCount = s.bitCount + 8 * j ∧
      t.loopInv ∧ t.runLen.toNat ≤ s.runLen.toNat + j) ∨
    (∃ j, j < 3 ∧ s.runOverflowsAt u w j ∧ ∃ t, advanceE u w s = .raise .runLengthOverflow 0 t) := by
  obtain ⟨hI3, hI4, hI5, hI6⟩ := hs
  have hov := no_accumulatorOverflow hI4 hw hu
  have hlf := lowf_add hov
  unfold advanceE
  rw [if_neg (by rw [hov]; exact Bool.false_ne_true)]
  generalize hm : ({ s with
    carry := s.carry || carryOut s.low u, low := s.low + u, range := w } : State) = m
  have hml : m.lowf = s.lowf + u.toNat := by rw [← hm]; exact hlf
  have hmr : m.range = w := by rw [← hm]
  have hinv : m.loopInv := by
    refine ⟨by rw [← hm]; exact hr, by rw [← hm]; exact hd, ?_, ?_, by rw [← hm]; exact hI5, ?_⟩
    · intro hv
      have := hI3 (by rw [← hm] at hv; exact hv)
      rw [hml, hmr]; omega
    · rw [hml, hmr]; omega
    · rw [hmr]; exact hw
  have hmv : m.streamValue = s.streamValue + u.toNat := by
    rw [State.streamValue, hml, ← hm]
    show s.streamBits * 2 ^ 32 + _ = s.streamBits * 2 ^ 32 + _ + _
    omega
  have hmb : m.bitCount = s.bitCount := by rw [← hm]; rfl
  have hmn : m.runLen = s.runLen := by rw [← hm]
  rcases renormESteps_session 3 hinv (by rw [hmr]; exact three_steps hw) with
    ⟨t, j, ht, hj, hcnt, htr, htv, htb, hti, htl⟩ | ⟨j, hj, hover, t, ht⟩
  · left
    rw [hmr] at hcnt htr
    rw [hmv] at htv
    rw [hmb] at htb
    rw [hmn] at htl
    exact ⟨t, j, ht, hj, hcnt, htr, htv, htb, hti, htl⟩
  · right
    have h0 : (0 : Word).toNat = 0 := rfl
    rw [State.runOverflowsAt, hmn, hmr, hml, h0, Nat.add_zero] at hover
    exact ⟨j, hj, hover, t, ht⟩

/-- Where the run overflows at a step of RENORM_E: the steps before it only lengthen the run, and that step
raises with its own shift made (R147, R150, R273). -/
theorem renormESteps_overflow (k j : Nat) {s : State} (hj : j < k) (hp : s.pcnt = 0)
    (hr : 1 ≤ s.range.toNat) (h : s.runOverflowsAt 0 s.range j) :
    renormESteps k s = .raise .runLengthOverflow 0 { s with
      low := s.low <<< (8 * (j + 1)), carry := false, range := s.range <<< (8 * j), pbits := 0
      runLen := 0xFFFFFFFF } := by
  induction j generalizing k s with
  | zero =>
    obtain ⟨k, rfl⟩ : ∃ k', k = k' + 1 := ⟨k - 1, by omega⟩
    obtain ⟨h1, h2, h3, h4⟩ := h
    have hc := carry_of_lowf (by omega : s.lowf < 2 ^ 32)
    have hl := lowf_of_carry hc
    have h0 : (0 : Word).toNat = 0 := rfl
    have hrun := runLen_max (r := s.runLen) (by rw [Nat.add_zero] at h4; exact h4)
    have htop : s.range < Config.top := by
      show s.range.toNat < 2 ^ 24
      simpa using h1
    rw [renormESteps, if_pos htop, qpush_overflow hp hc (by rw [hl, h0] at h3; simpa using h3) hrun]
    show Micro.raise _ _ _ = _
    rw [show 8 * (0 + 1) = 8 by omega, show 8 * 0 = 0 by omega, BitVec.shiftLeft_zero, ← hrun]
  | succ j ih =>
    obtain ⟨k, rfl⟩ : ∃ k', k = k' + 1 := ⟨k - 1, by omega⟩
    obtain ⟨h1, h2, h3, h4⟩ := h
    have hj1 := overflow_step hr h1
    have hlow := s.low.isLt
    have hc := carry_of_lowf (by omega : s.lowf < 2 ^ 32)
    have hl := lowf_of_carry hc
    have h0 : (0 : Word).toNat = 0 := rfl
    rw [hl, h0, Nat.add_zero] at h2 h3
    have hb : s.low.toNat / 2 ^ 24 = 255 ∧
        (s.low.toNat % 2 ^ 24 * 256) / 2 ^ (24 - 8 * j) = 2 ^ (8 * (j + 1)) - 1 := by
      have : j = 0 ∨ j = 1 := by omega
      rcases this with rfl | rfl <;> simp at h3 ⊢ <;> omega
    have hrun : s.runLen ≠ 0xFFFFFFFF := fun hc => by have := maxRun hc; omega
    have hrun0 : s.runLen ≠ 0 := fun hc => by
      have : s.runLen.toNat = 0 := by rw [hc]; rfl
      omega
    have hr24 : s.range.toNat < 2 ^ 24 := by
      have := Nat.mul_le_mul_left s.range.toNat (Nat.two_pow_pos (8 * (j + 1)))
      omega
    have htop : s.range < Config.top := by
      show s.range.toNat < Config.top.toNat
      exact hr24
    have hrs := range_shift hr24
    have hlf : State.lowf { s with
        low := s.low <<< 8, carry := false, range := s.range <<< 8, pbits := 0
        runPol := if s.runLen = 0 then .allOnes else s.runPol
        runLen := s.runLen + 1 } = s.low.toNat % 2 ^ 24 * 256 :=
      (lowf_of_carry rfl).trans (low_shift s.low)
    rw [renormESteps, if_pos htop, qpush_fill hp hc hb.1 hrun, Micro.ok_andThen]
    rw [ih k (by omega) (by exact hp) (by show 1 ≤ (s.range <<< 8).toNat; omega) ⟨?_, ?_, ?_, ?_⟩]
    · show Micro.raise _ _ _ = _
      rw [if_neg hrun0, ← BitVec.shiftLeft_add, ← BitVec.shiftLeft_add,
        show 8 + 8 * (j + 1) = 8 * (j + 1 + 1) by omega, show 8 + 8 * j = 8 * (j + 1) by omega]
    · show (s.range <<< 8).toNat * _ < _
      rw [hrs, Nat.mul_assoc, show 256 = 2 ^ 8 from rfl, ← Nat.pow_add,
        show 8 + 8 * j = 8 * (j + 1) by omega]
      exact h1
    · rw [h0, Nat.add_zero, hlf]; omega
    · rw [h0, Nat.add_zero, hlf]; exact hb.2
    · exact runLen_step hrun h4

/-- E.ADV-body where the run overflows (R181, R273). -/
theorem advanceE_overflow {s : State} {u w : Word} {j : Nat} (hp : s.pcnt = 0) (hw : 1 ≤ w.toNat)
    (h : s.runOverflowsAt u w j) :
    advanceE u w s = .raise .runLengthOverflow 0 { s with
      low := (s.low + u) <<< (8 * (j + 1)), carry := false, range := w <<< (8 * j), pbits := 0
      runLen := 0xFFFFFFFF } := by
  obtain ⟨h1, h2, h3, h4⟩ := h
  have hc := carry_of_lowf (by omega : s.lowf < 2 ^ 32)
  have hj := overflow_step hw h1
  have hov : accumulatorOverflow s u = false := by rw [accumulatorOverflow, hc, Bool.false_and]
  have h0 : (0 : Word).toNat = 0 := rfl
  have hlf : State.lowf { s with
      carry := s.carry || carryOut s.low u, low := s.low + u, range := w } = s.lowf + u.toNat := lowf_add hov
  unfold advanceE
  rw [if_neg (by rw [hov]; exact Bool.false_ne_true)]
  exact renormESteps_overflow 3 j (by omega) (by exact hp) (by exact hw)
    ⟨h1, by rw [hlf, h0, Nat.add_zero]; exact h2, by rw [hlf, h0, Nat.add_zero]; exact h3, h4⟩

end Sys2Proof.Machine
end

