-- ==== Sys2Proof/Laws/Recover.lean ====
section
/-! SUPPORT. The laws of RECOVER (43_recovery.md): the private decoder never leaves the buffers, the search
goes through the candidates in order, and a model may be replaced by its decision histories. -/

namespace Sys2Proof.Machine

/-! ## The private decoder -/

/-- D.ADV-body where every read succeeds (R211). -/
theorem Dec.advance_ok {rd : Word → Except Fault Byte} {f : Nat → Byte} (hrd : ∀ i, rd i = .ok (f i.toNat))
    {u w : Word} {d : Dec} (hw : 1 ≤ w.toNat) :
    ∃ j, j ≤ 3 ∧ RenormCount w.toNat j ∧
      Dec.advance rd u w d = .ok
        { range := w <<< (8 * j)
          code := codeAfter f d.ipos.toNat j (d.code - u)
          ipos := BitVec.ofNat 32 (min (d.ipos.toNat + j) 4294967295) } :=
  Dec.renormSteps_spec hrd 3 (d := { d with code := d.code - u, range := w }) (three_steps hw)

/-- One decision of the private decoder, where every read succeeds, never stops. -/
theorem Dec.decideAt_ok {rd : Word → Except Fault Byte} {f : Nat → Byte}
    (hrd : ∀ i, rd i = .ok (f i.toNat)) {x : Word} {d : Dec} (h : splitBad x d.range = false) :
    ∃ d', Dec.decideAt rd x d = (decidedBit d.code x, .ok d') := by
  obtain ⟨h1, h2⟩ := not_splitBad h
  obtain ⟨j, -, -, hj⟩ := Dec.advance_ok hrd (u := splitOffset (decidedBit d.code x) x) (d := d)
    (split_fits (decidedBit d.code x) h1 h2).1
  exact ⟨_, Prod.ext rfl hj⟩

theorem decodeByte_ne_stop {St : Type} (m : Model St) {rd : Word → Except Fault Byte} {f : Nat → Byte}
    (hrd : ∀ i, rd i = .ok (f i.toNat)) (k : Nat) (σ : St) (d : Dec) (e : Fault) :
    decodeByte m rd k σ d ≠ .stop e := by
  induction k generalizing σ d with
  | zero => intro h; cases h
  | succ k ih =>
    unfold decodeByte
    dsimp only
    cases hb : splitBad (m.bound σ d.range) d.range with
    | true => rw [if_pos rfl]; intro h; cases h
    | false =>
      rw [if_neg Bool.false_ne_true]
      obtain ⟨d', hd⟩ := Dec.decideAt_ok hrd hb
      rw [hd]
      dsimp only
      rcases m.next σ (decidedBit d.code (m.bound σ d.range)) with ⟨σ', _ | y⟩
      · exact ih σ' d'
      · intro h; cases h

theorem matchBytes_ne_stop {St : Type} (m : Model St) {rd : Word → Except Fault Byte} {f : Nat → Byte}
    (hrd : ∀ i, rd i = .ok (f i.toNat)) {pt : Nat → Except Fault Byte} {g : Nat → Byte} (maxDpb k n : Nat)
    (hpt : ∀ i, n ≤ i → i < n + k → pt i = .ok (g i)) (σ : St) (d : Dec) (e : Fault) :
    matchBytes m rd pt maxDpb k n σ d ≠ .stop e := by
  induction k generalizing n σ d with
  | zero => intro h; cases h
  | succ k ih =>
    unfold matchBytes
    cases h : decodeByte m rd maxDpb σ d with
    | badBound => intro h; cases h
    | nonProgress => intro h; cases h
    | stop e' => exact absurd h (decodeByte_ne_stop m hrd _ _ _ _)
    | byte y σ' d' =>
      dsimp only
      rw [hpt n (Nat.le_refl _) (by omega)]
      dsimp only
      split
      · intro h; cases h
      · exact ih (n + 1) (fun i h1 h2 => hpt i (by omega) (by omega)) σ' d'

/-- A candidate's stream as a function of the index (R242). -/
theorem candidateByte_nat {s : State} {tlen : Word} (h : tlen.toNat ≤ s.params.inSize) (b : Byte) (i : Word) :
    inByteC s tlen b i = .ok (s.candidateByte tlen b (BitVec.ofNat 32 i.toNat)) := by
  rw [inByteC_ok h, BitVec.ofNat_toNat, BitVec.setWidth_eq]

/-- With both lengths inside their buffers no candidate's decode reads a byte that does not exist (R72). -/
theorem matchWith_ne_stop {St : Type} (m : Model St) {s : State} {tlen plen : Word}
    (ht : tlen.toNat ≤ s.params.inSize) (hp : plen.toNat ≤ s.params.ptSize) (b : Byte) (e : Fault) :
    matchWith m s tlen plen b ≠ .stop e := by
  unfold matchWith
  rw [Dec.prime_spec (inByteC_ok ht b)]
  dsimp only
  refine matchBytes_ne_stop m (f := fun n => s.candidateByte tlen b (BitVec.ofNat 32 n))
    (candidateByte_nat ht b) (g := fun n => s.byteAt .plaintext n) _ _ _ (fun i _ hi => ?_) _ _ _
  unfold memRead
  rw [if_pos (show i < bufferSize s.params .plaintext from by
    show i < s.params.ptSize
    omega)]

theorem matchCandidate_ne_stop {s : State} {tlen plen : Word}
    (ht : tlen.toNat ≤ s.params.inSize) (hp : plen.toNat ≤ s.params.ptSize) (b : Byte) (e : Fault) :
    matchCandidate s tlen plen b ≠ .stop e := by
  unfold matchCandidate
  split <;> exact matchWith_ne_stop _ ht hp b e

/-! ## The search -/

/-- What a candidate's verdict makes of the search, when no earlier candidate ended it. -/
def Verdict.found (b : Byte) : Verdict → Found
  | .hit => .byte b
  | .miss => .none
  | .badBound => .raise .intervalError b
  | .nonProgress => .raise .modelNonProgress b
  | .stop f => .stop f

/-- Candidates that miss change nothing (R244). -/
theorem searchIn_skip (v : Byte → Verdict) (pre post : List Byte) (h : ∀ c ∈ pre, v c = .miss) :
    searchIn v (pre ++ post) = searchIn v post := by
  induction pre with
  | nil => rfl
  | cons c pre ih =>
    rw [List.cons_append, searchIn, h c (by simp)]
    exact ih fun d hd => h d (by simp [hd])

theorem searchIn_head (v : Byte → Verdict) {b : Byte} (post : List Byte) (h : v b ≠ .miss) :
    searchIn v (b :: post) = (v b).found b := by
  rw [searchIn]
  cases hv : v b with
  | miss => exact absurd hv h
  | hit => rfl
  | badBound => rfl
  | nonProgress => rfl
  | stop f => rfl

/-- The candidates before `b` are the bytes below it (R244). -/
theorem candidates_split (b : Byte) : ∃ pre post, candidates = pre ++ b :: post ∧ ∀ c ∈ pre, c < b := by
  have hb := b.isLt
  refine ⟨(List.range b.toNat).map (BitVec.ofNat 8),
    (List.range (255 - b.toNat)).map fun i => BitVec.ofNat 8 (b.toNat + 1 + i), ?_, ?_⟩
  · have h1 : List.range 256 = List.range b.toNat ++
        (List.range (256 - b.toNat)).map (fun i => b.toNat + i) := by
      rw [← List.range_add, show b.toNat + (256 - b.toNat) = 256 by omega]
    have h2 : List.range (256 - b.toNat) = 0 :: (List.range (255 - b.toNat)).map Nat.succ := by
      rw [show 256 - b.toNat = 255 - b.toNat + 1 by omega, List.range_succ_eq_map]
    rw [candidates, h1, List.map_append, h2]
    simp only [List.map_cons, List.map_map, Nat.add_zero, BitVec.ofNat_toNat, BitVec.setWidth_eq]
    congr 2
    apply List.map_congr_left
    intro i _
    show BitVec.ofNat 8 (b.toNat + (i + 1)) = _
    rw [show b.toNat + (i + 1) = b.toNat + 1 + i by omega]
  · intro c hc
    obtain ⟨i, hi, rfl⟩ := List.mem_map.1 hc
    have hi' := List.mem_range.1 hi
    show (BitVec.ofNat 8 i).toNat < b.toNat
    rw [BitVec.toNat_ofNat, Nat.mod_eq_of_lt (by omega)]
    exact hi'

/-- The search ends at the lowest candidate that does not simply miss (R240, R244, R246). -/
theorem search_lowest {v : Byte → Verdict} {b : Byte} (hlow : ∀ c, c < b → v c = .miss)
    (hb : v b ≠ .miss) : searchIn v candidates = (v b).found b := by
  obtain ⟨pre, post, hc, hpre⟩ := candidates_split b
  rw [hc, searchIn_skip v pre _ fun c h => hlow c (hpre c h), searchIn_head v post hb]

/-- No candidate ends the search (R240). -/
theorem search_none {v : Byte → Verdict} (h : ∀ c, v c = .miss) : searchIn v candidates = .none := by
  rw [← List.append_nil candidates, searchIn_skip v candidates [] fun c _ => h c]
  rfl

/-- How a search ends: at the lowest candidate that does not simply miss, or with none. -/
theorem search_cases (v : Byte → Verdict) :
    ((∀ c, v c = .miss) ∧ searchIn v candidates = .none) ∨
    ∃ b, (∀ c, c < b → v c = .miss) ∧ v b ≠ .miss ∧ searchIn v candidates = (v b).found b := by
  by_cases h : ∀ c, v c = .miss
  · exact .inl ⟨h, search_none h⟩
  · right
    have key : ∀ n, (∀ c : Byte, c.toNat < n → v c = .miss) ∨
        ∃ b, (∀ c, c < b → v c = .miss) ∧ v b ≠ .miss := by
      intro n
      induction n with
      | zero => exact .inl fun c hc => absurd hc (by omega)
      | succ n ih =>
        rcases ih with hlow | hex
        · by_cases hn : n < 256
          · have hnb : (BitVec.ofNat 8 n).toNat = n := by
              rw [BitVec.toNat_ofNat]; exact Nat.mod_eq_of_lt hn
            by_cases hv : v (BitVec.ofNat 8 n) = .miss
            · left
              intro c hc
              by_cases hcn : c.toNat = n
              · have : c = BitVec.ofNat 8 n := BitVec.eq_of_toNat_eq (by rw [hnb, hcn])
                rw [this, hv]
              · exact hlow c (by omega)
            · right
              refine ⟨_, fun c hc => hlow c ?_, hv⟩
              have : c.toNat < (BitVec.ofNat 8 n).toNat := hc
              omega
          · left
            intro c _
            exact hlow c (by have := c.isLt; omega)
        · exact .inr hex
    rcases key 256 with hall | ⟨b, h1, h2⟩
    · exact absurd (fun c => hall c c.isLt) h
    · exact ⟨b, h1, h2, search_lowest h1 h2⟩

/-! ## Models as decision histories -/

theorem historyState_snoc {St : Type} (m : Model St) (h : List Bool) (bit : Bool) :
    historyState m (h ++ [bit]) = (m.next (historyState m h) bit).1 := by
  simp [historyState, List.foldl_append]

end Sys2Proof.Machine
end

