-- ==== Sys2Proof/Laws/Commands.lean ====
section
/-! SUPPORT. Which way each command goes (41_encode.md, 42_decode.md, 43_recovery.md): one equation per
check, in the order of 60_exceptions.md R272, and one for the body that runs when every check passes. -/

namespace Sys2Proof.Machine

variable {s : State}

theorem exec_eAdv_session {u w : Word} (hm : s.mode ≠ .enc) :
    exec (.eAdv u w) s = .next (s.enterFault 0x02 .sessionError s.mode.code) := by
  show execEAdv u w s = _
  rw [execEAdv, if_pos hm]
  rfl

theorem exec_eAdv_interval {u w : Word} (hm : s.mode = .enc) (hb : intervalBad u w s.range = true) :
    exec (.eAdv u w) s = .next (s.enterFault 0x02 .intervalError s.range) := by
  show execEAdv u w s = _
  rw [execEAdv, if_neg (not_not_intro hm), if_pos hb]
  rfl

theorem exec_eAdv_body {u w : Word} (hm : s.mode = .enc) (hb : intervalBad u w s.range = false) :
    exec (.eAdv u w) s = (advanceE u w s).finish .eAdv := by
  show execEAdv u w s = _
  rw [execEAdv, if_neg (not_not_intro hm), hb, if_neg Bool.false_ne_true]

theorem exec_eBit_session {sym : Bool} {b : Word} (hm : s.mode ≠ .enc) :
    exec (.eBit sym b) s = .next (s.enterFault 0x03 .sessionError s.mode.code) := by
  show execEBit sym b s = _
  rw [execEBit, if_pos hm]
  rfl

theorem exec_eBit_interval {sym : Bool} {b : Word} (hm : s.mode = .enc)
    (hb : splitBad b s.range = true) :
    exec (.eBit sym b) s = .next (s.enterFault 0x03 .intervalError s.range) := by
  show execEBit sym b s = _
  rw [execEBit, if_neg (not_not_intro hm), if_pos hb]
  rfl

theorem exec_eBit_body {sym : Bool} {b : Word} (hm : s.mode = .enc) (hb : splitBad b s.range = false) :
    exec (.eBit sym b) s =
      (advanceE (splitOffset sym b) (splitWidth sym b s.range) s).finish .eBit := by
  show execEBit sym b s = _
  rw [execEBit, if_neg (not_not_intro hm), hb, if_neg Bool.false_ne_true]

theorem exec_eFlush_fin (hm : s.mode = .fin) : exec .eFlush s = .next s := by
  show execEFlush s = _
  rw [execEFlush, if_pos hm]
  rfl

theorem exec_eFlush_session (hm : s.mode ≠ .enc) (hf : s.mode ≠ .fin) :
    exec .eFlush s = .next (s.enterFault 0x04 .sessionError s.mode.code) := by
  show execEFlush s = _
  rw [execEFlush, if_neg hf, if_pos hm]
  rfl

theorem exec_eFlush_body (hm : s.mode = .enc) : exec .eFlush s = (flushOpen s).finish .eFlush := by
  show execEFlush s = _
  rw [execEFlush, if_neg (by rw [hm]; decide), if_neg (not_not_intro hm)]

theorem exec_dInit_length {n : Word} (hl : lengthBad s .input n = true) :
    exec (.dInit n) s = .next (s.enterFault 0x11 .bufferBounds n) := by
  show execDInit n s = _
  rw [execDInit, if_pos hl]
  rfl

/-- D.INIT where the length fits: priming reads only bytes that exist (R210). -/
theorem exec_dInit_body {n : Word} (hl : lengthBad s .input n = false) :
    exec (.dInit n) s = .next { s with
      ilen := n
      range := 0xFFFFFFFF
      code := pushCode (pushCode (pushCode (pushCode 0
        (State.streamByte { s with ilen := n } 0)) (State.streamByte { s with ilen := n } 1))
        (State.streamByte { s with ilen := n } 2)) (State.streamByte { s with ilen := n } 3)
      ipos := 4
      mode := .dec } := by
  have hn : n.toNat ≤ s.params.inSize := lengthBad_eq_false.1 hl
  show execDInit n s = _
  rw [execDInit, hl, if_neg Bool.false_ne_true]
  dsimp only
  rw [Dec.prime_spec (f := fun i => State.streamByte { s with ilen := n } i.toNat)
    (inByte_ok (s := { s with ilen := n }) hn)]
  rfl

theorem exec_dAdv_session {u w : Word} (hm : s.mode ≠ .dec) :
    exec (.dAdv u w) s = .next (s.enterFault 0x12 .sessionError s.mode.code) := by
  show execDAdv u w s = _
  rw [execDAdv, if_pos hm]
  rfl

theorem exec_dAdv_interval {u w : Word} (hm : s.mode = .dec) (hb : intervalBad u w s.range = true) :
    exec (.dAdv u w) s = .next (s.enterFault 0x12 .intervalError s.range) := by
  show execDAdv u w s = _
  rw [execDAdv, if_neg (not_not_intro hm), if_pos hb]
  rfl

theorem exec_dAdv_body {u w : Word} (hm : s.mode = .dec) (hb : intervalBad u w s.range = false) :
    exec (.dAdv u w) s =
      (s.withDecoder (Dec.advance (inByte s) u w s.decoder)).finish .dAdv := by
  show execDAdv u w s = _
  rw [execDAdv, if_neg (not_not_intro hm), hb, if_neg Bool.false_ne_true]

theorem exec_dBit_session {b : Word} (hm : s.mode ≠ .dec) :
    exec (.dBit b) s = .next (s.enterFault 0x13 .sessionError s.mode.code) := by
  show execDBit b s = _
  rw [execDBit, if_pos hm]
  rfl

theorem exec_dBit_interval {b : Word} (hm : s.mode = .dec) (hb : splitBad b s.range = true) :
    exec (.dBit b) s = .next (s.enterFault 0x13 .intervalError s.range) := by
  show execDBit b s = _
  rw [execDBit, if_neg (not_not_intro hm), if_pos hb]
  rfl

theorem exec_dBit_body {b : Word} (hm : s.mode = .dec) (hb : splitBad b s.range = false) :
    exec (.dBit b) s = (State.withDecoder { s with dbit := decidedBit s.code b }
      (Dec.advance (inByte s) (splitOffset (decidedBit s.code b) b)
        (splitWidth (decidedBit s.code b) b s.range) s.decoder)).finish .dBit := by
  show execDBit b s = _
  rw [execDBit, if_neg (not_not_intro hm), hb, if_neg Bool.false_ne_true]

theorem exec_recover_tlen {tlen plen : Word} (ht : lengthBad s .input tlen = true) :
    exec (.recover tlen plen) s = .next (s.enterFault 0x21 .bufferBounds tlen) := by
  show execRecover tlen plen s = _
  rw [execRecover, if_pos ht]
  rfl

theorem exec_recover_plen {tlen plen : Word} (ht : lengthBad s .input tlen = false)
    (hp : lengthBad s .plaintext plen = true) :
    exec (.recover tlen plen) s = .next (s.enterFault 0x21 .bufferBounds plen) := by
  show execRecover tlen plen s = _
  rw [execRecover, ht, if_neg Bool.false_ne_true, if_pos hp]
  rfl

theorem exec_recover_body {tlen plen : Word} (ht : lengthBad s .input tlen = false)
    (hp : lengthBad s .plaintext plen = false) :
    exec (.recover tlen plen) s = (recoverResult { s with rcvState := .searching }
      (searchIn (matchCandidate s tlen plen) candidates)).finish .recover := by
  show execRecover tlen plen s = _
  rw [execRecover, ht, hp, if_neg Bool.false_ne_true, if_neg Bool.false_ne_true]

/-! ## Runs of commands -/

theorem execAll_cons {i : Instr} {is : List Instr} {t : State} (h : exec i s = .next t) :
    execAll (i :: is) s = execAll is t := by
  simp only [execAll, h]

theorem execAll_append {is js : List Instr} {t : State} (h : execAll is s = .next t) :
    execAll (is ++ js) s = execAll js t := by
  induction is generalizing s with
  | nil => cases h; rfl
  | cons i is ih =>
    simp only [execAll] at h
    rw [List.cons_append]
    cases he : exec i s with
    | next u => rw [he] at h; rw [execAll_cons he]; exact ih h
    | fault f => rw [he] at h; cases h
    | refused r => rw [he] at h; cases h

/-- A run of commands that ends goes through the state after its first one. -/
theorem execAll_next {i : Instr} {is : List Instr} {t : State} (h : execAll (i :: is) s = .next t) :
    ∃ u, exec i s = .next u ∧ execAll is u = .next t := by
  simp only [execAll] at h
  cases he : exec i s with
  | next u => rw [he] at h; exact ⟨u, rfl, h⟩
  | fault f => rw [he] at h; cases h
  | refused r => rw [he] at h; cases h

/-! ## What each command raises, and that it never stops where its reads exist -/

theorem Micro.finish_next {m : Micro} {Q : FaultCode → Prop} (hm : m.Raises Q) (op : Opcode) :
    ∃ t, m.finish op = .next t := by
  cases m with
  | ok t => exact ⟨t, rfl⟩
  | raise c i t => exact ⟨_, rfl⟩
  | stop f => exact absurd hm id

theorem advanceE_raises (u w : Word) (s : State) :
    (advanceE u w s).Raises fun c => c = .accumulatorOverflow ∨ microFault c := by
  unfold advanceE
  split
  · exact .inl rfl
  · have h := renormESteps_raises 3
      { s with carry := s.carry || carryOut s.low u, low := s.low + u, range := w }
    revert h
    unfold renormE
    generalize renormESteps 3 _ = m
    intro h
    cases m with
    | ok t => trivial
    | raise c i t => exact .inr h
    | stop f => exact h

/-- The private search of RECOVER raises only on the model (R246). -/
theorem search_raises {v : Byte → Verdict} {c : FaultCode} {b : Byte}
    (h : searchIn v candidates = .raise c b) : c = .intervalError ∨ c = .modelNonProgress := by
  rcases search_cases v with ⟨-, hs⟩ | ⟨b', -, hv, hs⟩
  · rw [h] at hs; cases hs
  · rw [h] at hs
    revert hs hv
    cases v b' <;> intro hv hs <;> cases hs
    · exact .inl rfl
    · exact .inr rfl

end Sys2Proof.Machine
end

