-- ==== Sys2Proof/Laws/Decode.lean ====
section
/-! SUPPORT. The laws of header words, of the decoder and of the encoder (30_encoding.md R101 to R106). -/

namespace Sys2Proof

@[simp] theorem opcodeOf_byte (op : Opcode) : opcodeOf op.byte = some op := by
  cases op <;> rfl

theorem opcodeOf_eq_some {b : Byte} {op : Opcode} (h : opcodeOf b = some op) : b = op.byte := by
  unfold opcodeOf at h
  repeat' split at h
  all_goals first
    | (cases h; assumption)
    | cases h

@[simp] theorem headerOf_headerWord (op : Opcode) (sym : Bool) :
    headerOf (headerWord op sym) = { opc := op.byte, sym := sym, rsv := 0 } := by
  cases op <;> cases sym <;> rfl

/-- A word is the header word of its fields when RSV is 0. -/
theorem word_of_fields (h : Word) (hr : h.extractLsb' 9 23 = 0) :
    h = (h.extractLsb' 0 8).setWidth 32 ||| (if h.getLsbD 8 then 0x100 else 0) := by
  apply BitVec.eq_of_getLsbD_eq
  intro i hi
  have hbit : ∀ j, 9 ≤ j → j < 32 → h.getLsbD j = false := by
    intro j h9 h32
    have := congrArg (fun x => x.getLsbD (j - 9)) hr
    simp only [BitVec.getLsbD_extractLsb'] at this
    rw [show 9 + (j - 9) = j by omega] at this
    simpa [show j - 9 < 23 by omega] using this
  have h100 : (if h.getLsbD 8 then (0x100 : Word) else 0).getLsbD i
      = (h.getLsbD 8 && decide (i = 8)) := by
    cases h.getLsbD 8
    · simp
    · have : ∀ i < 32, (0x100 : Word).getLsbD i = decide (i = 8) := by decide
      simpa using this i hi
  rw [BitVec.getLsbD_or, h100, BitVec.getLsbD_setWidth, BitVec.getLsbD_extractLsb']
  rcases Nat.lt_trichotomy i 8 with h8 | h8 | h8
  · simp [h8, hi, show ¬ i = 8 by omega]
  · subst h8; simp
  · simp [hbit i (by omega) hi, show ¬ i < 8 by omega, show ¬ i = 8 by omega]

/-- What a legal header is: the header word of its opcode, with S set only for E.BIT. -/
theorem classify_eq_ok {h : Word} {op : Opcode} (hc : classify h = .ok op) :
    h = headerWord op (headerOf h).sym ∧ ((headerOf h).sym = true → op = .eBit) := by
  unfold classify at hc
  split at hc
  · cases hc
  · rename_i op' hop
    split at hc
    · cases hc
    · rename_i hr
      split at hc
      · cases hc
      · rename_i hs
        cases hc
        refine ⟨?_, fun hsym => Classical.byContradiction fun hne => hs ⟨hsym, hne⟩⟩
        have hr' : h.extractLsb' 9 23 = 0 := Classical.byContradiction fun hne => hr hne
        have hb : h.extractLsb' 0 8 = op.byte := opcodeOf_eq_some hop
        unfold headerWord
        rw [← hb]
        exact word_of_fields h hr'

theorem classify_headerWord (op : Opcode) (sym : Bool) (hs : sym = true → op = .eBit) :
    classify (headerWord op sym) = .ok op := by
  cases op <;> cases sym <;> first | rfl | exact absurd (hs rfl) (by decide)

theorem classify_isOk_iff_legal (h : Word) :
    (∃ op, classify h = .ok op) ↔ (headerOf h).legal = true := by
  constructor
  · rintro ⟨op, hc⟩
    obtain ⟨hw, hs⟩ := classify_eq_ok hc
    rw [hw, headerOf_headerWord]
    generalize (headerOf h).sym = sym at hs
    cases op <;> cases sym <;> first | rfl | exact absurd (hs rfl) (by decide)
  · intro hl
    unfold classify
    simp only [Header.legal, Header.opcodeKnown, Header.reservedClear, Header.symbolAllowed,
      Bool.and_eq_true, beq_iff_eq, Bool.or_eq_true, Bool.not_eq_true'] at hl
    obtain ⟨⟨hk, hr⟩, hs⟩ := hl
    cases ho : opcodeOf (headerOf h).opc with
    | none =>
      exfalso
      revert hk ho
      generalize (headerOf h).opc = b
      revert b; decide
    | some op =>
      simp only [hr, ne_eq, not_true_eq_false, if_false]
      rw [if_neg]
      · exact ⟨op, rfl⟩
      · rintro ⟨h1, h2⟩
        rcases hs with hs | hs
        · rw [hs] at h1; cases h1
        · rw [hs] at ho; apply h2; cases ho; rfl

/-- The two statements of R103's column N agree. -/
@[simp] theorem lookup_operandCounts (op : Opcode) :
    operandCounts.lookup op.byte = some op.operandCount := by cases op <;> rfl

/-- The decoder accepts a list of words as one packet exactly when the packet is well formed. -/
theorem decode_accepts_iff_wellFormed (h : Word) (ops : List Word) :
    (∃ i, decode (h :: ops) = .packet i []) ↔
      Packet.wellFormed { header := headerOf h, operands := ops } = true := by
  cases hc : classify h with
  | error why =>
    have : (headerOf h).legal = false := by
      rw [← Bool.not_eq_true, ← classify_isOk_iff_legal]
      rintro ⟨op, ho⟩
      rw [hc] at ho; cases ho
    simp [decode, hc, Packet.wellFormed, this]
  | ok op =>
    have hl := (classify_isOk_iff_legal h).1 ⟨op, hc⟩
    obtain ⟨hw, -⟩ := classify_eq_ok hc
    have hopc : (headerOf h).opc = op.byte := by rw [hw, headerOf_headerWord]
    simp only [decode, hc, Packet.wellFormed, hl, Packet.operandsComplete, hopc, Bool.true_and,
      lookup_operandCounts]
    cases op <;> (rcases ops with _ | ⟨a, _ | ⟨b, _ | ⟨c, l⟩⟩⟩ <;>
      simp [assemble, Opcode.operandCount])

/-- The decoded packet has as many words as its header says, so decoding takes exactly those. -/
theorem packetLength_of_ok {h : Word} {op : Opcode} (hc : classify h = .ok op) :
    packetLength h = 1 + op.operandCount := by simp [packetLength, hc]

theorem packetLength_of_error {h : Word} {why : Illegal} (hc : classify h = .error why) :
    packetLength h = 1 := by simp [packetLength, hc]

end Sys2Proof
end

