-- ==== Sys2Proof/Laws/Flush.lean ====
section
/-! SUPPORT. The laws of E.FLUSH (41_encode.md R185, R186, R187): the search for the flush value, its
significant bits, and what the flush of an open session commits. -/

namespace Sys2Proof.Machine

/-! ## The flush value -/

theorem ceilTo_le {g : Nat} (hg : 0 < g) (x : Nat) : x ≤ ceilTo g x := by
  unfold ceilTo
  have h1 := Nat.div_add_mod (x + (g - 1)) g
  have h2 := Nat.mod_lt (x + (g - 1)) hg
  rw [Nat.mul_comm] at h1
  omega

theorem ceilTo_lt {g : Nat} (hg : 0 < g) (x : Nat) : ceilTo g x < x + g := by
  unfold ceilTo
  have h1 := Nat.div_add_mod (x + (g - 1)) g
  rw [Nat.mul_comm] at h1
  omega

theorem dvd_ceilTo (g x : Nat) : g ∣ ceilTo g x := ⟨_, Nat.mul_comm _ _⟩

/-- `ceilTo g x` is the least multiple of `g` that is not below `x`. -/
theorem ceilTo_least {g x y : Nat} (hg : 0 < g) (hy : x ≤ y) (hd : g ∣ y) : ceilTo g x ≤ y := by
  obtain ⟨q, rfl⟩ := hd
  have h1 : ceilTo g x < g * q + g := by have := ceilTo_lt hg x; omega
  obtain ⟨p, hp⟩ := dvd_ceilTo g x
  rw [hp] at h1 ⊢
  have : p < q + 1 := by
    rw [← Nat.mul_succ] at h1
    exact Nat.lt_of_mul_lt_mul_left h1
  exact Nat.mul_le_mul_left g (by omega)

/-- The loop of FLUSH_VALUE answers the first grid that has a point of the interval (R186). -/
theorem flushSearch_spec (lowf range k nb : Nat) :
    (∃ m, nb ≤ m ∧ m < nb + k ∧ flushSearch lowf range k nb = some (ceilTo (2 ^ (32 - 8 * m)) lowf) ∧
      ceilTo (2 ^ (32 - 8 * m)) lowf < lowf + range ∧
      ∀ j, nb ≤ j → j < m → lowf + range ≤ ceilTo (2 ^ (32 - 8 * j)) lowf) ∨
    (flushSearch lowf range k nb = none ∧
      ∀ j, nb ≤ j → j < nb + k → lowf + range ≤ ceilTo (2 ^ (32 - 8 * j)) lowf) := by
  induction k generalizing nb with
  | zero => exact .inr ⟨rfl, fun j h1 h2 => absurd h2 (by omega)⟩
  | succ k ih =>
    unfold flushSearch
    dsimp only
    by_cases hv : ceilTo (2 ^ (32 - 8 * nb)) lowf < lowf + range
    · rw [if_pos hv]
      exact .inl ⟨nb, Nat.le_refl _, by omega, rfl, hv, fun j h1 h2 => absurd h1 (by omega)⟩
    · rw [if_neg hv]
      rcases ih (nb + 1) with ⟨m, h1, h2, h3, h4, h5⟩ | ⟨h1, h2⟩
      · refine .inl ⟨m, by omega, by omega, h3, h4, fun j hj hjm => ?_⟩
        by_cases hj' : j = nb
        · subst hj'; omega
        · exact h5 j (by omega) hjm
      · refine .inr ⟨h1, fun j hj hjm => ?_⟩
        by_cases hj' : j = nb
        · subst hj'; omega
        · exact h2 j (by omega) (by omega)

/-- In an interval at least 2^24 wide the flush value lies on the grid of 2^24 (R186). -/
theorem flushValue_wide {lowf range : Nat} (hr : 2 ^ 24 ≤ range) :
    ∃ v, flushValue lowf range = some v ∧ lowf ≤ v ∧ v < lowf + range ∧ 2 ^ 24 ∣ v := by
  rcases flushSearch_spec lowf range 5 0 with ⟨m, -, hm5, hs, hlt, hno⟩ | ⟨-, hno⟩
  · refine ⟨_, hs, ceilTo_le (Nat.two_pow_pos _) _, hlt, ?_⟩
    have hm1 : m ≤ 1 := by
      refine Nat.le_of_not_lt fun h1 => ?_
      have h2 := hno 1 (by omega) h1
      have h3 := ceilTo_lt (Nat.two_pow_pos 24) lowf
      have h2 : lowf + range ≤ ceilTo (2 ^ 24) lowf := h2
      omega
    refine Nat.dvd_trans ?_ (dvd_ceilTo _ _)
    exact Nat.pow_dvd_pow 2 (by omega)
  · exfalso
    have h2 : lowf + range ≤ ceilTo (2 ^ 24) lowf := hno 1 (by omega) (by omega)
    have h3 := ceilTo_lt (Nat.two_pow_pos 24) lowf
    omega

/-- CARRY and LOW from a flush value that fits 33 bits (R185). -/
theorem flushPoint_eq {lowf range v : Nat} (h : flushValue lowf range = some v) (hv : v < 2 ^ 33) :
    flushPoint lowf range = (decide (2 ^ 32 ≤ v), BitVec.ofNat 32 v) := by
  rw [flushPoint, h, flushRegs, if_pos hv]

theorem flushOpen_eq {s : State} {p : Bool × Word} (h : flushPoint s.lowf s.range.toNat = p) :
    flushOpen s = flushFrom p.1 p.2 s := by
  unfold flushOpen
  rw [h]

/-! ## The significant bits -/

theorem trailingZeros_dvd (k v : Nat) : 2 ^ trailingZeros k v ∣ v := by
  induction k generalizing v with
  | zero => simp [trailingZeros]
  | succ k ih =>
    unfold trailingZeros
    split
    · simp
    · rename_i h
      obtain ⟨q, hq⟩ := ih (v / 2)
      refine ⟨q, ?_⟩
      rw [Nat.pow_add, Nat.mul_assoc, ← hq]
      omega

theorem le_trailingZeros {k v m : Nat} (hk : m ≤ k) (hd : 2 ^ m ∣ v) : m ≤ trailingZeros k v := by
  induction k generalizing v m with
  | zero => omega
  | succ k ih =>
    cases m with
    | zero => omega
    | succ m =>
      obtain ⟨q, rfl⟩ := hd
      have he : 2 ^ (m + 1) * q = 2 * (2 ^ m * q) := by rw [Nat.pow_succ, Nat.mul_comm (2 ^ m) 2, Nat.mul_assoc]
      unfold trailingZeros
      rw [he, if_neg (by omega), Nat.mul_div_cancel_left _ (by omega : 0 < 2)]
      have := ih (v := 2 ^ m * q) (m := m) (by omega) ⟨q, rfl⟩
      omega

theorem trailingZeros_le (k v : Nat) : trailingZeros k v ≤ k := by
  induction k generalizing v with
  | zero => simp [trailingZeros]
  | succ k ih =>
    unfold trailingZeros
    split
    · omega
    · have := ih (v / 2); omega

/-- A point of the grid of 2^24 has at most 8 significant bits, none of them only for 0 (R185). -/
theorem significantBits_spec {low : Word} (h : 2 ^ 24 ∣ low.toNat) :
    significantBits low ≤ 8 ∧ (significantBits low = 0 ↔ low = 0) ∧
    2 ^ (32 - significantBits low) ∣ low.toNat := by
  unfold significantBits
  by_cases h0 : low = 0
  · rw [if_pos h0]; subst h0
    exact ⟨by omega, by simp, ⟨0, rfl⟩⟩
  · rw [if_neg h0]
    have h1 := le_trailingZeros (k := 32) (by omega) h
    have h2 := trailingZeros_le 32 low.toNat
    have h3 := trailingZeros_dvd 32 low.toNat
    have h4 : trailingZeros 32 low.toNat ≠ 32 := by
      intro hc
      rw [hc] at h3
      have := Nat.eq_zero_of_dvd_of_lt h3 low.isLt
      exact h0 (BitVec.eq_of_toNat_eq this)
    refine ⟨by omega, ⟨fun hc => absurd hc (by omega), fun hc => absurd hc h0⟩, ?_⟩
    rw [show 32 - (32 - trailingZeros 32 low.toNat) = trailingZeros 32 low.toNat by omega]
    exact h3

/-! ## The flush of an open session -/

/-- The one point of the grid of 2^24 whose top byte is 0xFF. -/
theorem top_fill {low : Word} (hg : 2 ^ 24 ∣ low.toNat) (h : low.toNat / 2 ^ 24 = 255) :
    low = 0xFF000000 := by
  apply BitVec.eq_of_toNat_eq
  have e : (0xFF000000 : Word).toNat = 255 * 2 ^ 24 := rfl
  rw [e]
  omega

/-- With an empty queue and a held byte for its carry, QPUSH ends, unless it finds the longest run. -/
theorem qpush_succeeds {s : State} {n : Nat} (hp : s.pcnt = 0)
    (hc : s.carry = true → s.heldV = true ∧ s.held ≠ 0xFF) :
    (∃ t, qpush n s = .ok t) ∨
    (s.carry = false ∧ s.runLen = 0xFFFFFFFF ∧ 8 ≤ n ∧
      ∃ t, qpush n s = .raise .runLengthOverflow 0 t) := by
  have hp0 : s.pcnt.toNat = 0 := by rw [hp]; rfl
  have shift : ∀ m : State, m.pcnt.toNat = 0 → (∃ t, queueShift n 0 m = .ok t) ∨
      (m.runLen = 0xFFFFFFFF ∧ 8 ≤ n ∧ ∃ t, queueShift n 0 m = .raise .runLengthOverflow 0 t) := by
    intro m hm
    cases h : queueShift n 0 m with
    | ok t => exact .inl ⟨t, rfl⟩
    | raise c i t =>
      unfold queueShift at h
      dsimp only at h
      split at h
      · obtain ⟨rfl, hr, rfl, rfl⟩ := defer_eq_raise h
        exact .inr ⟨hr, by omega, _, rfl⟩
      · cases h
    | stop f =>
      unfold queueShift at h
      dsimp only at h
      split at h
      · exact absurd h (defer_ne_stop _ _ _)
      · cases h
  unfold qpush
  rw [queueCarry_empty hp]
  cases hcar : s.carry with
  | false =>
    rcases shift { s with carry := false } hp0 with ⟨t, ht⟩ | ⟨hr, hn, t, ht⟩
    · exact .inl ⟨t, ht⟩
    · exact .inr ⟨rfl, hr, hn, t, ht⟩
  | true =>
    obtain ⟨hv, hd⟩ := hc hcar
    dsimp only
    rw [if_pos rfl, emitCarry_held (s := { s with carry := false }) hv hd]
    rcases shift { s with
        carry := false
        out := s.out ++ (s.held + 1) :: List.replicate s.runLen.toNat 0x00
        outcnt := s.outcnt + 1 + s.runLen
        runLen := 0, runPol := .allZeros, held := 0, heldV := false } hp0 with ⟨t, ht⟩ | ⟨hr, -⟩
    · exact .inl ⟨t, ht⟩
    · cases hr

/-- What E.FLUSH leaves of the encoder's registers once its bits are in the tail (R185). -/
theorem flush_tail {s t : State} {n : Nat} {x : Nat} (hn : n ≤ 8) (hs : s.tailOk) (hp : s.pcnt.toNat = n % 8)
    (hl : s.low = 0) (hc : s.carry = false) (hv : s.streamValue = x * 2 ^ n)
    (h : flushPad s = .ok t) :
    bytesValue (t.out ++ t.tailBytes) * 2 ^ 32 = x * 2 ^ (if n = 0 then 0 else 8) ∧
    (t.out ++ t.tailBytes).length = (s.out ++ s.tailBytes).length + (if n % 8 = 0 then 0 else 1) ∧
    t.low = 0 ∧ t.carry = false ∧ t.pcnt = 0 ∧ t.pbits = 0 := by
  have hlf : s.lowf = 0 := by simp [State.lowf, hl, hc]
  unfold flushPad at h
  by_cases hz : 0 < s.pcnt.toNat
  · rw [if_pos hz] at h
    obtain ⟨hb, -, -, ⟨h1, h2, -, h3, h4⟩, -⟩ := defer_spec h (by exact hs.2.1)
    simp only at h1 h2 h3 h4
    have hn7 : n < 8 := by omega
    have hn0 : n ≠ 0 := by omega
    have hpn : s.pcnt.toNat = n := by rw [hp]; exact Nat.mod_eq_of_lt hn7
    have hpb : s.pb * 2 ^ (8 - n) < 256 := by
      have := pb_lt s
      rw [hpn] at this
      have h8 : 2 ^ n * 2 ^ (8 - n) = 256 := by
        rw [← Nat.pow_add, show n + (8 - n) = 8 by omega]
      rw [← h8]
      exact (Nat.mul_lt_mul_right (Nat.two_pow_pos _)).2 this
    have hx : s.out ++ State.tailBytes { s with pcnt := 0, pbits := 0 } = s.out ++ s.tailBytes := rfl
    rw [hx] at hb
    refine ⟨?_, ?_, by rw [h1, hl], by rw [h2, hc], h3, h4⟩
    · rw [hb, bytesValue_concat, BitVec.toNat_ofNat, hpn, Nat.mod_eq_of_lt hpb, if_neg hn0]
      rw [State.streamValue, State.streamBits, hlf, Nat.add_zero, hpn] at hv
      have e : (256 : Nat) = 2 ^ n * 2 ^ (8 - n) := by
        rw [← Nat.pow_add, show n + (8 - n) = 8 by omega]
      have e' : 2 ^ 8 = 2 ^ n * 2 ^ (8 - n) := e
      rw [e, ← Nat.mul_assoc, ← Nat.add_mul, Nat.mul_right_comm, hv, e', Nat.mul_assoc]
    · rw [hb, List.length_append, if_neg (by omega)]; rfl
  · rw [if_neg hz] at h
    cases h
    have hp0 : s.pcnt.toNat = 0 := by omega
    have hpb : s.pb = 0 := by have := pb_lt s; rw [hp0] at this; omega
    have hpbits : s.pbits.toNat = 0 := by have := hs.2.2; rw [hp0] at this; omega
    refine ⟨?_, by rw [if_pos (by omega)]; rfl, hl, hc, BitVec.eq_of_toNat_eq hp0,
      BitVec.eq_of_toNat_eq hpbits⟩
    rw [State.streamValue, State.streamBits, hlf, hp0, hpb] at hv
    have hv' : bytesValue (s.out ++ s.tailBytes) * 2 ^ 32 = x * 2 ^ n := by simpa using hv
    rw [hv']
    have : n = 0 ∨ n = 8 := by omega
    rcases this with rfl | rfl <;> rfl

/-- E.FLUSH of an open session (R185, R187), CARRY and LOW holding a flush value on the grid of 2^24: it
commits the tail and at most one byte more, none exactly for LOW = 0, and the bytes spell the stream with
that value; or it would make the longest run longer by a byte of 0xFF. -/
theorem flushFrom_session {s : State} {c : Bool} {low : Word} (hs : s.tailOk) (hp : s.pcnt = 0)
    (hc : c = true → s.heldV = true) (hg : 2 ^ 24 ∣ low.toNat) :
    (∃ t j, flushFrom c low s = .ok t ∧ (j ≤ 1 ∧ (j = 0 ↔ low = 0)) ∧
      t.out.length = s.out.length + s.tailBytes.length + j ∧
      bytesValue t.out * 2 ^ (32 - 8 * j) =
        bytesValue (s.out ++ s.tailBytes) * 2 ^ 32 + (c.toNat * 2 ^ 32 + low.toNat) ∧
      (t.low = 0 ∧ t.carry = false ∧ t.pcnt = 0 ∧ t.pbits = 0) ∧
      (t.held = 0 ∧ t.heldV = false ∧ t.runLen = 0) ∧ t.mode = .fin) ∨
    ((c = false ∧ low = 0xFF000000) ∧ s.runLen = 0xFFFFFFFF ∧
      ∃ t, flushFrom c low s = .raise .runLengthOverflow 0 t) := by
  obtain ⟨hk8, hk0, hkd⟩ := significantBits_spec hg
  have hp0 : s.pcnt.toNat = 0 := by rw [hp]; rfl
  have hpb0 : s.pb = 0 := by have := pb_lt s; rw [hp0] at this; omega
  generalize hm : ({ s with carry := c, low := low } : State) = m
  have hmt : m.tailOk := by rw [← hm]; exact hs
  have hmp : m.pcnt = 0 := by rw [← hm]; exact hp
  have hmp0 : m.pcnt.toNat = 0 := by rw [hmp]; rfl
  have hml : m.low = low := by rw [← hm]
  have hmc : m.carry = c := by rw [← hm]
  have hmr : m.runLen = s.runLen := by rw [← hm]
  have hmh : m.carry = true → m.heldV = true ∧ m.held ≠ 0xFF := by
    rw [hmc, ← hm]
    intro h
    exact ⟨hc h, hs.1 (hc h)⟩
  have hmbytes : m.out ++ m.tailBytes = s.out ++ s.tailBytes := by rw [← hm]; rfl
  have hmv : m.streamValue =
      bytesValue (s.out ++ s.tailBytes) * 2 ^ 32 + (c.toNat * 2 ^ 32 + low.toNat) := by
    rw [State.streamValue, State.streamBits, hmbytes, State.lowf, hmc, hml, hmp0]
    have : m.pb = 0 := by rw [← hm]; exact hpb0
    rw [this]; simp
  have hmlen : (m.out ++ m.tailBytes).length = s.out.length + s.tailBytes.length := by
    rw [hmbytes, List.length_append]
  -- the bits of the flush value
  have bits : (∃ u, flushBits (significantBits low) m = .ok u ∧ u.tailOk ∧
        u.pcnt.toNat = significantBits low % 8 ∧ u.low = 0 ∧ u.carry = false ∧
        u.streamValue = m.streamValue * 2 ^ significantBits low ∧
        (u.out ++ u.tailBytes).length =
          (m.out ++ m.tailBytes).length + significantBits low / 8) ∨
      ((c = false ∧ low = 0xFF000000) ∧ s.runLen = 0xFFFFFFFF ∧
        ∃ t, flushBits (significantBits low) m = .raise .runLengthOverflow 0 t) := by
    generalize significantBits low = k at *
    unfold flushBits
    rcases Nat.eq_zero_or_pos k with hz | hpos
    · -- no bits: only a carry
      subst hz
      have hlow : low = 0 := hk0.1 rfl
      simp only [Nat.zero_div, qpushBytes, Micro.ok_andThen, Nat.zero_mod, Nat.lt_irrefl, if_false]
      cases hcc : m.carry with
      | false =>
        left
        refine ⟨m, rfl, hmt, hmp0, by rw [hml, hlow], hcc, by simp, by simp⟩
      | true =>
        left
        obtain ⟨hv, hd⟩ := hmh hcc
        obtain ⟨u, hu⟩ : ∃ u, emitCarry { m with carry := false } = .ok u :=
          ⟨_, emitCarry_held (s := { m with carry := false }) hv hd⟩
        obtain ⟨hB, hL, ⟨h1, h2⟩, ⟨h3, h4, -, h5, h6⟩⟩ := emitCarry_spec hu (by exact hmt.2.1)
        simp only at h3 h4 h5 h6
        refine ⟨u, hu, ⟨fun h => (by rw [h1] at h; cases h), fun h => (by rw [h2] at h; cases h), ?_⟩,
          by rw [h5, hmp0], by rw [h3, hml, hlow], h4, ?_, ?_⟩
        · rw [h6, h5]; exact hmt.2.2
        · have hx : bytesValue (u.out ++ u.tailBytes) = bytesValue (m.out ++ m.tailBytes) + 1 := hB
          have hpbm : m.pb = 0 := by rw [← hm]; exact hpb0
          have hpbu : u.pb = 0 := by
            have : u.pb = m.pb := by simp only [State.pb, h5, h6]
            rw [this, hpbm]
          rw [State.streamValue, State.streamBits, hx, State.lowf, h4, h3, h5, hmp0, hpbu,
            State.streamValue, State.streamBits, State.lowf, hcc, hmp0, hpbm]
          simp; omega
        · rw [hL]; simp [State.tailBytes]
    · -- one QPUSH of k bits
      have hq := qpush_succeeds (n := k) hmp hmh
      have one : ∀ u, qpush k m = .ok u → u.tailOk ∧ u.pcnt.toNat = k % 8 ∧ u.low = 0 ∧
          u.carry = false ∧ u.streamValue = m.streamValue * 2 ^ k ∧
          (u.out ++ u.tailBytes).length = (m.out ++ m.tailBytes).length + k / 8 := by
        intro u hu
        obtain ⟨hv, hb, hrun, hdef, ⟨hl, hcr, -⟩, hpb, -, hpc⟩ := qpush_spec hpos hk8 hmt.2.1 hu
        rw [hmp0, Nat.zero_add] at hpc
        refine ⟨⟨hdef hmt.1, hrun, hpb⟩, hpc, ?_, hcr, hv, ?_⟩
        · rw [hl, hml]
          apply BitVec.eq_of_toNat_eq
          rw [BitVec.toNat_shiftLeft, Nat.shiftLeft_eq]
          obtain ⟨q, hq⟩ := hkd
          rw [hq, Nat.mul_right_comm, ← Nat.pow_add, show 32 - k + k = 32 by omega]
          exact Nat.mul_mod_right _ _
        · unfold State.bitCount at hb
          rw [hpc, hmp0] at hb
          omega
      have hform : ∀ r : Micro, qpush k m = r → (∀ u, r = .ok u → u.carry = false) →
          ((qpushBytes (k / 8) m).andThen fun s => if 0 < k % 8 then qpush (k % 8) s
            else if s.carry then emitCarry { s with carry := false } else .ok s) = r := by
        intro r hr hcar
        by_cases h8 : k = 8
        · subst h8
          show ((qpush 8 m).andThen (qpushBytes 0)).andThen _ = r
          rw [hr]
          cases r with
          | ok u =>
            simp only [Micro.ok_andThen, qpushBytes]
            rw [if_neg (by omega), hcar u rfl]
            simp
          | raise c i t => rfl
          | stop f => rfl
        · rw [show k / 8 = 0 by omega, show k % 8 = k by omega]
          show (if 0 < k then qpush k m else _) = r
          rw [if_pos hpos, hr]
      rcases hq with ⟨u, hu⟩ | ⟨h1, h2, h3, t, ht⟩
      · left
        obtain ⟨g1, g2, g3, g4, g5, g6⟩ := one u hu
        refine ⟨u, hform _ hu (fun v hv => ?_), g1, g2, g3, g4, g5, g6⟩
        cases hv; exact g4
      · right
        have hk : k = 8 := by omega
        refine ⟨⟨by rw [← hmc, h1], ?_⟩, by rw [← hmr, h2], t, hform _ ht fun v hv => by cases hv⟩
        have hlow := low.isLt
        have h255 : low.toNat / 2 ^ 24 = 255 := by
          refine Decidable.byContradiction fun hb => ?_
          rw [hk, qpush_bypass hmp h1, hml,
            defer_definite fun he => hb ((ofNat_eq_fill (by omega)).1 he)] at ht
          cases ht
        exact top_fill hg h255
  unfold flushFrom
  rw [hm]
  rcases bits with ⟨u, hu, hut, hup, hul, huc, huv, hulen⟩ | ⟨h1, h2, t, ht⟩
  · left
    rw [hu, Micro.ok_andThen]
    have hpad : ∃ w, flushPad u = .ok w := by
      cases hw : flushPad u with
      | ok w => exact ⟨w, rfl⟩
      | raise c i w =>
        exfalso
        unfold flushPad at hw
        split at hw
        · rename_i hz
          -- a padded byte is even, so it is definite
          have hb : BitVec.ofNat 8 (u.pb * 2 ^ (8 - u.pcnt.toNat)) ≠ 0xFF := by
            intro hbad
            have := congrArg BitVec.toNat hbad
            rw [BitVec.toNat_ofNat] at this
            have hp7 := u.pcnt.isLt
            rw [show 8 - u.pcnt.toNat = (7 - u.pcnt.toNat) + 1 by omega, Nat.pow_succ,
              ← Nat.mul_assoc] at this
            have h255 : (0xFF : Byte).toNat = 255 := rfl
            rw [h255] at this
            omega
          rw [defer_definite hb] at hw
          cases hw
        · cases hw
      | stop f =>
        exfalso
        unfold flushPad at hw
        split at hw
        · exact defer_ne_stop _ _ _ hw
        · cases hw
    obtain ⟨w, hw⟩ := hpad
    rw [hw, Micro.ok_andThen]
    obtain ⟨k1, k2, k3, k4, k5, k6⟩ := flush_tail hk8 hut hup hul huc huv hw
    have hfin := finalize_eq w
    refine ⟨_, if significantBits low = 0 then 0 else 1, rfl, ⟨by split <;> omega, ?_⟩, ?_, ?_, ?_, ?_, rfl⟩
    · rw [← hk0]
      split <;> simp_all
    · rw [hfin]
      show (w.out ++ w.tailBytes).length = _
      rw [k2, hulen, hmlen]
      split <;> split <;> omega
    · rw [hfin]
      show bytesValue (w.out ++ w.tailBytes) * _ = _
      rw [← hmv]
      split
      · rename_i hz
        rw [if_pos hz] at k1
        simpa using k1
      · rename_i hz
        rw [if_neg hz] at k1
        have : bytesValue (w.out ++ w.tailBytes) * 2 ^ 24 * 2 ^ 8 = m.streamValue * 2 ^ 8 := by
          rw [← k1, Nat.mul_assoc, ← Nat.pow_add]
        exact Nat.eq_of_mul_eq_mul_right (Nat.two_pow_pos 8) this
    · rw [hfin]; exact ⟨rfl, k4, k5, k6⟩
    · rw [hfin]; exact ⟨rfl, rfl, rfl⟩
  · right
    rw [ht]
    exact ⟨h1, h2, t, rfl⟩

/-- The flush of a low bound of 0xFF000000 at the greatest run length: QPUSH's own writes stand, and MODE is
not written (R185, R273). -/
theorem flushFrom_overflow {s : State} (hp : s.pcnt = 0) (hr : s.runLen = 0xFFFFFFFF) :
    flushFrom false 0xFF000000 s = .raise .runLengthOverflow 0 { s with low := 0, carry := false, pbits := 0 } := by
  have hk : significantBits 0xFF000000 = 8 := by decide
  have h255 : (0xFF000000 : Word).toNat / 2 ^ 24 = 255 := by decide
  unfold flushFrom
  rw [hk, flushBits, show 8 / 8 = 0 + 1 from rfl, qpushBytes,
    qpush_overflow (s := { s with carry := false, low := 0xFF000000 }) hp rfl h255 hr]
  show Micro.raise _ _ _ = _
  rw [show (0xFF000000 : Word) <<< 8 = 0 by decide]

/-- The flush of an exact carry, with no bit behind it: the held byte plus one and the run as zeros (R185,
R146). -/
theorem flushFrom_carry {s : State} (hp : s.pcnt = 0) (hv : s.heldV = true) (hd : s.held ≠ 0xFF) :
    ∃ t, flushFrom true 0 s = .ok t ∧ t.mode = .fin ∧
      t.out = s.out ++ (s.held + 1) :: List.replicate s.runLen.toNat 0x00 := by
  have hp0 : s.pcnt.toNat = 0 := by rw [hp]; rfl
  unfold flushFrom
  rw [show significantBits 0 = 0 from rfl, flushBits, show 0 / 8 = 0 from rfl, qpushBytes,
    Micro.ok_andThen, if_neg (by omega)]
  dsimp only
  rw [if_pos rfl, emitCarry_held (s := { s with carry := false, low := 0 }) hv hd, Micro.ok_andThen,
    flushPad, if_neg (by show ¬ 0 < s.pcnt.toNat; omega), Micro.ok_andThen, finalize_eq]
  exact ⟨_, rfl, rfl, by simp [State.tailBytes]⟩

end Sys2Proof.Machine
end

