-- ==== Sys2Proof/Laws/Match.lean ====
section
/-! SUPPORT. The laws behind MATCH as a run of commands (43_recovery.md R243): one D.BIT of a decode session
is one decision of the private decoder, and the decode that DecodeMatch describes has one verdict. -/

namespace Sys2Proof.Machine

/-- A decode session that stands where the private decoder stands: the same RANGE, CODE and IPOS, the same
stream, and no fault. -/
structure Mirrors (rd : Word → Except Fault Byte) (e : Dec) (d : State) : Prop where
  ok      : d.faulted = false
  session : d.mode = .dec
  regs    : d.decoder = e
  stream  : inByte d = rd

theorem Mirrors.range {rd : Word → Except Fault Byte} {e : Dec} {d : State} (h : Mirrors rd e d) :
    d.range = e.range := by rw [← h.regs]; rfl

/-- A bound that MATCH faults on is a split point that D.BIT faults on (R212, R243). -/
theorem Mirrors.dBit_bad {rd : Word → Except Fault Byte} {e : Dec} {d : State} (h : Mirrors rd e d)
    {x : Word} (hx : splitBad x e.range = true) :
    ∃ d', exec (.dBit x) d = .next d' ∧ d'.faulted = true ∧ d'.faultCode = 3 :=
  ⟨_, exec_dBit_interval h.session (by rw [h.range]; exact hx), rfl, rfl⟩

/-- One decision of the private decoder is one D.BIT (R212, R243). -/
theorem Mirrors.dBit_ok {rd : Word → Except Fault Byte} {e e' : Dec} {d : State} {bit : Bool}
    (h : Mirrors rd e d) {x : Word} (hx : splitBad x e.range = false)
    (hd : Dec.decideAt rd x e = (bit, .ok e')) :
    ∃ d', exec (.dBit x) d = .next d' ∧ d'.dbit = bit ∧ Mirrors rd e' d' := by
  have hreg := h.regs
  subst hreg
  obtain ⟨hb, ha⟩ := Prod.mk.inj hd
  rw [exec_dBit_body h.session hx, h.stream]
  rw [show Dec.advance rd (splitOffset (decidedBit d.code x) x)
    (splitWidth (decidedBit d.code x) x d.range) d.decoder = .ok e' from ha]
  exact ⟨_, rfl, hb, h.ok, h.session, rfl, h.stream⟩

/-- The decode that DecodeMatch describes ends in one verdict only. -/
theorem DecodeMatch.unique {St : Type} {m : Model St} {maxDpb : Nat} {pt : Nat → Byte} {plen n k : Nat}
    {σ : St} {d : State} {v w : Verdict} (hv : DecodeMatch m maxDpb pt plen n k σ d v)
    (hw : DecodeMatch m maxDpb pt plen n k σ d w) : v = w := by
  induction hv with
  | hit hn => cases hw <;> first | rfl | omega
  | badBound hn hd hf hc => cases hw <;> simp_all <;> omega
  | miss hn hd hf hy hne => cases hw <;> simp_all <;> omega
  | byte hn hd hf hy he rest ih =>
    cases hw with
    | hit hn' => omega
    | badBound hn' hd' hf' hc' => simp_all
    | miss hn' hd' hf' hy' hne' => simp_all
    | byte hn' hd' hf' hy' he' rest' =>
      rw [hd] at hd'; cases hd'
      rw [hy] at hy'; cases hy'
      exact ih rest'
    | nonProgress hn' hd' hf' hy' hk' => simp_all
    | decision hn' hd' hf' hy' hk' rest' => simp_all
  | nonProgress hn hd hf hy hk => cases hw <;> simp_all <;> omega
  | decision hn hd hf hy hk rest ih =>
    cases hw with
    | hit hn' => omega
    | badBound hn' hd' hf' hc' => simp_all
    | miss hn' hd' hf' hy' hne' => simp_all
    | byte hn' hd' hf' hy' he' rest' => simp_all
    | nonProgress hn' hd' hf' hy' hk' => simp_all
    | decision hn' hd' hf' hy' hk' rest' =>
      rw [hd] at hd'; cases hd'
      rw [hy] at hy'; cases hy'
      exact ih rest'

end Sys2Proof.Machine
end

