-- ==== Sys2Proof/Laws/Memory.lean ====
section
/-! SUPPORT. The laws of a buffer's written bytes: reading after writing, and that every operation
keeps the canonical form, in which equal buffers are equal lists. -/

namespace Sys2Proof.Machine

theorem Memory.read_write_same (m : Memory) (a : Nat) (v : Byte) :
    Memory.read (Memory.write m a v) a = some v := by
  induction m with
  | nil => simp [Memory.write, Memory.read]
  | cons c m ih =>
    obtain ⟨b, w⟩ := c
    simp only [Memory.write]
    split
    · simp [Memory.read]
    · split
      · simp [Memory.read]
      · rename_i h; simp [Memory.read, h, ih]

theorem Memory.read_write_other (m : Memory) (a a' : Nat) (v : Byte) (h : a' ≠ a) :
    Memory.read (Memory.write m a v) a' = Memory.read m a' := by
  induction m with
  | nil => simp [Memory.write, Memory.read, h]
  | cons c m ih =>
    obtain ⟨b, w⟩ := c
    simp only [Memory.write]
    split
    · simp [Memory.read, h]
    · split
      · rename_i hb; subst hb; simp [Memory.read, h]
      · simp only [Memory.read, ih]

theorem Memory.wfFrom_write (size lo : Nat) (m : Memory) (a : Nat) (v : Byte)
    (hm : Memory.wfFrom size lo m = true) (hlo : lo ≤ a) (ha : a < size) :
    Memory.wfFrom size lo (Memory.write m a v) = true := by
  induction m generalizing lo with
  | nil => simp [Memory.write, Memory.wfFrom, hlo, ha]
  | cons c m ih =>
    obtain ⟨b, w⟩ := c
    simp only [Memory.wfFrom, Bool.and_eq_true, decide_eq_true_eq] at hm
    simp only [Memory.write]
    split
    · simp only [Memory.wfFrom, Bool.and_eq_true, decide_eq_true_eq]
      exact ⟨⟨hlo, ha⟩, ⟨by omega, hm.1.2⟩, hm.2⟩
    · split
      · rename_i hb; subst hb
        simp only [Memory.wfFrom, Bool.and_eq_true, decide_eq_true_eq]
        exact ⟨⟨hlo, ha⟩, hm.2⟩
      · simp only [Memory.wfFrom, Bool.and_eq_true, decide_eq_true_eq]
        exact ⟨hm.1, ih (b + 1) hm.2 (by omega)⟩

/-- A write inside the buffer keeps the canonical form. -/
theorem Memory.wf_write (size : Nat) (m : Memory) (a : Nat) (v : Byte)
    (hm : Memory.wf size m = true) (ha : a < size) : Memory.wf size (Memory.write m a v) = true :=
  Memory.wfFrom_write size 0 m a v hm (Nat.zero_le a) ha

/-- A canonical list holds no address below its bound. -/
theorem Memory.read_below (size lo : Nat) (m : Memory) (a : Nat)
    (hm : Memory.wfFrom size lo m = true) (ha : a < lo) : Memory.read m a = none := by
  induction m generalizing lo with
  | nil => rfl
  | cons c m ih =>
    obtain ⟨b, w⟩ := c
    simp only [Memory.wfFrom, Bool.and_eq_true, decide_eq_true_eq] at hm
    rw [Memory.read, if_neg (by omega)]
    exact ih (b + 1) hm.2 (by omega)

/-- In canonical form, buffers that read alike are the same list. -/
theorem Memory.wfFrom_ext (size lo : Nat) (m m' : Memory)
    (hm : Memory.wfFrom size lo m = true) (hm' : Memory.wfFrom size lo m' = true)
    (h : ∀ a, Memory.read m a = Memory.read m' a) : m = m' := by
  induction m generalizing lo m' with
  | nil =>
    cases m' with
    | nil => rfl
    | cons c m' => simpa [Memory.read] using h c.1
  | cons c m ih =>
    obtain ⟨b, w⟩ := c
    cases m' with
    | nil => simpa [Memory.read] using h b
    | cons c' m' =>
      obtain ⟨b', w'⟩ := c'
      simp only [Memory.wfFrom, Bool.and_eq_true, decide_eq_true_eq] at hm hm'
      have hb : b = b' := by
        rcases Nat.lt_trichotomy b b' with hlt | heq | hgt
        · have := h b
          rw [Memory.read, if_pos rfl, Memory.read, if_neg (by omega),
            Memory.read_below size (b' + 1) m' b hm'.2 (by omega)] at this
          cases this
        · exact heq
        · have := h b'
          rw [Memory.read, if_neg (by omega), Memory.read_below size (b + 1) m b' hm.2 (by omega),
            Memory.read, if_pos rfl] at this
          cases this
      subst hb
      have hw : w = w' := by simpa [Memory.read] using h b
      subst hw
      rw [ih (b + 1) m' hm.2 hm'.2]
      intro a
      by_cases ha : a = b
      · subst ha
        rw [Memory.read_below size (a + 1) m a hm.2 (by omega),
          Memory.read_below size (a + 1) m' a hm'.2 (by omega)]
      · simpa [Memory.read, ha] using h a

end Sys2Proof.Machine
end

