-- ==== Sys2Proof/Laws/PerInstr.lean ====
section
/-! SUPPORT. Statements about every command as syntax, made per command (LAWS.json). -/

namespace Sys2Proof.Laws.WellFormedEncoding

/-- The words of a command are a well-formed packet with the command's opcode and N operand words
(R100, R103, R106). -/
def Statement (i : Instr) : Prop :=
  ∃ h ops, encode i = h :: ops ∧ Packet.wellFormed { header := headerOf h, operands := ops } = true ∧
    classify h = .ok i.opcode ∧ ops.length = i.opcode.operandCount

theorem eInit : Statement .eInit := ⟨_, _, rfl, rfl, rfl, rfl⟩

theorem eAdv (u w : Word) : Statement (.eAdv u w) := ⟨_, _, rfl, rfl, rfl, rfl⟩

theorem eBit (sym : Bool) (bound : Word) : Statement (.eBit sym bound) := by
  cases sym <;> exact ⟨_, _, rfl, rfl, rfl, rfl⟩

theorem eFlush : Statement .eFlush := ⟨_, _, rfl, rfl, rfl, rfl⟩

theorem dInit (ilen : Word) : Statement (.dInit ilen) := ⟨_, _, rfl, rfl, rfl, rfl⟩

theorem dAdv (u w : Word) : Statement (.dAdv u w) := ⟨_, _, rfl, rfl, rfl, rfl⟩

theorem dBit (bound : Word) : Statement (.dBit bound) := ⟨_, _, rfl, rfl, rfl, rfl⟩

theorem recover (tlen plen : Word) : Statement (.recover tlen plen) := ⟨_, _, rfl, rfl, rfl, rfl⟩

end Sys2Proof.Laws.WellFormedEncoding
end

