-- ==== Sys2Proof/Laws/RoundTrip.lean ====
section
/-! SUPPORT. The laws behind the round trip (41_encode.md R189): a byte string padded with zero bytes as
a number, the window of it that an open encode session has fixed, and one step of the decoder's CODE. -/

namespace Sys2Proof.Machine

/-! ## Padded byte strings -/

/-- Byte `i` of a byte string padded with zero bytes (R73). -/
def padByte (bs : List Byte) (i : Nat) : Byte := (bs[i]?).getD 0x00

/-- The first `m` bytes of a padded byte string, as a number. -/
def padValue (bs : List Byte) : Nat → Nat
  | 0 => 0
  | m + 1 => padValue bs m * 256 + (padByte bs m).toNat

theorem padValue_append (as bs : List Byte) : padValue (as ++ bs) as.length = bytesValue as := by
  have key : ∀ m, m ≤ as.length → padValue (as ++ bs) m = bytesValue (as.take m) := by
    intro m
    induction m with
    | zero => intro _; rfl
    | succ m ih =>
      intro h
      have hm : m < as.length := by omega
      rw [padValue, ih (by omega), List.take_succ_eq_append_getElem hm, bytesValue_concat, padByte,
        List.getElem?_append_left hm, List.getElem?_eq_getElem hm]
      rfl
  rw [key _ (Nat.le_refl _), List.take_length]

/-- Past its end a padded byte string goes on with zero bytes. -/
theorem padValue_past (bs : List Byte) (k : Nat) :
    padValue bs (bs.length + k) = bytesValue bs * 256 ^ k := by
  induction k with
  | zero =>
    have := padValue_append bs []
    rw [List.append_nil] at this
    simpa using this
  | succ k ih =>
    rw [← Nat.add_assoc, padValue, ih, padByte, List.getElem?_eq_none (by omega), Nat.pow_succ]
    simp [Nat.mul_assoc]

/-- A longer window, cut back. -/
theorem padValue_cut (bs : List Byte) (m k : Nat) : padValue bs (m + k) / 256 ^ k = padValue bs m := by
  induction k with
  | zero => simp
  | succ k ih =>
    rw [← Nat.add_assoc, padValue, Nat.pow_succ, Nat.mul_comm (256 ^ k), ← Nat.div_div_eq_div_mul]
    have := (padByte bs (m + k)).isLt
    rw [show (padValue bs (m + k) * 256 + (padByte bs (m + k)).toNat) / 256 = padValue bs (m + k) by omega,
      ih]

/-! ## One step of the decoder -/

/-- IPOS after more reads, stopping at `m` (R151). -/
theorem min_add (a k m : Nat) : min (min a m + k) m = min (a + k) m := by omega

/-- The saturated IPOS fits its register (R151). -/
theorem ipos_toNat (x : Nat) : (BitVec.ofNat 32 (min x 4294967295)).toNat = min x 4294967295 := by
  rw [BitVec.toNat_ofNat]
  exact Nat.mod_eq_of_lt (Nat.lt_of_le_of_lt (Nat.min_le_right _ _) (by decide))

/-- An index past 2^32 - 1 and the index IPOS stops at both read the sentinel (R73, R151). -/
theorem streamByte_min {s : State} (h : s.ilen.toNat ≤ 4294967295) (x : Nat) :
    s.streamByte (min x 4294967295) = s.streamByte x := by
  unfold State.streamByte
  rcases Nat.lt_or_ge x 4294967295 with hx | hx
  · rw [Nat.min_eq_left (Nat.le_of_lt hx)]
  · rw [Nat.min_eq_right hx, if_neg (Nat.not_lt.2 h), if_neg (Nat.not_lt.2 (Nat.le_trans h hx))]

/-- CODE after `k` bytes, as a number modulo 2^32 (R151). -/
theorem codeAfter_toNat (f : Nat → Byte) (g : Nat → Byte) (i m k : Nat) (code : Word)
    (hf : ∀ j, f (min (i + j) 4294967295) = g (m + j)) (bs : List Byte)
    (hg : ∀ j, g (m + j) = padByte bs (m + j)) (x : Nat)
    (hx : (code.toNat + x) % 2 ^ 32 = padValue bs m % 2 ^ 32) :
    ((codeAfter f i k code).toNat + x * 256 ^ k) % 2 ^ 32 = padValue bs (m + k) % 2 ^ 32 := by
  induction k with
  | zero => simpa [codeAfter] using hx
  | succ k ih =>
    have hstep : codeAfter f i (k + 1) code =
        pushCode (codeAfter f i k code) (f (min (i + k) 4294967295)) := by
      unfold codeAfter
      rw [List.range_succ, List.foldl_append]
      rfl
    rw [hstep, ← Nat.add_assoc, padValue, hf k, hg k]
    generalize codeAfter f i k code = c at ih
    generalize padByte bs (m + k) = b
    have hb := b.isLt
    have hp : (pushCode c b).toNat = (c.toNat * 256 % 2 ^ 32 + b.toNat) % 2 ^ 32 := by
      rw [pushCode, BitVec.toNat_add, BitVec.toNat_shiftLeft, BitVec.toNat_setWidth, Nat.shiftLeft_eq,
        Nat.mod_eq_of_lt (a := b.toNat) (by omega)]
    rw [hp, show 256 ^ (k + 1) = 256 ^ k * 256 from rfl, ← Nat.mul_assoc]
    generalize x * 256 ^ k = y at ih
    generalize padValue bs (m + k) = z at ih
    omega

/-! ## The window of an open encode session -/

/-- The whole bytes an encoder has produced: those of OUT and those of its tail. -/
def State.produced (s : State) : Nat := s.out.length + s.tailBytes.length

/-- An open encode session that has taken no fault, with the invariants of R45. -/
structure Session (s : State) : Prop where
  ok : s.faulted = false
  enc : s.mode = .enc
  tail : s.tailOk
  inv : s.encodeInv

theorem Session.bitCount {s : State} (h : Session s) : s.bitCount = 8 * s.produced := by
  have hp0 : s.pcnt.toNat = 0 := by rw [h.inv.2.2.1.1]; rfl
  rw [State.bitCount, hp0, List.length_append]
  rfl

theorem Session.streamValue {s : State} (h : Session s) :
    s.streamValue = bytesValue (s.out ++ s.tailBytes) * 2 ^ 32 + s.lowf := by
  have hp0 : s.pcnt.toNat = 0 := by rw [h.inv.2.2.1.1]; rfl
  have hpb : s.pb = 0 := by have := pb_lt s; rw [hp0] at this; omega
  rw [State.streamValue, State.streamBits, hp0, hpb]
  simp

theorem intervalBad_eq_false {u w r : Word} :
    intervalBad u w r = false ↔ 1 ≤ w.toNat ∧ u.toNat + w.toNat ≤ r.toNat := by
  refine ⟨not_intervalBad, fun ⟨h1, h2⟩ => ?_⟩
  simp only [intervalBad, Bool.or_eq_false_iff, beq_eq_false_iff_ne, decide_eq_false_iff_not]
  refine ⟨?_, by omega⟩
  rintro rfl
  exact absurd h1 (by simp)

/-- E.ADV of an open session that takes no fault: the sub-interval was good, and the session goes on with
`k` bytes more (R181, R183, R154). -/
theorem Session.eAdv {s t : State} {u w : Word} (h : Session s) (he : exec (.eAdv u w) s = .next t)
    (ht : t.faulted = false) :
    1 ≤ w.toNat ∧ u.toNat + w.toNat ≤ s.range.toNat ∧ Session t ∧ s.out <+: t.out ∧
    ∃ k, k ≤ 3 ∧ RenormCount w.toNat k ∧ t.range = w <<< (8 * k) ∧
      t.streamValue = (s.streamValue + u.toNat) * 2 ^ (8 * k) ∧ t.produced = s.produced + k := by
  cases hb : intervalBad u w s.range with
  | true => rw [exec_eAdv_interval h.enc hb] at he; cases he; cases ht
  | false =>
    obtain ⟨h1, h2⟩ := not_intervalBad hb
    rw [exec_eAdv_body h.enc hb] at he
    have hfr := advanceE_frame u w s
    have htk := advanceE_tailOk u w h.tail
    rcases advanceE_session h.tail.2.1 h.tail.1 h.inv h1 h2 with
      ⟨t', j, ht', hj, hc, htr, hv, hbc, hl, -⟩ | ⟨-, -, -, t', ht'⟩
    · rw [ht'] at he hfr htk
      cases he
      obtain ⟨⟨bs, hbs, -⟩, hf⟩ := hfr
      have hs : Session t := ⟨ht, by rw [hf]; exact h.enc, htk,
        ⟨hl.2.2.1, hl.2.2.2.1, hl.2.2.2.2.1, by rw [htr]; exact hc.1⟩⟩
      refine ⟨h1, h2, hs, ⟨bs, hbs.symm⟩, j, hj, hc, ?_, hv, ?_⟩
      · exact BitVec.eq_of_toNat_eq (by rw [htr, renormCount_shift hj hc])
      · have h3 := hs.bitCount
        rw [hbc, h.bitCount] at h3
        omega
    · rw [ht'] at he; cases he; cases ht

/-- E.FLUSH of an open session that takes no fault: the stream it leaves, padded with zero bytes, lies in
the session's last interval (R185, R186). -/
theorem Session.eFlush {s t : State} (h : Session s) (he : exec .eFlush s = .next t)
    (ht : t.faulted = false) :
    s.out <+: t.out ∧ s.streamValue ≤ padValue t.out (s.produced + 4) ∧
    padValue t.out (s.produced + 4) < s.streamValue + s.range.toNat := by
  obtain ⟨v, hv, hlo, hhi, hdv⟩ := flushValue_wide (lowf := s.lowf) h.inv.2.2.2
  have hv33 : v < 2 ^ 33 := Nat.lt_trans hhi h.inv.2.1
  have hg : 2 ^ 24 ∣ (BitVec.ofNat 32 v).toNat := by rw [BitVec.toNat_ofNat]; omega
  have hfr := flushFrom_frame (decide (2 ^ 32 ≤ v)) (BitVec.ofNat 32 v) s
  rw [exec_eFlush_body h.enc, flushOpen_eq (flushPoint_eq hv hv33)] at he
  dsimp only at he
  have hcar : decide (2 ^ 32 ≤ v) = true → s.heldV = true := by
    intro hc
    have hc := of_decide_eq_true hc
    cases hh : s.heldV with
    | true => rfl
    | false => have := h.inv.1 hh; omega
  rcases flushFrom_session (c := decide (2 ^ 32 ≤ v)) h.tail h.inv.2.2.1.1 hcar hg with
    ⟨t', j, ht', hj, hlen, hbv, -⟩ | ⟨-, -, t', ht'⟩
  · rw [ht'] at he hfr
    cases he
    obtain ⟨⟨bs, hbs, -⟩, -⟩ := hfr
    have hval : (decide (2 ^ 32 ≤ v)).toNat * 2 ^ 32 + (BitVec.ofNat 32 v).toNat = v := by
      rw [BitVec.toNat_ofNat]
      by_cases hc : 2 ^ 32 ≤ v
      · rw [decide_eq_true hc]; change 1 * 2 ^ 32 + v % 2 ^ 32 = v; omega
      · rw [decide_eq_false hc]; change 0 * 2 ^ 32 + v % 2 ^ 32 = v; omega
    rw [hval] at hbv
    have hpad : padValue t.out (s.produced + 4) =
        bytesValue (s.out ++ s.tailBytes) * 2 ^ 32 + v := by
      rw [← hbv, show s.produced + 4 = t.out.length + (4 - j) by
        rw [hlen, State.produced]; omega, padValue_past]
      congr 1
      rw [show (256 : Nat) = 2 ^ 8 from rfl, ← Nat.pow_mul]
      congr 1
      omega
    refine ⟨⟨bs, hbs.symm⟩, ?_, ?_⟩ <;> rw [hpad, h.streamValue] <;> omega
  · rw [ht'] at he; cases he; cases ht

/-- No command clears a fault (R275). -/
theorem execAll_faulted {is : List Instr} {s t : State}
    (hi : ∀ i ∈ is, ∀ u v : State, exec i u = .next v → u.faulted = true → v.faulted = true)
    (h : execAll is s = .next t) (ht : t.faulted = false) : s.faulted = false := by
  induction is generalizing s with
  | nil => cases h; exact ht
  | cons i is ih =>
    obtain ⟨u, hu, hr⟩ := execAll_next h
    have hf := ih (fun j hj => hi j (List.mem_cons_of_mem _ hj)) hr
    cases hs : s.faulted with
    | false => rfl
    | true => rw [hi i List.mem_cons_self s u hu hs] at hf; cases hf

end Sys2Proof.Machine
end

