-- ==== Sys2Proof/Laws/Step.lean ====
section
/-! SUPPORT. What one step does, case by case, and the inversion of a step: every next state is one of
five. -/

namespace Sys2Proof.Machine

theorem step_faulted {s : State} (hf : s.faulted = true) : step s = .next s.dropWord := by
  simp [step, fetch, hf]

theorem step_empty {s : State} (hf : s.faulted = false) (hc : s.cmd = []) : step s = .next s := by
  simp [step, fetch, hf, hc, decode]

theorem step_incomplete {s : State} (hf : s.faulted = false) (hd : decode s.cmd = .incomplete) :
    step s = .next s := by
  simp [step, fetch, hf, hd]

theorem step_illegal {s : State} {why : Illegal} (hf : s.faulted = false)
    (hd : decode s.cmd = .illegal why) :
    step s = .next
      (s.dropWord.enterFault (headerOpcode (s.cmd.headD 0)) .illegalCommand (s.cmd.headD 0)) := by
  simp [step, fetch, hf, hd]

theorem step_packet {s : State} {i : Instr} {rest : List Word} (hf : s.faulted = false)
    (hd : decode s.cmd = .packet i rest) : step s = exec i { s with cmd := rest } := by
  simp [step, fetch, hf, hd]

/-- With no word waiting, a dropped word changes nothing. -/
theorem dropWord_empty {s : State} (hc : s.cmd = []) : s.dropWord = s := by
  cases s; cases hc; rfl

/-- Every way a step can give its next state: an ignored word, waiting, an illegal header, a command. -/
theorem step_cases {s t : State} (h : step s = .next t) :
    (s.faulted = true ∧ t = s.dropWord) ∨
    (s.faulted = false ∧ (s.cmd = [] ∨ decode s.cmd = .incomplete) ∧ t = s) ∨
    (s.faulted = false ∧ ∃ hd rest why, s.cmd = hd :: rest ∧ decode s.cmd = .illegal why ∧
      t = { s with cmd := rest }.enterFault (headerOpcode hd) .illegalCommand hd) ∨
    (s.faulted = false ∧ ∃ i rest, decode s.cmd = .packet i rest ∧
      exec i { s with cmd := rest } = .next t) := by
  rcases Bool.eq_false_or_eq_true s.faulted with hf | hf
  · rw [step_faulted hf] at h; cases h; exact .inl ⟨hf, rfl⟩
  refine .inr ?_
  rcases hd : decode s.cmd with _ | ⟨i, rest⟩ | _ | why
  · have hc : s.cmd = [] := by
      rcases hc : s.cmd with _ | ⟨w, ws⟩
      · rfl
      rw [hc] at hd; simp only [decode] at hd
      rcases hk : classify w with e | op
      · rw [hk] at hd; cases hd
      rw [hk] at hd; dsimp only at hd; revert hd
      cases op <;> (rcases ws with _ | ⟨a, _ | ⟨b, l⟩⟩) <;> simp [assemble]
    rw [step_empty hf hc] at h; cases h; exact .inl ⟨hf, .inl hc, rfl⟩
  · rw [step_packet hf hd] at h
    exact .inr (.inr ⟨hf, i, rest, rfl, h⟩)
  · rw [step_incomplete hf hd] at h; cases h; exact .inl ⟨hf, .inr rfl, rfl⟩
  · rw [step_illegal hf hd] at h; cases h
    have : ∃ w ws, s.cmd = w :: ws := by
      rcases hc : s.cmd with _ | ⟨w, ws⟩
      · rw [hc] at hd; cases hd
      · exact ⟨w, ws, rfl⟩
    obtain ⟨w, ws, hc⟩ := this
    exact .inr (.inl ⟨hf, w, ws, why, hc, rfl, by simp [State.dropWord, hc]⟩)

/-- A run of one step more. -/
theorem run_succ {s t : State} (k : Nat) (h : step s = .next t) :
    Host.Core.run Sys2Proof.core (k + 1) s = Host.Core.run Sys2Proof.core k t := by
  have : Sys2Proof.core.step s = .next t := h
  simp only [Host.Core.run, this]

end Sys2Proof.Machine
end

