-- ==== Sys2Proof/Tests/Slice0.lean ====
section
/-! SUPPORT. Tests of the model, each with its expected result from the spec: the smoke test of the
well-formedness checks, words written out from R101 and R103, and vectors of 95_test_vectors.md. -/

open Sys2Proof Sys2Proof.Machine

namespace Sys2Proof.Tests

/- One theorem at a time: a task of its own for each would ask for more threads than a small machine has. -/
set_option Elab.async false

/-! ## Helpers -/

/-- The machine of the vectors after reset: IN_SIZE = PT_SIZE = 64, MAX_DPB = 8, and TM1. -/
def fresh : State := State.resetWith { inSize := 64, ptSize := 64, maxDpb := 8, model := .tm1 } 0

/-- A buffer that the host has filled from address 0 on. -/
def cells (bs : List Byte) : Memory := bs.zipIdx.map fun e => (e.2, e.1)

/-- The fresh machine with IN and PT filled. -/
def loaded (inBytes ptBytes : List Byte) : State :=
  { fresh with inMem := cells inBytes, ptMem := cells ptBytes }

/-- A property of the next state, false where there is none. -/
def holdsNext (o : Host.Outcome State Fault Refusal) (p : State → Bool) : Bool :=
  match o with
  | .next s => p s
  | .fault _ => false
  | .refused _ => false

/-- A property of the state a micro-operation ends in, false where it does not run to its end. -/
def holdsOk (m : Micro) (p : State → Bool) : Bool :=
  match m with
  | .ok s => p s
  | .raise _ _ _ => false
  | .stop _ => false

/-- The four fault registers, a test of all at once. -/
def faultIs (code op : Byte) (info : Word) (s : State) : Bool :=
  s.faulted && s.faultCode == code && s.faultOp == op && s.faultInfo == info

theorem holdsNext_spec {o : Host.Outcome State Fault Refusal} {p : State → Bool}
    (h : holdsNext o p = true) : ∃ t, o = .next t ∧ p t = true := by
  cases o with
  | next s => exact ⟨s, rfl, h⟩
  | fault f => cases h
  | refused r => cases h

theorem holdsOk_spec {m : Micro} {p : State → Bool} (h : holdsOk m p = true) :
    ∃ t, m = .ok t ∧ p t = true := by
  cases m with
  | ok s => exact ⟨s, rfl, h⟩
  | raise c i s => cases h
  | stop f => cases h

/-! ## WellFormed refuses a packet that breaks each check, and accepts a good one (R103, R104) -/

/-- OPC = 0x05 is not one of R103's eight values. -/
theorem test_wf_refuses_unknown_opcode :
    Packet.wellFormed ⟨⟨0x05, false, 0⟩, []⟩ = false ∧ Header.opcodeKnown ⟨0x05, false, 0⟩ = false := by
  decide

/-- RSV is not 0. -/
theorem test_wf_refuses_reserved_bits :
    Packet.wellFormed ⟨⟨0x03, true, 1⟩, [5]⟩ = false ∧ Header.reservedClear ⟨0x03, true, 1⟩ = false := by
  decide

/-- S is set on E.FLUSH. -/
theorem test_wf_refuses_symbol_bit :
    Packet.wellFormed ⟨⟨0x04, true, 0⟩, []⟩ = false ∧ Header.symbolAllowed ⟨0x04, true, 0⟩ = false := by
  decide

/-- E.ADV takes two operand words, no fewer and no more. -/
theorem test_wf_refuses_operand_count :
    Packet.wellFormed ⟨⟨0x02, false, 0⟩, [1]⟩ = false ∧
      Packet.wellFormed ⟨⟨0x02, false, 0⟩, [1, 2, 3]⟩ = false := by
  decide

/-- R107's examples are well formed. -/
theorem test_wf_accepts_examples :
    Packet.wellFormed ⟨⟨0x02, false, 0⟩, [0x12FF8000, 0x00010000]⟩ = true ∧
      Packet.wellFormed ⟨⟨0x03, true, 0⟩, [0x80000000]⟩ = true := by
  decide

/-! ## One packet of each command, its words written out from R101 and R103 -/

theorem test_decode_eInit :
    decode [0b00000000000000000000000000000001#32] = .packet .eInit [] := by decide

theorem test_decode_eAdv :
    decode [0b00000000000000000000000000000010#32, 0x12FF8000#32, 0x00010000#32, 0x00000007#32] =
      .packet (.eAdv 0x12FF8000 0x00010000) [7] := by decide

theorem test_decode_eBit :
    decode [0b00000000000000000000000100000011#32, 0x80000000#32] = .packet (.eBit true 0x80000000) [] ∧
    decode [0b00000000000000000000000000000011#32, 0x7FFFF800#32] =
      .packet (.eBit false 0x7FFFF800) [] := by decide

theorem test_decode_eFlush :
    decode [0b00000000000000000000000000000100#32] = .packet .eFlush [] := by decide

theorem test_decode_dInit :
    decode [0b00000000000000000000000000010001#32, 0x00000003#32] = .packet (.dInit 3) [] := by decide

theorem test_decode_dAdv :
    decode [0b00000000000000000000000000010010#32, 0x12345678#32, 0x00000100#32] =
      .packet (.dAdv 0x12345678 0x100) [] := by decide

theorem test_decode_dBit :
    decode [0b00000000000000000000000000010011#32, 0x80000000#32] = .packet (.dBit 0x80000000) [] := by
  decide

theorem test_decode_recover :
    decode [0b00000000000000000000000000100001#32, 0x00000002#32, 0x00000003#32] =
      .packet (.recover 2 3) [] := by decide

/-- V-C1, V-C2, V-C3: the three ways a header is illegal. -/
theorem test_decode_illegal :
    decode [0x00000005#32] = .illegal .unknownOpcode ∧
    decode [0x00000303#32, 0x00000005#32] = .illegal .reservedBits ∧
    decode [0x00000104#32] = .illegal .symbolBit := by decide

/-- The opcode table's numbering: bit 0 of the first word lowest, absent operand words 0. -/
theorem test_decodeTableWord :
    decodeTableWord 96 0x000000030000000200000021 = some (.recover 2 3) ∧
    decodeTableWord 32 0x00000103 = some (.eBit true 0) ∧ decodeTableWord 32 5 = none := by decide

/-! ## Commands -/

/-- R180: from a state with an open session, E.INIT drops what was held. -/
theorem test_eInit :
    holdsNext (execEInit { fresh with mode := .enc, held := 0x34, heldV := true, low := 5, range := 7 })
      (fun t => t.mode == .enc && t.range == 0xFFFFFFFF && t.low == 0 && !t.heldV && t.out.isEmpty) =
      true := by decide +kernel

/-- V-E4: two renormalization steps. -/
theorem test_eAdv :
    holdsNext (execEAdv 0x12345678 0x100 { fresh with mode := .enc })
      (fun t => t.out == [0x12] && t.held == 0x34 && t.heldV && t.low == 0x56780000 &&
        t.range == 0x01000000 && t.outcnt == 1) = true := by decide +kernel

/-- V-E13: the guard on a second carry faults before any write. -/
theorem test_eAdv_second_carry :
    holdsNext (execEAdv 0x10000000 0x01000000
        { fresh with mode := .enc, carry := true, low := 0xF0000000, range := 0x20000000 })
      (fun t => faultIs 5 0x02 0xF0000000 t && t.low == 0xF0000000 && t.range == 0x20000000) =
      true := by decide +kernel

/-- V-E8: a one at the top of the interval, three renormalization steps of 0xFF. -/
theorem test_eBit :
    holdsNext (execEBit true 0xFFFFFFFE { fresh with mode := .enc })
      (fun t => t.runLen == 3 && t.low == 0xFE000000 && t.range == 0x01000000 && !t.heldV) =
      true := by decide +kernel

/-- P6, line 18: a zero whose renormalization resolves a carry held since line 11. -/
theorem test_eBit_resolves_carry :
    holdsNext (execEBit false 0x00A15E10
        { fresh with mode := .enc, carry := true, low := 0x70345000, range := 0x011FE000,
                     held := 0x72, heldV := true })
      (fun t => t.out == [0x73] && t.held == 0x70 && t.runPol == .allZeros && !t.carry &&
        t.low == 0x34500000 && t.range == 0xA15E1000) = true := by decide +kernel

/-- V-E9: a flush value of exactly 2^32, whose carry EMIT_CARRY resolves with no bit behind it. -/
theorem test_eFlush_carry :
    holdsNext (execEFlush
        { fresh with mode := .enc, carry := true, low := 0, range := 0x01000000,
                     held := 0x56, heldV := true })
      (fun t => t.out == [0x57] && t.mode == .fin && t.runPol == .allZeros && !t.carry) =
      true := by decide +kernel

/-- V-E8: the last byte is padded with zeros, after the run it follows. -/
theorem test_eFlush_pads :
    holdsNext (execEFlush
        { fresh with mode := .enc, runLen := 3, low := 0xFE000000, range := 0x01000000 })
      (fun t => t.out == [0xFF, 0xFF, 0xFF, 0xFE] && t.low == 0 && t.runLen == 0 && t.pcnt == 0) =
      true := by decide +kernel

/-- V-D1: the missing fourth byte is the sentinel. -/
theorem test_dInit :
    holdsNext (execDInit 3 (loaded [0x12, 0x34, 0x57] []))
      (fun t => t.code == 0x12345700 && t.ipos == 4 && t.ilen == 3 && t.mode == .dec &&
        t.range == 0xFFFFFFFF) = true := by decide +kernel

/-- V-D6: a length above IN_SIZE. -/
theorem test_dInit_too_long :
    holdsNext (execDInit 65 fresh) (fun t => faultIs 7 0x11 65 t && t.mode == .idle) = true := by
  decide +kernel

/-- V-D1: two bytes past ILEN come in. -/
theorem test_dAdv :
    holdsNext (execDAdv 0x12345678 0x100
        { loaded [0x12, 0x34, 0x57] [] with mode := .dec, code := 0x12345700, ipos := 4, ilen := 3 })
      (fun t => t.code == 0x00880000 && t.range == 0x01000000 && t.ipos == 6) = true := by
  decide +kernel

/-- V-D5: CODE outside the sub-interval is no fault. -/
theorem test_dAdv_outside :
    holdsNext (execDAdv 0 1 { fresh with mode := .dec, code := 0xFFFFFFFF, ipos := 4, ilen := 4 })
      (fun t => !t.faulted && t.code == 0xFF000000 && t.ipos == 7) = true := by decide +kernel

/-- V-D2: CODE equal to the split point decodes 1. -/
theorem test_dBit :
    holdsNext (execDBit 0x80000000 { fresh with mode := .dec, code := 0x80000000, ipos := 4, ilen := 1 })
      (fun t => t.dbit && t.code == 0 && t.range == 0x7FFFFFFF && t.ipos == 4) = true := by
  decide +kernel

/-- V-D7: a split point that leaves the upper part empty. -/
theorem test_dBit_bad_split :
    holdsNext (execDBit 0xFFFFFFFF { fresh with mode := .dec })
      (fun t => faultIs 3 0x13 0xFFFFFFFF t && !t.dbit) = true := by decide +kernel

/-- V-R7: with MAX_DPB = 7, a model of eight decisions a byte makes none; RCV_STATE stays SEARCHING. -/
theorem test_recover_no_progress :
    holdsNext (execRecover 0 1
        { loaded [] [0x41] with params := { fresh.params with maxDpb := 7 } })
      (fun t => faultIs 8 0x21 0 t && t.rcvState == .searching && !t.rcvFound) = true := by
  decide +kernel

/-- V-R1, V-R2: 0xAB alone of its neighbours reproduces "sme" under TM1, and 0xAB to 0xAD "txmw". -/
theorem test_recover_verdicts :
    [0xAA, 0xAB, 0xAC].map (matchCandidate (loaded [0x73, 0x70] [0x73, 0x6D, 0x65]) 2 3) =
      [.miss, .hit, .miss] ∧
    [0xAA, 0xAB, 0xAC, 0xAD, 0xAE].map
        (matchCandidate (loaded [0x74, 0x7E, 0xF2] [0x74, 0x78, 0x6D, 0x77]) 3 4) =
      [.miss, .hit, .hit, .hit, .miss] := by
  decide +kernel

/-! ## Micro-operations -/

/-- W1, the source's own example: the byte 0xCC. -/
theorem test_qpush_queue :
    holdsOk (qpush 8 { fresh with pcnt := 3, pbits := 54, low := 0x63000000 })
      (fun t => t.held == 0xCC && t.heldV && t.pcnt == 3 && t.pbits == 3 && t.low == 0) = true := by
  decide +kernel

/-- V-Q3: a carry absorbed in the queue. -/
theorem test_qpush_absorbs_carry :
    holdsOk (qpush 8 { fresh with pcnt := 3, pbits := 2, carry := true, low := 0x80000000 })
      (fun t => !t.carry && t.pbits == 0 && t.held == 0x70 && t.pcnt == 3 && t.out.isEmpty) = true := by
  decide +kernel

/-- V-Q4: a carry through a queue of ones. -/
theorem test_qpush_passes_carry :
    holdsOk (qpush 8
        { fresh with pcnt := 2, pbits := 3, carry := true, held := 0x41, heldV := true })
      (fun t => t.out == [0x42] && t.pbits == 0 && t.held == 0 && t.heldV && t.outcnt == 1) = true := by
  decide +kernel

/-- V-Q2: fewer than eight bits in all stay queued. -/
theorem test_qpush_short :
    holdsOk (qpush 3 { fresh with low := 0xA0000000 })
      (fun t => t.low == 0 && t.pcnt == 3 && t.pbits == 5 && !t.heldV) = true := by decide +kernel

/-- V-Q7: the carry turns the run to zeros. -/
theorem test_emitCarry :
    holdsOk (emitCarry { fresh with held := 0x12, heldV := true, runLen := 3 })
      (fun t => t.out == [0x13, 0, 0, 0] && !t.heldV && t.runLen == 0 && t.runPol == .allZeros) =
      true := by decide +kernel

/-- V-Q19: IPOS saturates. -/
theorem test_renormD_saturates :
    Dec.renorm (inByte fresh) { range := 0x100, code := 0, ipos := 0xFFFFFFFE } =
      .ok { range := 0x01000000, code := 0, ipos := 0xFFFFFFFF } := by rfl

/-! ## The command port and the register port -/

/-- V-C2: the fault of an illegal header, and the operand word after it ignored. -/
theorem test_step_illegal :
    holdsNext (step { fresh with mode := .enc, cmd := [0x00000303, 0x00000005] })
      (fun t => faultIs 1 0x03 0x00000303 t && t.mode == .enc && t.cmd == [5]) = true := by
  decide +kernel

/-- V-E19: no session, from the word of the command to the fault registers. -/
theorem test_step_session_error :
    holdsNext (step (State.withFetchWord fresh 96 0x000000010000000000000002))
      (fun t => faultIs 2 0x02 0 t && t.cmd.isEmpty) = true := by decide +kernel

/-- The machine of `State.reset`, its parameters unknown, runs D.INIT 0 (R210). -/
theorem test_step_from_reset :
    holdsNext (step (State.withFetchWord State.reset 64 0x11))
      (fun t => t.mode == .dec && t.ipos == 4 && t.code == 0) = true := by rfl

/-- R54, R58: EMIT and RCV read 0x200 after reset. -/
theorem test_readReg_reset :
    readReg fresh 0x1F = 0x00000200 ∧ readReg fresh 0x30 = 0x00000200 ∧
      readReg fresh 0x10 = 0xFFFFFFFF ∧ readReg fresh 0x34 = 0 := by decide +kernel

/-! ## Witnesses: a state and operands that meet the hypotheses of each obligation

A theorem `witness_X` is for `Obligations.X`; where the obligation has several clauses, each has its
own part or theorem. -/

set_option synthInstance.maxSize 1000

/-- An open encode session of the fresh machine. -/
def enc : State := { fresh with mode := .enc }

/-- An open encode session with a carry pending, a held byte and a run. -/
def encCarry : State :=
  { fresh with mode := .enc, carry := true, low := 0x00000010, range := 0x01000000,
               held := 0x56, heldV := true, runLen := 2, out := [0x12], outcnt := 1 }

/-- An open decode session over the two bytes 12 34. -/
def dec : State :=
  { loaded [0x12, 0x34] [] with mode := .dec, code := 0x12340000, ipos := 4, ilen := 2 }

/-- A machine that has taken the fault of V-E19. -/
def faultedState : State := { fresh with faulted := true, faultCode := 2, faultOp := 0x02 }

/-- V-E14's state: a run of the greatest length, and a byte that would make it longer. -/
def longRun : State :=
  { fresh with mode := .enc, runLen := 0xFFFFFFFF, held := 0x12, heldV := true,
               low := 0xFF000000, range := 0x01000000 }

/-- The machine whose MODEL is TM0, with PT given. -/
def tm0State (ptBytes : List Byte) (maxDpb : Nat) : State :=
  { loaded [] ptBytes with params := { inSize := 64, ptSize := 64, maxDpb := maxDpb, model := .tm0 } }

theorem witness_DecodeReadsExactlyTheEncoding :
    decode [0x00000103, 0x80000000, 0x00000004] = .packet (.eBit true 0x80000000) [0x00000004] ∧
    [0x00000103, 0x80000000, 0x00000004] = encode (.eBit true 0x80000000) ++ [0x00000004] := by decide

/-- The three conditions, at headers one bit away from a legal one, and a legal one. -/
theorem witness_IllegalHeaderFaultsAtOnce_conditions :
    decode [0x00000000] = .illegal .unknownOpcode ∧ decode [0x00000203, 5] = .illegal .reservedBits ∧
    decode [0x80000003, 5] = .illegal .reservedBits ∧ decode [0x00000101] = .illegal .symbolBit ∧
    decode [0x00000103, 5] = .packet (.eBit true 5) [] := by decide

theorem witness_IllegalHeaderFaultsAtOnce_fault :
    enc.faulted = false ∧ decode [0x00000303, 0x00000005, 0x00000001] = .illegal .reservedBits := by
  decide

theorem witness_PacketLengthFromTheHeader :
    encode (.eAdv 1 2) = 0x00000002 :: [1, 2] ∧ encode .eInit = 0x00000001 :: [] ∧
    decode [0x00000022, 1] = .illegal .unknownOpcode := by decide

theorem witness_StepRunsTheDecodedCommand :
    fresh.faulted = false ∧ decode [0x00000002, 0, 1, 0x00000004] = .packet (.eAdv 0 1) [4] ∧
    [0x00000002, 0, 1, 0x00000004] = encode (.eAdv 0 1) ++ [0x00000004] := by decide

/-- No word; one word and two words of three; the third. -/
theorem witness_IncompletePacketWaits :
    fresh.cmd = [] ∧ fresh.faulted = false ∧ ([] : List Word).length + 1 < packetLength 0x00000002 ∧
    [(7 : Word)].length + 1 < packetLength 0x00000002 ∧
    [(7 : Word), 0x00000001].length + 1 = packetLength 0x00000002 ∧ packetLength 0x00000002 ≠ 1 := by
  decide

theorem witness_FaultedCoreIgnoresEveryWord : faultedState.faulted = true := by decide

theorem witness_ResetValues : ∃ t, hostAct .rst faultedState = some t := ⟨_, rfl⟩

/-- The least and the greatest sizes. -/
theorem witness_InvariantHoldsAtReset :
    Params.valid { inSize := 1, ptSize := 1, maxDpb := 1, model := .injected } ∧
    Params.valid { inSize := 2147483648, ptSize := 2147483648, maxDpb := 8, model := .tm1 } := by
  decide

theorem witness_EveryStepKeepsTheInvariant :
    State.Inv { encCarry with cmd := [0x00000002, 0x00100000, 0x100] } ∧
    ∃ t, step { encCarry with cmd := [0x00000002, 0x00100000, 0x100] } = .next t ∧
      (!t.faulted && t.out == [0x12, 0x57, 0, 0, 0]) = true :=
  ⟨by decide +kernel, holdsNext_spec (by decide +kernel)⟩

theorem witness_EveryHostActKeepsTheInvariant :
    State.Inv dec ∧ (hostAct (.send 1) dec).isSome ∧ (hostAct (.write .input 63 5) dec).isSome ∧
    (hostAct (.write .plaintext 0 5) dec).isSome ∧ (hostAct .rst dec).isSome := by decide +kernel

theorem witness_NoRunStopsTheModel : State.Inv encCarry ∧ State.Inv dec ∧ State.Inv faultedState := by
  decide +kernel

theorem witness_CarryGuardsNeverFireFromAGoodState :
    State.Inv { longRun with cmd := [0x00000002, 0, 1] } ∧ longRun.faulted = false ∧
    ∃ t, step { longRun with cmd := [0x00000002, 0, 1] } = .next t ∧
      (t.faultCode == 6 && t.range == 1 && t.low == 0) = true :=
  ⟨by decide +kernel, by decide +kernel, holdsNext_spec (by decide +kernel)⟩

theorem witness_EveryRunLengthIsReachable : (0 : Nat) < 2 ^ 32 ∧ 4294967295 < 2 ^ 32 := by decide

theorem witness_SessionTable_refuses :
    sessionAllows (.eAdv 0 1) fresh.mode = false ∧ sessionAllows .eFlush dec.mode = false ∧
    sessionAllows (.dBit 5) enc.mode = false := by decide

theorem witness_SessionTable_allows :
    sessionAllows (.recover 0 65) enc.mode = true ∧ enc.faultCode ≠ 2 ∧
    ∃ t, exec (.recover 0 65) enc = .next t ∧ (t.faultCode == 7) = true :=
  ⟨by decide, by decide, holdsNext_spec (by decide +kernel)⟩

/-- The first length above the buffer, and the last that fits. -/
theorem witness_LengthChecks :
    fresh.params.inSize < (65 : Word).toNat ∧ (64 : Word).toNat ≤ fresh.params.inSize ∧
    fresh.params.ptSize < (65 : Word).toNat := by decide

/-- For each clause, each of its disjuncts: the empty part, and the first value outside the interval. -/
theorem witness_OperandChecks :
    (enc.mode = .enc ∧ enc.range.toNat < (1 : Word).toNat + (0xFFFFFFFF : Word).toNat) ∧
    (enc.range ≤ (0xFFFFFFFF : Word)) ∧
    (dec.mode = .dec ∧ dec.range.toNat < (0xFFFFFFFF : Word).toNat + (1 : Word).toNat) ∧
    (dec.range ≤ (0xFFFFFFFF : Word)) := by decide

/-- V-E13's state. -/
theorem witness_OperandChecks_carry :
    let s := { enc with carry := true, low := 0xF0000000, range := 0x20000000 }
    s.mode = .enc ∧ 1 ≤ (0x01000000 : Word).toNat ∧
    (0x10000000 : Word).toNat + (0x01000000 : Word).toNat ≤ s.range.toNat ∧ s.carry = true ∧
    2 ^ 32 ≤ s.low.toNat + (0x10000000 : Word).toNat := by decide

theorem witness_FaultEntryRecordsTheCommand :
    enc.faulted = false ∧
    (∃ t, step { enc with cmd := [0x00000002, 0, 0] } = .next t ∧ t.faulted = true) ∧
    (∃ t, step { enc with cmd := [0x00000002, 0, 1] } = .next t ∧ (!t.faulted) = true) :=
  ⟨by decide, holdsNext_spec (by decide +kernel), holdsNext_spec (by decide +kernel)⟩

theorem witness_OnlyResetClearsAFault :
    irqFault faultedState = true ∧ (∃ t, exec .eInit faultedState = .next t) ∧
    (∃ t, step { faultedState with cmd := [1] } = .next t) ∧
    (∃ t, hostAct (.send 1) faultedState = some t) ∧ (∃ t, hostAct .rst faultedState = some t) :=
  ⟨by decide, ⟨_, rfl⟩, ⟨_, rfl⟩, ⟨_, rfl⟩, ⟨_, rfl⟩⟩

/-- A held byte just below 0xFF; and the two ways a carry finds no byte. -/
theorem witness_CarryTurnsTheRunToZeros :
    ({ fresh with held := 0xFE, heldV := true } : State).heldV = true ∧
    ({ fresh with held := 0xFE, heldV := true } : State).held ≠ 0xFF ∧ (0x00 : Byte) ≠ 0xFF ∧
    fresh.heldV = false ∧ ({ fresh with held := 0xFF, heldV := true } : State).held = 0xFF := by decide

theorem witness_DeferHoldsOrCommits :
    ({ fresh with runLen := 0xFFFFFFFE } : State).runLen ≠ 0xFFFFFFFF ∧ longRun.runLen = 0xFFFFFFFF ∧
    (0xFE : Byte) ≠ 0xFF := by decide

/-- V-Q1. -/
theorem witness_EmptyQueueIsBypassed :
    let s := { fresh with low := 0x12345678 }
    s.pcnt = 0 ∧ ∃ t, emit (s.low.extractLsb' 24 8) s.carry { s with carry := false } = .ok t ∧
      (t.held == 0x12 && t.heldV) = true :=
  ⟨by decide, holdsOk_spec (by decide +kernel)⟩

/-- W1. -/
theorem witness_QueueFormsTheByte :
    let s := { fresh with pcnt := 3, pbits := 54, low := 0x63000000 }
    s.carry = false ∧ s.heldV = false ∧ s.runLen = 0 ∧ s.pcnt = 3 ∧ s.pbits = 54 ∧
    s.low.extractLsb' 27 5 = 0b01100 := by decide

/-- V-Q6's PBITS and W1's agree below PCNT. -/
theorem witness_HighQueueBitsAreIgnored :
    let s := { fresh with pcnt := 3, pbits := 0xFE, low := 0x20000000 }
    (0x36 : Byte).toNat % 2 ^ s.pcnt.toNat = s.pbits.toNat % 2 ^ s.pcnt.toNat ∧
    (∃ t, qpush 1 s = .ok t ∧ (t.pcnt == 4) = true) ∧
    ∃ t, qpush 8 s = .ok t ∧ (t.held == 0xC4) = true :=
  ⟨by decide, holdsOk_spec (by decide +kernel), holdsOk_spec (by decide +kernel)⟩

theorem witness_PolarityOfAnEmptyRunIsIgnored :
    let s := { encCarry with runLen := 0 }
    s.runLen = 0 ∧ ∃ t, exec (.eAdv 0x00FFFFF0 0x10) s = .next t ∧ (!t.faulted) = true :=
  ⟨by decide, holdsNext_spec (by decide +kernel)⟩

theorem witness_MicroOperationsKeepTheStreamValue :
    encCarry.runIsOnes ∧ encCarry.carry = true ∧ encCarry.pcnt = 0 ∧
    (∃ t, qpush 1 encCarry = .ok t ∧ (t.pcnt == 1) = true) ∧
    (∃ t, qpush 8 encCarry = .ok t ∧ (t.out == [0x12, 0x57, 0, 0]) = true) ∧
    (∃ t, emitCarry { encCarry with carry := false } = .ok t ∧ (!t.heldV) = true) ∧
    ∃ t, defer 0xFF encCarry = .ok t ∧ (t.runLen == 3) = true :=
  ⟨by decide, by decide, by decide, holdsOk_spec (by decide +kernel), holdsOk_spec (by decide +kernel),
    holdsOk_spec (by decide +kernel), holdsOk_spec (by decide +kernel)⟩

/-- A width of 1, where the grid is 1; and of 2^24, where it is 2^24. -/
theorem witness_FlushValueIsTheLeastOnTheCoarsestGrid :
    flushValue 5 1 = some 5 ∧ flushValue 0x56780000 0x01000000 = some 0x57000000 := by decide +kernel

/-- The least width that needs no renormalization, without a carry, with one, and with one pending. -/
theorem witness_EAdvNarrowsTheInterval :
    enc.mode = .enc ∧ 2 ^ 24 ≤ (0x01000000 : Word).toNat ∧
    (0xFEFFFFFF : Word).toNat + (0x01000000 : Word).toNat ≤ enc.range.toNat ∧ enc.carry = false ∧
    encCarry.mode = .enc ∧ (0 : Word).toNat + (0x01000000 : Word).toNat ≤ encCarry.range.toNat ∧
    encCarry.carry = true ∧ encCarry.low.toNat + (0 : Word).toNat < 2 ^ 32 := by decide

/-- A pending carry resolves the run, so no step defers a byte to it. -/
theorem carry_runs_on (u : Word) {w : Word} (j : Nat) : ¬ encCarry.runOverflowsAt u w j := fun h => by
  have h2 : 4294967312 + u.toNat < 2 ^ 32 := h.2.1
  omega

/-- The least width, at the bottom of the interval and at its top. -/
theorem witness_EAdvAddsToTheStream :
    State.Inv encCarry ∧ encCarry.faulted = false ∧ encCarry.mode = .enc ∧ 1 ≤ (1 : Word).toNat ∧
    (0 : Word).toNat + (1 : Word).toNat ≤ encCarry.range.toNat ∧
    (0x00FFFFFF : Word).toNat + (1 : Word).toNat ≤ encCarry.range.toNat ∧
    (∀ j, ¬ encCarry.runOverflowsAt 0 1 j) ∧ ∀ j, ¬ encCarry.runOverflowsAt 0x00FFFFFF 1 j :=
  ⟨by decide +kernel, by decide, by decide, by decide, by decide, by decide,
    carry_runs_on 0, carry_runs_on 0x00FFFFFF⟩

/-- At the greatest run length too, where the new low bound has a byte below 0xFF on top. -/
theorem witness_EAdvAddsToTheStream_longRun :
    State.Inv { longRun with low := 0x01000000 } ∧
    ∀ j, ¬ State.runOverflowsAt { longRun with low := 0x01000000 } 0 1 j := by
  refine ⟨by decide +kernel, fun j h => ?_⟩
  have h4 : 4294967295 + j + 1 = 2 ^ 32 := h.2.2.2
  obtain rfl : j = 0 := by omega
  exact absurd h.2.2.1 (by decide +kernel)

/-- The least and the greatest split point. -/
theorem witness_EBitAddsToTheStream :
    State.Inv encCarry ∧ encCarry.faulted = false ∧ encCarry.mode = .enc ∧ 1 ≤ (1 : Word).toNat ∧
    (1 : Word).toNat < encCarry.range.toNat ∧ (0x00FFFFFF : Word).toNat < encCarry.range.toNat ∧
    ∀ sym bound j, ¬ encCarry.runOverflowsAt (splitInterval sym bound encCarry.range).1
      (splitInterval sym bound encCarry.range).2 j :=
  ⟨by decide +kernel, by decide, by decide, by decide, by decide, by decide,
    fun _ _ j => carry_runs_on _ j⟩

/-- With symbol 1, to a next state without a fault; and, from V-E14's state, to one with a fault. -/
theorem witness_EBitIsEAdvOfItsPart :
    encCarry.faulted = false ∧ encCarry.mode = .enc ∧ 1 ≤ (0x00FFFFFF : Word).toNat ∧
    (0x00FFFFFF : Word).toNat < encCarry.range.toNat ∧
    (∃ t, exec (.eAdv (splitInterval true 0x00FFFFFF encCarry.range).1
        (splitInterval true 0x00FFFFFF encCarry.range).2) encCarry = .next t ∧ (!t.faulted) = true) ∧
    ∃ t, exec (.eAdv (splitInterval false 1 longRun.range).1
        (splitInterval false 1 longRun.range).2) longRun = .next t ∧ t.faulted = true :=
  ⟨by decide, by decide, by decide, by decide, holdsNext_spec (by decide +kernel),
    holdsNext_spec (by decide +kernel)⟩

theorem witness_RangeStaysWideAfterEncoding :
    encCarry.faulted = false ∧
    (∃ t, exec (.eAdv 0 1) encCarry = .next t ∧ (!t.faulted) = true) ∧
    ∃ t, exec (.eBit true 0x00FFFFFF) encCarry = .next t ∧ (!t.faulted) = true :=
  ⟨by decide, holdsNext_spec (by decide +kernel), holdsNext_spec (by decide +kernel)⟩

/-- V-E14's state, where the run overflows at step 0; a run one byte shorter, at step 1; and two shorter, at
step 2, each of the last two with the greatest width that takes that step. -/
theorem witness_RunLengthOverflowLeavesThePartialWrites_eAdv :
    longRun.mode = .enc ∧ longRun.pcnt = 0 ∧ 1 ≤ (1 : Word).toNat ∧
    (0 : Word).toNat + (1 : Word).toNat ≤ longRun.range.toNat ∧ longRun.runOverflowsAt 0 1 0 ∧
    State.runOverflowsAt { longRun with runLen := 0xFFFFFFFE, low := 0xFFFF0000 } 0 0xFFFF 1 ∧
    State.runOverflowsAt { longRun with runLen := 0xFFFFFFFD, low := 0xFFFFFF00 } 0 0xFF 2 := by
  decide +kernel

/-- The lower part at step 0, and the upper part, whose low bound is the split point. -/
theorem witness_RunLengthOverflowLeavesThePartialWrites_eBit :
    1 ≤ (1 : Word).toNat ∧ (1 : Word).toNat < longRun.range.toNat ∧
    (0x00FFFFFF : Word).toNat < longRun.range.toNat ∧
    longRun.runOverflowsAt (splitInterval false 1 longRun.range).1
      (splitInterval false 1 longRun.range).2 0 ∧
    longRun.runOverflowsAt (splitInterval true 0x00FFFFFF longRun.range).1
      (splitInterval true 0x00FFFFFF longRun.range).2 0 := by
  decide +kernel

theorem witness_RunLengthOverflowLeavesThePartialWrites_eFlush :
    longRun.mode = .enc ∧ longRun.pcnt = 0 ∧ longRun.runLen = 0xFFFFFFFF ∧
    flushValue longRun.lowf longRun.range.toNat = some 0xFF000000 := by decide +kernel

/-- A flush value with a carry; and one without, at the greatest run length. -/
theorem witness_EFlushSpellsTheFlushValue :
    (State.Inv encCarry ∧ encCarry.faulted = false ∧ encCarry.mode = .enc ∧
      encCarry.runLen ≠ 0xFFFFFFFF) ∧
    (let s := { longRun with low := 0 }
     State.Inv s ∧ s.faulted = false ∧ s.mode = .enc ∧
      flushValue s.lowf s.range.toNat ≠ some 0xFF000000) := by decide +kernel

theorem witness_SecondFlushDoesNothing :
    ({ fresh with mode := .fin } : State).mode = .fin ∧ encCarry.mode = .enc ∧
    encCarry.faulted = false ∧ ∃ t, exec .eFlush encCarry = .next t ∧ (!t.faulted) = true :=
  ⟨by decide, by decide, by decide, holdsNext_spec (by decide +kernel)⟩

/-- A session whose flush value is 0 while a byte is held. -/
theorem witness_EmptySessionCommitsNothing :
    let s := { enc with held := 0x34, heldV := true, range := 0x01000000 }
    State.Inv s ∧ s.faulted = false ∧ s.mode = .enc ∧ flushValue s.lowf s.range.toNat = some 0 := by
  decide +kernel

/-- V-E9's flush value: the carry is exact. -/
theorem witness_EmptySessionCommitsNothing_carry :
    let s := { encCarry with low := 0 }
    State.Inv s ∧ s.faulted = false ∧ s.mode = .enc ∧
    flushValue s.lowf s.range.toNat = some (2 ^ 32) := by decide +kernel

theorem witness_EncodeCommandsFrame :
    (∃ t, exec .eInit dec = .next t) ∧ (∃ t, exec (.eAdv 0 1) encCarry = .next t ∧ (!t.faulted) = true) ∧
    (∃ t, exec (.eBit false 1) encCarry = .next t ∧ (!t.faulted) = true) ∧
    ∃ t, exec .eFlush encCarry = .next t ∧ (!t.faulted) = true :=
  ⟨⟨_, rfl⟩, holdsNext_spec (by decide +kernel), holdsNext_spec (by decide +kernel),
    holdsNext_spec (by decide +kernel)⟩

/-- Two states that differ in every other part. -/
theorem witness_EncodingReadsOnlyTheEncoder :
    let s := { encCarry with out := [], outcnt := 7, code := 9, inMem := cells [1], cmd := [4] }
    s.encoderRegs = encCarry.encoderRegs ∧ s.faultRegs = encCarry.faultRegs ∧
    ∃ t, exec (.eAdv 0 1) encCarry = .next t ∧ (!t.faulted) = true :=
  ⟨by decide, by decide, holdsNext_spec (by decide +kernel)⟩

/-- The empty stream, one that fills the buffer, and the first length above it. -/
theorem witness_DInitPrimesTheDecoder :
    (0 : Word).toNat ≤ fresh.params.inSize ∧ (64 : Word).toNat ≤ fresh.params.inSize ∧
    fresh.params.inSize < (65 : Word).toNat := by decide

theorem witness_DAdvRefillsFromTheStream :
    dec.mode = .dec ∧ dec.ilen.toNat ≤ dec.params.inSize ∧ 1 ≤ (1 : Word).toNat ∧
    (0xFFFFFFFE : Word).toNat + (1 : Word).toNat ≤ dec.range.toNat := by decide

/-- The least and the greatest split point, and CODE on both sides of them. -/
theorem witness_DBitDecodesIntoDbit :
    dec.mode = .dec ∧ dec.ilen.toNat ≤ dec.params.inSize ∧ 1 ≤ (1 : Word).toNat ∧
    (1 : Word).toNat < dec.range.toNat ∧ (0xFFFFFFFE : Word).toNat < dec.range.toNat ∧
    (1 : Word).toNat ≤ dec.code.toNat ∧ ¬ (0xFFFFFFFE : Word).toNat ≤ dec.code.toNat := by decide

theorem witness_DecodeCommandsFrame :
    (∃ t, exec (.dInit 2) dec = .next t ∧ (!t.faulted) = true) ∧
    (∃ t, exec (.dAdv 0 1) dec = .next t ∧ (!t.faulted) = true) ∧
    (∃ t, exec (.dBit 1) dec = .next t ∧ t.dbit = true) ∧
    encCarry.mode = .enc ∧ (0 : Word).toNat ≤ encCarry.params.inSize ∧
    ∃ t, exec (.dInit 0) encCarry = .next t ∧ (!t.faulted) = true :=
  ⟨holdsNext_spec (by decide +kernel), holdsNext_spec (by decide +kernel),
    holdsNext_spec (by decide +kernel), by decide, by decide, holdsNext_spec (by decide +kernel)⟩

/-- Two states that agree below ILEN and differ past it, in OUT and in LOW. -/
theorem witness_DecodingReadsOnlyItsStream :
    let s := { dec with inMem := cells [0x12, 0x34, 0x99], low := 5, out := [1], outcnt := 1 }
    dec.mode = .dec ∧ s.mode = .dec ∧ s.decoder = dec.decoder ∧ s.ilen = dec.ilen ∧
    s.dbit = dec.dbit ∧ dec.ilen.toNat ≤ dec.params.inSize ∧ s.ilen.toNat ≤ s.params.inSize ∧
    (∀ a, a < dec.ilen.toNat → s.byteAt .input a = dec.byteAt .input a) ∧
    intervalBad 0 1 dec.range = false ∧ splitBad 1 dec.range = false := by decide +kernel

/-- V-E4 and V-D1: the stream 12 34 57 of one E.ADV, read back. -/
theorem witness_RoundTrip :
    fresh.faulted = false ∧
    (∃ t, execAll (.eInit :: ([(0x12345678, 0x100)].map fun c => .eAdv c.1 c.2) ++ [.eFlush]) fresh =
        .next t ∧ (!t.faulted && t.out == [0x12, 0x34, 0x57]) = true) ∧
    (let d := loaded [0x12, 0x34, 0x57] []
     d.faulted = false ∧ d.params.valid ∧ [(0x12 : Byte), 0x34, 0x57].length ≤ d.params.inSize ∧
     ∀ a, a < 3 → [(0x12 : Byte), 0x34, 0x57][a]? = some (d.byteAt .input a)) ∧
    0 < [((0x12345678 : Word), (0x100 : Word))].length :=
  ⟨by decide, holdsNext_spec (by decide +kernel), by decide +kernel, by decide⟩

/-- Under TM0 a one-byte stream decodes to its own byte, as P2's 41 does: 0x02 matches, 0x00 and 0x01 do not. -/
theorem witness_RecoverReportsTheLowestMatch_found :
    (0 : Word).toNat ≤ (tm0State [0x02] 8).params.inSize ∧
    (1 : Word).toNat ≤ (tm0State [0x02] 8).params.ptSize ∧
    matchCandidate (tm0State [0x02] 8) 0 1 2 = .hit ∧
    ∀ c : Byte, c < 2 → matchCandidate (tm0State [0x02] 8) 0 1 c = .miss := by
  refine ⟨by decide, by decide, by decide +kernel, fun c hc => ?_⟩
  have h : c = 0 ∨ c = 1 := by revert c; decide +kernel
  rcases h with rfl | rfl <;> decide +kernel

/-- No one-byte stream decodes to the bytes 00 01 under TM0. -/
theorem witness_RecoverReportsTheLowestMatch_none :
    (0 : Word).toNat ≤ (tm0State [0x00, 0x01] 8).params.inSize ∧
    (2 : Word).toNat ≤ (tm0State [0x00, 0x01] 8).params.ptSize ∧
    ∀ c : Byte, matchCandidate (tm0State [0x00, 0x01] 8) 0 2 c = .miss := by
  decide +kernel

/-- The stream 73 70 with the candidate AB behind it, in a machine of its own, under TM1. -/
theorem witness_MatchIsTheDecodeOfTheCandidate :
    let s := loaded [0x73, 0x70] [0x73]
    let d := loaded [0x73, 0x70, 0xAB] []
    s.params.valid ∧ (2 : Word).toNat ≤ s.params.inSize ∧ (1 : Word).toNat ≤ s.params.ptSize ∧
    d.faulted = false ∧ (2 : Word).toNat + 1 ≤ d.params.inSize ∧
    (∀ a, a < (2 : Word).toNat → d.byteAt .input a = s.byteAt .input a) ∧
    d.byteAt .input (2 : Word).toNat = 0xAB ∧
    ∃ t, exec (.dInit (2 + 1)) d = .next t ∧ (t.mode == .dec && t.code == 0x7370AB00) = true :=
  ⟨by decide +kernel, by decide, by decide, by decide, by decide, by decide +kernel, by decide +kernel,
    holdsNext_spec (by decide +kernel)⟩

/-- V-R8 and V-R7. -/
theorem witness_RecoverFaultsInTheSearch :
    let s8 := { fresh with params := { fresh.params with model := .tmEdge } }
    (1 : Word).toNat ≤ s8.params.ptSize ∧ (∀ c : Byte, c < 0 → matchCandidate s8 0 1 c = .miss) ∧
    matchCandidate s8 0 1 0 = .badBound ∧ matchCandidate (tm0State [0x41] 7) 0 1 0 = .nonProgress := by
  refine ⟨by decide, fun c hc => ?_, by decide +kernel, by decide +kernel⟩
  exact absurd hc (by simp)

theorem witness_EmptyPlaintextMatchesZero : (64 : Word).toNat ≤ fresh.params.inSize := by decide

/-- Two states that agree on IN[0 .. 1] and PT[0], and differ past them and in the encoder. -/
theorem witness_MatchReadsOnlyItsStreams :
    let s := loaded [0x73, 0x70] [0x73]
    let s' := { loaded [0x73, 0x70, 0x01] [0x73, 0x02] with low := 5, mode := .enc, ilen := 1 }
    s'.params = s.params ∧ (2 : Word).toNat ≤ s.params.inSize ∧ (1 : Word).toNat ≤ s.params.ptSize ∧
    (∀ a, a < (2 : Word).toNat → s'.byteAt .input a = s.byteAt .input a) ∧
    (∀ a, a < (1 : Word).toNat → s'.byteAt .plaintext a = s.byteAt .plaintext a) := by decide +kernel

theorem witness_OutIsAppendOnly :
    (∃ t, step { encCarry with cmd := [0x00000004] } = .next t ∧ (t.out == [0x12, 0x57, 0, 0, 1]) = true) ∧
    ∃ t, exec (.dBit 1) dec = .next t ∧ t.dbit = true :=
  ⟨holdsNext_spec (by decide +kernel), holdsNext_spec (by decide +kernel)⟩

theorem witness_StepsLeaveTheBuffersAlone :
    ∃ t, step { dec with cmd := [0x00000013, 1] } = .next t ∧ t.dbit = true :=
  holdsNext_spec (by decide +kernel)

theorem witness_WhoWritesTheSessionRegisters :
    (∃ t, exec (.eAdv 0 1) encCarry = .next t ∧ (!t.faulted) = true) ∧
    (∃ t, exec (.recover 0 0) encCarry = .next t ∧ t.rcvFound = true) ∧
    ∃ t, exec (.dAdv 0 1) dec = .next t ∧ (!t.faulted) = true :=
  ⟨holdsNext_spec (by decide +kernel), holdsNext_spec (by decide +kernel),
    holdsNext_spec (by decide +kernel)⟩

/-- The first and the last address of each buffer. -/
theorem witness_HostWritesAreSeen :
    (hostAct (.write .input 0 5) dec).isSome ∧ (hostAct (.write .input 63 5) dec).isSome ∧
    (hostAct (.write .plaintext 0 5) dec).isSome ∧ (hostAct (.write .plaintext 63 5) dec).isSome ∧
    (hostAct (.write .input 64 5) dec).isNone := by decide +kernel

/-- The last listed address, the first above it, and the last of the port. -/
theorem witness_RegisterAddresses :
    ¬ 0x34 ≤ (0x33 : Byte).toNat ∧ 0x34 ≤ (0x34 : Byte).toNat ∧ 0x34 ≤ (0xFF : Byte).toNat := by decide

end Sys2Proof.Tests
end

section
/-! SUPPORT. Every command as one piece of pseudocode that `exec` finishes with the command's own opcode,
and what that pseudocode writes, keeps and raises (R181 to R246). The obligations about steps that follow
go through these lemmas, so that the commands are taken apart once. -/

namespace Sys2Proof.Machine

/-! ## Commands as micro-operations -/

/-- `CommandBody s i m`: in state `s`, command `i` is the pseudocode `m`. E.ADV and E.BIT share a case, as
do D.ADV and D.BIT, once their checks have passed (R184, R212). -/
inductive CommandBody (s : State) : Instr → Micro → Prop where
  /-- a check of R272 fails, before any write -/
  | refused {i : Instr} {c : FaultCode} {info : Word}
      (hc : c = .sessionError ∨ c = .intervalError ∨ c = .bufferBounds) : CommandBody s i (.raise c info s)
  | eInit : CommandBody s .eInit (.ok { s with
      low := 0, carry := false, range := 0xFFFFFFFF, pcnt := 0, pbits := 0, held := 0, heldV := false
      runLen := 0, runPol := .allOnes, mode := .enc })
  /-- E.ADV or E.BIT on the sub-interval (U, W) of an open encode session -/
  | advance {i : Instr} {u w : Word} (hi : i.opcode = .eAdv ∨ i.opcode = .eBit) (hm : s.mode = .enc)
      (hw : 1 ≤ w.toNat) (hu : u.toNat + w.toNat ≤ s.range.toNat) : CommandBody s i (advanceE u w s)
  | flushAgain (hm : s.mode = .fin) : CommandBody s .eFlush (.ok s)
  | flush (hm : s.mode = .enc) : CommandBody s .eFlush (flushOpen s)
  | dInit {n code : Word} (hn : n.toNat ≤ s.params.inSize) : CommandBody s (.dInit n) (.ok { s with
      ilen := n, range := 0xFFFFFFFF, code := code, ipos := 4, mode := .dec })
  /-- D.ADV or D.BIT on the sub-interval (U, W) of an open decode session -/
  | decode {i : Instr} {u w : Word} {bit : Bool}
      (hi : (i.opcode = .dAdv ∧ bit = s.dbit) ∨ i.opcode = .dBit) (hm : s.mode = .dec) (hw : 1 ≤ w.toNat) :
      CommandBody s i (State.withDecoder { s with dbit := bit } (Dec.advance (inByte s) u w s.decoder))
  | recover {tlen plen : Word} (ht : tlen.toNat ≤ s.params.inSize) (hp : plen.toNat ≤ s.params.ptSize) :
      CommandBody s (.recover tlen plen) (recoverResult { s with rcvState := .searching }
        (searchIn (matchCandidate s tlen plen) candidates))

/-- Every command is one of the pieces of pseudocode above, finished with its own opcode (R271). -/
theorem exec_eq_finish (i : Instr) (s : State) :
    ∃ m, CommandBody s i m ∧ exec i s = m.finish i.opcode := by
  cases i with
  | eInit => exact ⟨_, .eInit, rfl⟩
  | eAdv u w =>
    by_cases hm : s.mode = .enc
    · cases hb : intervalBad u w s.range with
      | true => exact ⟨_, .refused (.inr (.inl rfl)), exec_eAdv_interval hm hb⟩
      | false =>
        obtain ⟨hw, hu⟩ := not_intervalBad hb
        exact ⟨_, .advance (.inl rfl) hm hw hu, exec_eAdv_body hm hb⟩
    · exact ⟨_, .refused (.inl rfl), exec_eAdv_session hm⟩
  | eBit sym b =>
    by_cases hm : s.mode = .enc
    · cases hb : splitBad b s.range with
      | true => exact ⟨_, .refused (.inr (.inl rfl)), exec_eBit_interval hm hb⟩
      | false =>
        obtain ⟨hw, hu⟩ := split_fits sym (not_splitBad hb).1 (not_splitBad hb).2
        exact ⟨_, .advance (.inr rfl) hm hw hu, exec_eBit_body hm hb⟩
    · exact ⟨_, .refused (.inl rfl), exec_eBit_session hm⟩
  | eFlush =>
    by_cases hm : s.mode = .enc
    · exact ⟨_, .flush hm, exec_eFlush_body hm⟩
    · by_cases hf : s.mode = .fin
      · exact ⟨_, .flushAgain hf, exec_eFlush_fin hf⟩
      · exact ⟨_, .refused (.inl rfl), exec_eFlush_session hm hf⟩
  | dInit n =>
    cases hl : lengthBad s .input n with
    | true => exact ⟨_, .refused (.inr (.inr rfl)), exec_dInit_length hl⟩
    | false => exact ⟨_, .dInit (lengthBad_eq_false.1 hl), exec_dInit_body hl⟩
  | dAdv u w =>
    by_cases hm : s.mode = .dec
    · cases hb : intervalBad u w s.range with
      | true => exact ⟨_, .refused (.inr (.inl rfl)), exec_dAdv_interval hm hb⟩
      | false => exact ⟨_, .decode (.inl ⟨rfl, rfl⟩) hm (not_intervalBad hb).1, exec_dAdv_body hm hb⟩
    · exact ⟨_, .refused (.inl rfl), exec_dAdv_session hm⟩
  | dBit b =>
    by_cases hm : s.mode = .dec
    · cases hb : splitBad b s.range with
      | true => exact ⟨_, .refused (.inr (.inl rfl)), exec_dBit_interval hm hb⟩
      | false =>
        obtain ⟨hw, -⟩ := split_fits (decidedBit s.code b) (not_splitBad hb).1 (not_splitBad hb).2
        exact ⟨_, .decode (.inr rfl) hm hw, exec_dBit_body hm hb⟩
    · exact ⟨_, .refused (.inl rfl), exec_dBit_session hm⟩
  | recover tlen plen =>
    cases ht : lengthBad s .input tlen with
    | true => exact ⟨_, .refused (.inr (.inr rfl)), exec_recover_tlen ht⟩
    | false =>
      cases hp : lengthBad s .plaintext plen with
      | true => exact ⟨_, .refused (.inr (.inr rfl)), exec_recover_plen ht hp⟩
      | false =>
        exact ⟨_, .recover (lengthBad_eq_false.1 ht) (lengthBad_eq_false.1 hp), exec_recover_body ht hp⟩

theorem Micro.Ends.and {P Q : State → Prop} {m : Micro} (hP : m.Ends P) (hQ : m.Ends Q) :
    m.Ends fun s => P s ∧ Q s := by
  cases m with
  | ok s => exact ⟨hP, hQ⟩
  | raise c i s => exact ⟨hP, hQ⟩
  | stop f => trivial

/-! ## What a command leaves alone -/

/-- What command `i` leaves of state `s` in the state `t` its pseudocode ends in, before a fault is
entered (R38 to R41, R71, R6). -/
structure CommandFrame (i : Instr) (s t : State) : Prop where
  faultRegs : t.faultRegs = s.faultRegs
  buffers : t.params = s.params ∧ t.inMem = s.inMem ∧ t.ptMem = s.ptMem
  ilen : i.opcode ≠ .dInit → t.ilen = s.ilen
  dbit : i.opcode ≠ .dBit → t.dbit = s.dbit
  rcv : i.opcode ≠ .recover →
    t.rcvByte = s.rcvByte ∧ t.rcvFound = s.rcvFound ∧ t.rcvState = s.rcvState
  mode : i.opcode ≠ .eInit → i.opcode ≠ .eFlush → i.opcode ≠ .dInit → t.mode = s.mode

theorem CommandFrame.refl (i : Instr) (s : State) : CommandFrame i s s :=
  ⟨rfl, ⟨rfl, rfl, rfl⟩, fun _ => rfl, fun _ => rfl, fun _ => ⟨rfl, rfl, rfl⟩, fun _ _ _ => rfl⟩

theorem EmitterFrame.commandFrame {s t : State} (h : EmitterFrame s t) (i : Instr) :
    CommandFrame i s t := by
  rw [h.2]
  exact ⟨rfl, ⟨rfl, rfl, rfl⟩, fun _ => rfl, fun _ => rfl, fun _ => ⟨rfl, rfl, rfl⟩, fun _ _ _ => rfl⟩

theorem FlushFrame.commandFrame {s t : State} (h : FlushFrame s t) : CommandFrame .eFlush s t := by
  have hf := EmitterFrame.commandFrame h .eFlush
  exact ⟨hf.faultRegs, hf.buffers, hf.ilen, hf.dbit, hf.rcv, fun _ hne => absurd rfl hne⟩

theorem CommandBody.frame {s : State} {i : Instr} {m : Micro} (hb : CommandBody s i m) :
    m.Ends (CommandFrame i s) := by
  cases hb with
  | refused => exact .refl i s
  | eInit =>
    exact ⟨rfl, ⟨rfl, rfl, rfl⟩, fun _ => rfl, fun _ => rfl, fun _ => ⟨rfl, rfl, rfl⟩,
      fun hne => absurd rfl hne⟩
  | advance => exact (advanceE_frame _ _ s).mono fun t ht => ht.commandFrame i
  | flushAgain => exact .refl _ s
  | flush => exact (flushFrom_frame _ _ s).mono fun t => FlushFrame.commandFrame
  | dInit =>
    exact ⟨rfl, ⟨rfl, rfl, rfl⟩, fun hne => absurd rfl hne, fun _ => rfl, fun _ => ⟨rfl, rfl, rfl⟩,
      fun _ _ hne => absurd rfl hne⟩
  | @decode i u w bit hi =>
    cases Dec.advance (inByte s) u w s.decoder with
    | error f => trivial
    | ok d =>
      refine ⟨rfl, ⟨rfl, rfl, rfl⟩, fun _ => rfl, fun hne => ?_, fun _ => ⟨rfl, rfl, rfl⟩, fun _ _ _ => rfl⟩
      rcases hi with ⟨-, hbit⟩ | hd
      · exact hbit
      · exact absurd hd hne
  | @recover tlen plen =>
    cases searchIn (matchCandidate s tlen plen) candidates with
    | stop f => trivial
    | _ =>
      exact ⟨rfl, ⟨rfl, rfl, rfl⟩, fun _ => rfl, fun _ => rfl, fun hne => absurd rfl hne, fun _ _ _ => rfl⟩

/-- How a command ends: in a state that its frame describes, or in the fault entered from such a state. -/
theorem exec_next_cases {i : Instr} {s t : State} (h : exec i s = .next t) :
    ∃ m, CommandBody s i m ∧ ((m = .ok t ∧ CommandFrame i s t) ∨
      ∃ c info r, m = .raise c info r ∧ CommandFrame i s r ∧ t = r.enterFault i.opcode.byte c info) := by
  obtain ⟨m, hb, he⟩ := exec_eq_finish i s
  rw [he] at h
  have hf := hb.frame
  refine ⟨m, hb, ?_⟩
  rcases Micro.finish_eq_next.1 h with rfl | ⟨c, info, r, rfl, rfl⟩
  · exact .inl ⟨rfl, hf⟩
  · exact .inr ⟨c, info, r, rfl, hf, rfl⟩

/-! ## Who writes the session registers -/

/-- Settles O56: the frame of the command, whether it ends or faults. -/
theorem whoWritesTheSessionRegisters : Obligations.WhoWritesTheSessionRegisters := by
  unfold Obligations.WhoWritesTheSessionRegisters
  intro i s t h
  obtain ⟨m, -, ⟨-, hf⟩ | ⟨c, info, r, -, hf, rfl⟩⟩ := exec_next_cases h
  · exact ⟨hf.dbit, hf.rcv, hf.mode⟩
  · exact ⟨hf.dbit, hf.rcv, hf.mode⟩

/-! ## The fault registers -/

theorem assemble_opcode {op : Opcode} {sym : Bool} {ws rest : List Word} {i : Instr}
    (h : assemble op sym ws = .packet i rest) : i.opcode = op := by
  unfold assemble at h
  split at h <;> cases h <;> rfl

/-- The header of a decoded packet holds the opcode of its command in bits 7 to 0 (R101, R103). -/
theorem decode_packet_header {ws rest : List Word} {i : Instr} (h : decode ws = .packet i rest) :
    ∃ hd ops, ws = hd :: ops ∧ headerOpcode hd = i.opcode.byte := by
  cases ws with
  | nil => cases h
  | cons hd ops =>
    refine ⟨hd, ops, rfl, ?_⟩
    rw [decode] at h
    cases hc : classify hd with
    | error why => rw [hc] at h; cases h
    | ok op =>
      rw [hc] at h
      rw [headerOpcode, (classify_eq_ok hc).1, headerOf_headerWord, assemble_opcode h]

theorem FaultCode.byte_range (c : FaultCode) : 1 ≤ c.byte.toNat ∧ c.byte.toNat ≤ 8 := by
  cases c <;> decide

/-- Settles O18: by the inversion of a step, and of a command. -/
theorem faultEntryRecordsTheCommand : Obligations.FaultEntryRecordsTheCommand := by
  unfold Obligations.FaultEntryRecordsTheCommand
  intro s t hf h
  rcases step_cases h with ⟨hft, -⟩ | ⟨-, -, rfl⟩ | ⟨-, hd, rest, why, hc, -, rfl⟩ | ⟨-, i, rest, hd, he⟩
  · rw [hf] at hft; cases hft
  · exact ⟨fun ht => (by rw [hf] at ht; cases ht), fun _ => rfl⟩
  · exact ⟨fun _ => ⟨FaultCode.byte_range _, hd, rest, hc, rfl⟩, fun ht => nomatch ht⟩
  · obtain ⟨w, ops, hw, hop⟩ := decode_packet_header hd
    obtain ⟨m, -, ⟨-, hfr⟩ | ⟨c, info, r, -, hfr, rfl⟩⟩ := exec_next_cases he
    · have ht : t.faulted = s.faulted := congrArg Prod.fst hfr.faultRegs
      exact ⟨fun hft => (by rw [ht, hf] at hft; cases hft), fun _ => hfr.faultRegs⟩
    · exact ⟨fun _ => ⟨FaultCode.byte_range c, w, ops, hw, hop.symm⟩, fun ht => nomatch ht⟩

end Sys2Proof.Machine
end

section
/-! SUPPORT. The invariant of CORE (10_state.md R45): every command and every step keeps it, and no command
raises a carry guard from a state that has it. -/

namespace Sys2Proof.Machine

/-! ## The invariant in three parts -/

/-- What the invariant says of a fault's half-done state too: the clauses that speak of no session and of
no fault register. -/
abbrev State.baseInv (s : State) : Prop :=
  s.params.valid ∧ s.buffersOk ∧ s.tailOk ∧ (s.mode = .fin → s.flushed)

/-- What the invariant says of a CORE that has taken no fault. -/
abbrev State.sessionInv (s : State) : Prop :=
  s.rcvState ≠ .searching ∧ (s.mode = .enc → s.encodeInv) ∧ (s.mode = .dec → 2 ^ 24 ≤ s.range.toNat)

theorem State.Inv.base {s : State} (h : s.Inv) : s.baseInv := by
  obtain ⟨hp, hb, hd, hr, hq, -, hfin, -⟩ := h
  exact ⟨hp, hb, ⟨hd, hr, hq⟩, hfin⟩

theorem State.inv_iff_of_not_faulted {s : State} (hf : s.faulted = false) :
    s.Inv ↔ s.baseInv ∧ s.faultConsistent ∧ s.sessionInv := by
  constructor
  · intro h
    have hbase := h.base
    obtain ⟨-, -, -, -, -, hfc, -, hrcv, henc, hdec⟩ := h
    exact ⟨hbase, hfc, fun hs => (by rw [hrcv hs] at hf; cases hf), henc hf, hdec hf⟩
  · rintro ⟨⟨hp, hb, ⟨hd, hr, hq⟩, hfin⟩, hfc, hrcv, henc, hdec⟩
    exact ⟨hp, hb, hd, hr, hq, hfc, hfin, fun hs => absurd hs hrcv, fun _ => henc, fun _ => hdec⟩

/-- Entering a fault from a half-done state gives the invariant again (R271, R273). -/
theorem State.baseInv.enterFault {s : State} (h : s.baseInv) (op : Byte) (c : FaultCode) (info : Word) :
    (s.enterFault op c info).Inv := by
  obtain ⟨hp, hb, ⟨hd, hr, hq⟩, hfin⟩ := h
  exact ⟨hp, hb, hd, hr, hq, FaultCode.byte_range c, hfin, fun _ => rfl,
    fun hf => (nomatch hf), fun hf => (nomatch hf)⟩

/-- Only D.INIT can move ILEN, so every other command keeps the buffers' form (R70, R210). -/
theorem CommandFrame.buffersOk {i : Instr} {s t : State} (h : CommandFrame i s t)
    (hi : i.opcode ≠ .dInit) (hs : s.buffersOk) : t.buffersOk := by
  obtain ⟨hpar, hin, hpt⟩ := h.buffers
  rw [State.buffersOk, hpar, hin, hpt, h.ilen hi]
  exact hs

/-- The encode datapath keeps the base of the invariant where it keeps the tail's. -/
theorem EmitterFrame.baseInv {s t : State} (h : EmitterFrame s t) (hs : s.baseInv) (hm : s.mode = .enc)
    (ht : t.tailOk) : t.baseInv := by
  obtain ⟨hp, hb, -⟩ := hs
  have hf := h.commandFrame .eFlush
  have hmode : t.mode = .enc := by rw [h.2]; exact hm
  exact ⟨hf.buffers.1 ▸ hp, hf.buffersOk (by decide) hb, ht,
    fun hfin => absurd (hmode.symm.trans hfin) (by decide)⟩

/-! ## The commands of an open session -/

/-- E.FLUSH of an open session ends it with nothing in the tail, or finds the longest run (R185, R147). -/
theorem flushOpen_session {s : State} (hs : s.tailOk) (hi : s.encodeInv) :
    (∃ t, flushOpen s = .ok t ∧ t.mode = .fin ∧ t.flushed) ∨
    (s.runLen = 0xFFFFFFFF ∧ ∃ t, flushOpen s = .raise .runLengthOverflow 0 t) := by
  obtain ⟨hI3, hI4, ⟨hp, -⟩, hI6⟩ := hi
  obtain ⟨v, hv, hlo, hhi, hdv⟩ := flushValue_wide (lowf := s.lowf) hI6
  rw [flushOpen_eq (flushPoint_eq hv (Nat.lt_trans hhi hI4))]
  have hheld : decide (2 ^ 32 ≤ v) = true → s.heldV = true := by
    intro hc
    have hc := of_decide_eq_true hc
    cases hh : s.heldV with
    | true => rfl
    | false => have := hI3 hh; omega
  have hgrid : 2 ^ 24 ∣ (BitVec.ofNat 32 v).toNat := by rw [BitVec.toNat_ofNat]; omega
  rcases flushFrom_session hs hp hheld hgrid with
    ⟨t, -, ht, -, -, -, ⟨hl, hc, hpc, -⟩, ⟨-, hhv, hr⟩, hm⟩ | ⟨-, hr, ht⟩
  · exact .inl ⟨t, ht, hm, hhv, hr, hpc, hl, hc⟩
  · exact .inr ⟨hr, ht⟩

/-- D.ADV-body of a decode session reads only bytes that exist and leaves RANGE wide (R151, R211). -/
theorem decoder_advance {s : State} (h : s.ilen.toNat ≤ s.params.inSize) (u : Word) {w : Word}
    (hw : 1 ≤ w.toNat) :
    ∃ d, Dec.advance (inByte s) u w s.decoder = .ok d ∧ 2 ^ 24 ≤ d.range.toNat := by
  obtain ⟨j, hj, hc, hd⟩ := Dec.advance_ok (inByte_ok h) (u := u) (d := s.decoder) hw
  refine ⟨_, hd, ?_⟩
  show 2 ^ 24 ≤ (w <<< (8 * j)).toNat
  rw [renormCount_shift hj hc]
  exact hc.1

/-- RECOVER with both lengths inside their buffers never reads a byte that does not exist (R72). -/
theorem search_ne_stop {s : State} {tlen plen : Word} (ht : tlen.toNat ≤ s.params.inSize)
    (hp : plen.toNat ≤ s.params.ptSize) (f : Fault) :
    searchIn (matchCandidate s tlen plen) candidates ≠ .stop f := by
  intro h
  rcases search_cases (matchCandidate s tlen plen) with ⟨-, hn⟩ | ⟨b, -, -, hb⟩
  · rw [hn] at h; cases h
  · rw [hb] at h
    cases hv : matchCandidate s tlen plen b with
    | stop e => exact matchCandidate_ne_stop ht hp b e hv
    | _ => rw [hv] at h; cases h

/-! ## What a command keeps and raises from a good state -/

/-- A command keeps the base of the invariant, in the half-done state of a fault too. -/
theorem CommandBody.base {s : State} {i : Instr} {m : Micro} (hb : CommandBody s i m) (hs : s.Inv)
    (hf : s.faulted = false) : m.Ends State.baseInv := by
  obtain ⟨hbase, -, -, henc, -⟩ := (State.inv_iff_of_not_faulted hf).1 hs
  have ⟨hp, hbuf, htail, _⟩ := hbase
  cases hb with
  | refused => exact hbase
  | eInit => exact ⟨hp, hbuf, ⟨fun h => (nomatch h), fun h => (nomatch h), Nat.one_pos⟩, fun h => (nomatch h)⟩
  | @advance i u w hi hm =>
    exact ((advanceE_frame u w s).and (advanceE_tailOk u w htail)).mono
      fun t ht => ht.1.baseInv hbase hm ht.2
  | flushAgain => exact hbase
  | flush hm =>
    have htok := flushFrom_tailOk (flushPoint s.lowf s.range.toNat).1 (flushPoint s.lowf s.range.toNat).2 htail
    have hfr := (CommandBody.flush hm).frame
    change (flushOpen s).Ends _ at htok
    rcases flushOpen_session htail (henc hm) with ⟨t, ht, -, hfl⟩ | ⟨-, t, ht⟩
    · rw [ht] at htok hfr ⊢
      have hfr : CommandFrame .eFlush s t := hfr
      exact ⟨hfr.buffers.1 ▸ hp, hfr.buffersOk (by decide) hbuf, htok, fun _ => hfl⟩
    · have hemit := flushFrom_raise_frame ht
      rw [ht] at htok ⊢
      exact hemit.baseInv hbase hm htok
  | dInit hn => exact ⟨hp, ⟨hbuf.1, hbuf.2.1, hn⟩, htail, fun h => (nomatch h)⟩
  | @decode i u w bit hi hm hw =>
    obtain ⟨d, hd, -⟩ := decoder_advance hbuf.2.2 u hw
    rw [hd]
    exact ⟨hp, hbuf, htail, fun h => absurd (hm.symm.trans h) (by decide)⟩
  | @recover tlen plen =>
    cases searchIn (matchCandidate s tlen plen) candidates with
    | stop f => trivial
    | _ => exact hbase

/-- RANGE_INIT is wide (R6). -/
theorem initialRange_wide : 2 ^ 24 ≤ (0xFFFFFFFF : Word).toNat := by decide

/-- A command that takes no fault keeps the invariants of the session (R45, R183). -/
theorem CommandBody.session {s t : State} {i : Instr} {m : Micro} (hb : CommandBody s i m) (hs : s.Inv)
    (hf : s.faulted = false) (hm : m = .ok t) : t.sessionInv := by
  obtain ⟨⟨-, hbuf, htail, -⟩, -, hrcv, henc, hdec⟩ := (State.inv_iff_of_not_faulted hf).1 hs
  have hfr := hb.frame
  rw [hm] at hfr
  cases hb with
  | refused => cases hm
  | eInit =>
    cases hm
    have hle : (false.toNat * 2 ^ 32 + (0 : Word).toNat) + (0xFFFFFFFF : Word).toNat ≤ 2 ^ 32 := by decide
    exact ⟨hrcv, fun _ => ⟨fun _ => hle, Nat.lt_of_le_of_lt hle (by decide), ⟨rfl, rfl⟩, initialRange_wide⟩,
      fun h => (nomatch h)⟩
  | @advance i u w hi hmode hw hu =>
    have hmt : t.mode = .enc := by
      rcases hi with hi | hi <;> exact (hfr.mode (by simp [hi]) (by simp [hi]) (by simp [hi])).trans hmode
    have hrt : t.rcvState = s.rcvState := by
      rcases hi with hi | hi <;> exact (hfr.rcv (by simp [hi])).2.2
    rcases advanceE_session htail.2.1 htail.1 (henc hmode) hw hu with
      ⟨t', j, ht', -, hcnt, hr, -, -, ⟨-, -, hI3, hI4, hI5, -⟩, -⟩ | ⟨-, -, -, t', ht'⟩
    · rw [ht'] at hm
      cases hm
      exact ⟨hrt ▸ hrcv, fun _ => ⟨hI3, hI4, hI5, hr ▸ hcnt.1⟩, fun h => absurd (hmt.symm.trans h) (by decide)⟩
    · rw [ht'] at hm; cases hm
  | flushAgain => cases hm; exact ⟨hrcv, henc, hdec⟩
  | flush hmode =>
    rcases flushOpen_session htail (henc hmode) with ⟨t', ht', hmt, -⟩ | ⟨-, t', ht'⟩
    · rw [ht'] at hm
      cases hm
      exact ⟨(hfr.rcv (by decide)).2.2 ▸ hrcv, fun h => absurd (hmt.symm.trans h) (by decide),
        fun h => absurd (hmt.symm.trans h) (by decide)⟩
    · rw [ht'] at hm; cases hm
  | dInit => cases hm; exact ⟨hrcv, fun h => (nomatch h), fun _ => initialRange_wide⟩
  | @decode i u w bit hi hmode hw =>
    obtain ⟨d, hd, hwide⟩ := decoder_advance hbuf.2.2 u hw
    rw [hd] at hm
    cases hm
    exact ⟨hrcv, fun h => absurd (hmode.symm.trans h) (by decide), fun _ => hwide⟩
  | @recover tlen plen =>
    cases hsr : searchIn (matchCandidate s tlen plen) candidates with
    | byte b => rw [hsr] at hm; cases hm; exact ⟨fun h => (nomatch h), henc, hdec⟩
    | none => rw [hsr] at hm; cases hm; exact ⟨fun h => (nomatch h), henc, hdec⟩
    | raise c b => rw [hsr] at hm; cases hm
    | stop f => rw [hsr] at hm; cases hm

/-- The faults a command can raise in a good state: no carry guard, and the run guard only where the run is
within three bytes of its limit (R152, R147, R150). -/
def State.goodFault (s : State) (c : FaultCode) : Prop :=
  c ≠ .carryOverflowBeyondStream ∧ c ≠ .accumulatorOverflow ∧
    (c = .runLengthOverflow → 2 ^ 32 ≤ s.runLen.toNat + 3)

/-- A command of a good state raises no carry guard, and never stops the model. -/
theorem CommandBody.raises {s : State} {i : Instr} {m : Micro} (hb : CommandBody s i m) (hs : s.Inv)
    (hf : s.faulted = false) : m.Raises s.goodFault := by
  obtain ⟨⟨-, hbuf, htail, -⟩, -, -, henc, -⟩ := (State.inv_iff_of_not_faulted hf).1 hs
  cases hb with
  | refused hc => rcases hc with rfl | rfl | rfl <;> exact ⟨by decide, by decide, fun h => (nomatch h)⟩
  | eInit => trivial
  | @advance i u w hi hm hw hu =>
    rcases advanceE_session htail.2.1 htail.1 (henc hm) hw hu with ⟨t, -, ht, -⟩ | ⟨j, hj, hover, t, ht⟩
    · rw [ht]; trivial
    · rw [ht]
      have hrun := hover.2.2.2
      exact ⟨by decide, by decide, fun _ => by omega⟩
  | flushAgain => trivial
  | flush hm =>
    rcases flushOpen_session htail (henc hm) with ⟨t, ht, -⟩ | ⟨hr, t, ht⟩
    · rw [ht]; trivial
    · rw [ht]
      have hrun := maxRun hr
      exact ⟨by decide, by decide, fun _ => by omega⟩
  | dInit => trivial
  | @decode i u w bit hi hm hw =>
    obtain ⟨d, hd, -⟩ := decoder_advance hbuf.2.2 u hw
    rw [hd]; trivial
  | @recover tlen plen ht hpl =>
    cases hsr : searchIn (matchCandidate s tlen plen) candidates with
    | byte b => trivial
    | none => trivial
    | raise c b =>
      rcases search_raises hsr with rfl | rfl <;> exact ⟨by decide, by decide, fun h => (nomatch h)⟩
    | stop f => exact absurd hsr (search_ne_stop ht hpl f)

/-- Every command keeps the invariant of a CORE that has taken no fault. -/
theorem exec_inv {i : Instr} {s t : State} (hs : s.Inv) (hf : s.faulted = false)
    (h : exec i s = .next t) : t.Inv := by
  obtain ⟨m, hb, hm⟩ := exec_next_cases h
  have hbase := hb.base hs hf
  rcases hm with ⟨rfl, hfr⟩ | ⟨c, info, r, rfl, -, rfl⟩
  · have hft : t.faulted = false := (congrArg Prod.fst hfr.faultRegs).trans hf
    have hregs := hfr.faultRegs
    simp only [State.faultRegs, Prod.mk.injEq] at hregs
    obtain ⟨h1, h2, h3, h4⟩ := hregs
    refine (State.inv_iff_of_not_faulted hft).2 ⟨hbase, ?_, hb.session hs hf rfl⟩
    have hfc := ((State.inv_iff_of_not_faulted hf).1 hs).2.1
    rw [State.faultConsistent, h1, h2, h3, h4]
    exact hfc
  · exact State.baseInv.enterFault hbase _ c info

/-- Settles O10: each of the ways to step keeps the invariant. -/
theorem everyStepKeepsTheInvariant : Obligations.EveryStepKeepsTheInvariant := by
  unfold Obligations.EveryStepKeepsTheInvariant
  intro s t hs h
  rcases step_cases h with ⟨-, rfl⟩ | ⟨-, -, rfl⟩ | ⟨-, hd, rest, why, -, -, rfl⟩ | ⟨hf, i, rest, -, he⟩
  · exact hs
  · exact hs
  · exact State.baseInv.enterFault (s := { s with cmd := rest }) hs.base _ _ _
  · exact exec_inv (s := { s with cmd := rest }) hs hf he

theorem FaultCode.byte_injective {c c' : FaultCode} (h : c.byte = c'.byte) : c = c' := by
  revert h
  cases c <;> cases c' <;> decide

/-- What a good fault writes to FAULT_CODE (R270). -/
theorem State.goodFault.byte {s : State} {c : FaultCode} (h : s.goodFault c) :
    c.byte ≠ 4 ∧ c.byte ≠ 5 ∧ (c.byte = 6 → 2 ^ 32 ≤ s.runLen.toNat + 3) := by
  obtain ⟨h4, h5, h6⟩ := h
  exact ⟨fun h => h4 (FaultCode.byte_injective (c' := .carryOverflowBeyondStream) h),
    fun h => h5 (FaultCode.byte_injective (c' := .accumulatorOverflow) h),
    fun h => h6 (FaultCode.byte_injective (c' := .runLengthOverflow) h)⟩

/-- Settles O13: a fault of a good state is one that `CommandBody.raises` allows. -/
theorem carryGuardsNeverFireFromAGoodState : Obligations.CarryGuardsNeverFireFromAGoodState := by
  unfold Obligations.CarryGuardsNeverFireFromAGoodState
  intro s t hs hf h
  have hfc := ((State.inv_iff_of_not_faulted hf).1 hs).2.1
  rw [State.faultConsistent, hf] at hfc
  have hcode : s.faultCode = 0 := hfc.1
  have unfaulted : t.faultCode = s.faultCode →
      t.faultCode ≠ 4 ∧ t.faultCode ≠ 5 ∧ (t.faultCode = 6 → 2 ^ 32 ≤ s.runLen.toNat + 3) := by
    intro ht
    rw [ht, hcode]
    exact ⟨by decide, by decide, fun h => absurd h (by decide)⟩
  rcases step_cases h with ⟨-, rfl⟩ | ⟨-, -, rfl⟩ | ⟨-, hd, rest, why, -, -, rfl⟩ | ⟨-, i, rest, -, he⟩
  · exact unfaulted rfl
  · exact unfaulted rfl
  · exact State.goodFault.byte (c := .illegalCommand) ⟨by decide, by decide, fun h => (nomatch h)⟩
  · obtain ⟨m, hb, ⟨-, hfr⟩ | ⟨c, info, r, rfl, -, rfl⟩⟩ := exec_next_cases he
    · exact unfaulted (congrArg (fun regs => regs.2.1) hfr.faultRegs)
    · have hgood : s.goodFault c := hb.raises (s := { s with cmd := rest }) hs hf
      exact hgood.byte

end Sys2Proof.Machine
end

section
/-! SUPPORT. Pending runs of every length (10_state.md R36, 40_datapath.md R147): the sequence of vector W2
of 95_test_vectors.md, E.INIT and then E.ADV again and again, lengthens the run by one byte a command. -/

namespace Sys2Proof.Machine

/-! ## Sending commands -/

theorem decode_encode (i : Instr) (rest : List Word) : decode (encode i ++ rest) = .packet i rest := by
  cases i <;> simp [encode, decode, classify_headerWord, assemble]

theorem Reachable.send {s : State} (hs : Reachable s) (ws : List Word) :
    Reachable { s with cmd := s.cmd ++ ws } := by
  induction ws generalizing s with
  | nil => simpa using hs
  | cons w ws ih =>
    have h := ih (Reachable.host hs (x := .send w) rfl)
    rwa [List.append_assoc] at h

/-- The host sends one command to an idle CORE, which runs it in one step (R79, R100). -/
theorem Reachable.command {s t : State} {i : Instr} (hs : Reachable s) (hf : s.faulted = false)
    (hc : s.cmd = []) (h : exec i s = .next t) : Reachable t := by
  refine .step (hs.send (encode i)) ?_
  have hd : decode (s.cmd ++ encode i) = .packet i [] := by
    rw [hc, List.nil_append, ← List.append_nil (encode i)]
    exact decode_encode i []
  rw [step_packet (s := { s with cmd := s.cmd ++ encode i }) hf hd]
  show exec i { s with cmd := [] } = _
  rw [← hc]
  exact h

/-! ## Lengthening the run -/

/-- A reachable open encode session with the interval `[low, low + range)`, no carry, no queued bit and a
run of `n` bytes, and no word on CMD. -/
structure OpenSession (low range : Word) (n : Nat) (s : State) : Prop where
  reachable : Reachable s
  faulted : s.faulted = false
  cmd : s.cmd = []
  mode : s.mode = .enc
  low : s.low = low
  carry : s.carry = false
  range : s.range = range
  pcnt : s.pcnt = 0
  runLen : s.runLen.toNat = n

/-- E.INIT after reset (R180, R300). -/
theorem exists_openSession : ∃ s, OpenSession 0 0xFFFFFFFF 0 s := by
  have hr : Reachable (State.resetWith ⟨1, 1, 1, .injected⟩ 0) := .reset (by decide)
  exact ⟨_, hr.command (i := .eInit) rfl rfl rfl, rfl, rfl, rfl, rfl, rfl, rfl, rfl, rfl⟩

theorem renormESteps_wide (k : Nat) {s : State} (h : Config.top ≤ s.range) :
    renormESteps k s = .ok s := by
  cases k with
  | zero => rfl
  | succ k => rw [renormESteps, if_neg (BitVec.not_lt.2 h)]

/-- E.ADV of a width of 2^16 with no carry takes one renormalization step (R181, R150). -/
theorem exec_eAdv_oneStep {s t : State} {u : Word} (hm : s.mode = .enc) (hc : s.carry = false)
    (hu : u.toNat + 2 ^ 16 ≤ s.range.toNat) (hl : s.low.toNat + u.toNat < 2 ^ 32)
    (hq : qpush 8 { s with carry := false, low := s.low + u, range := 0x10000 } = .ok t) :
    exec (.eAdv u 0x10000) s = .next { t with range := 0x01000000 } := by
  have hco : carryOut s.low u = false := decide_eq_false (by omega)
  have hr := qpush_range 8 { s with carry := false, low := s.low + u, range := 0x10000 }
  rw [hq] at hr
  have hr : t.range <<< 8 = 0x01000000 := by rw [show t.range = 0x10000 from hr]; rfl
  rw [exec_eAdv_body hm (intervalBad_eq_false.2 ⟨by decide, hu⟩), advanceE, accumulatorOverflow, hc, hco,
    Bool.false_and, if_neg Bool.false_ne_true, renormE, renormESteps,
    if_pos (show (0x10000 : Word) < Config.top by decide), Bool.false_or, hq, Micro.ok_andThen, hr,
    renormESteps_wide 2 (show Config.top ≤ (0x01000000 : Word) by decide), Micro.finish_ok]

/-- Such an E.ADV lengthens the run by one byte where the new low bound begins with 0xFF, and else leaves no
run (R147). -/
theorem OpenSession.advance {low range : Word} {n : Nat} {s : State} (h : OpenSession low range n s)
    (u : Word) (hu : u.toNat + 2 ^ 16 ≤ range.toNat) (hl : low.toNat + u.toNat < 2 ^ 32)
    (hn : n + 1 < 2 ^ 32) :
    ∃ t, OpenSession ((low + u) <<< 8) 0x01000000
      (if (low + u).toNat / 2 ^ 24 = 255 then n + 1 else 0) t := by
  obtain ⟨hr, hf, hc, hm, rfl, hcar, rfl, hp, rfl⟩ := h
  have hadv := fun t => exec_eAdv_oneStep (t := t) hm hcar hu hl
  by_cases hb : (s.low + u).toNat / 2 ^ 24 = 255
  · have hrun : s.runLen ≠ 0xFFFFFFFF := fun he => by have := maxRun he; omega
    have ht := hadv _ (qpush_fill hp rfl hb hrun)
    rw [if_pos hb]
    exact ⟨_, hr.command hf hc ht, hf, hc, hm, rfl, rfl, rfl, hp, succ_runLen hrun⟩
  · have hbyte : BitVec.ofNat 8 ((s.low + u).toNat / 2 ^ 24) ≠ 0xFF := fun he =>
      hb ((ofNat_eq_fill (by omega)).1 he)
    have ht := hadv _ ((qpush_bypass (s := { s with carry := false, low := s.low + u, range := 0x10000 })
      hp rfl).trans (defer_definite hbyte))
    rw [if_neg hb]
    exact ⟨_, hr.command hf hc ht, hf, hc, hm, rfl, rfl, rfl, hp, rfl⟩

/-- W2's session: E.ADV 0xFF8000, 0x10000 and then E.ADV 0x7F8000, 0x10000 `n` times over. -/
theorem exists_openSession_run {n : Nat} (hn : n < 2 ^ 32) :
    ∃ s, OpenSession 0xFF800000 0x01000000 n s := by
  induction n with
  | zero =>
    obtain ⟨s, hs⟩ := exists_openSession
    exact hs.advance 0x00FF8000 (by decide) (by decide) (by decide)
  | succ n ih =>
    obtain ⟨s, hs⟩ := ih (by omega)
    exact hs.advance 0x007F8000 (by decide) (by decide) hn

/-- Settles O14, by induction on the length of the run. -/
theorem everyRunLengthIsReachable : Obligations.EveryRunLengthIsReachable := by
  unfold Obligations.EveryRunLengthIsReachable
  intro n hn
  obtain ⟨s, hs⟩ := exists_openSession_run hn
  exact ⟨s, hs.reachable, hs.mode, hs.faulted, hs.runLen⟩

end Sys2Proof.Machine
end

section
/-! SUPPORT. What the micro-operations do not depend on, and the number they keep (40_datapath.md R143 to
R148, R154; 93_implementation_defined.md U1, U2). -/

namespace Sys2Proof.Machine

/-! ## The high bits of PBITS -/

theorem queueShift_pbits (n pb : Nat) (s : State) (p : Byte) :
    queueShift n pb { s with pbits := p } = queueShift n pb s := rfl

/-- Settles O25: the carry goes the same way, the emitter reads no queued bit, and the shift writes PBITS
whole. -/
theorem highQueueBitsAreIgnored : Obligations.HighQueueBitsAreIgnored := by
  unfold Obligations.HighQueueBitsAreIgnored
  intro n s t p _ _ hp h
  rw [← h, qpush, qpush, queueCarry_pbits s p hp]
  rw [qpush] at h
  generalize queueCarry s = landed at h ⊢
  obtain ⟨pb, c⟩ := landed
  cases c with
  | false => exact queueShift_pbits n pb { s with carry := false } p
  | true =>
    obtain ⟨m, hm, -⟩ := Micro.andThen_eq_ok.1 h
    obtain ⟨hv, hd⟩ := emitCarry_eq_ok hm
    dsimp only
    rw [if_pos rfl, if_pos rfl, emitCarry_held (s := { s with carry := false }) hv hd,
      emitCarry_held (s := { s with pbits := p, carry := false }) hv hd]
    rfl

/-! ## The stream value -/

theorem runIsOnes_of_empty {s : State} (h : s.runLen = 0) : s.runIsOnes := by
  intro hp
  rw [h] at hp
  cases hp

theorem pb_of_empty {s : State} (h : s.pcnt = 0) : s.pb = 0 := by
  have hlt := pb_lt s
  have h0 : s.pcnt.toNat = 0 := by rw [h]; rfl
  rw [h0] at hlt
  omega

/-- A piece of the encode datapath that ends has only appended to OUT (R75). -/
theorem Micro.Ends.out_isPrefix {s t : State} {m : Micro} (hf : m.Ends (EmitterFrame s)) (h : m = .ok t) :
    s.out <+: t.out := by
  rw [h] at hf
  obtain ⟨⟨bs, hbs, -⟩, -⟩ := hf
  exact ⟨bs, hbs.symm⟩

/-- EMIT_CARRY with an empty queue moves the carry's unit from the accumulator to the tail (R146, R154). -/
theorem emitCarry_streamValue {s t : State} (hc : s.carry = true) (hp : s.pcnt = 0) (hr : s.runIsOnes)
    (h : emitCarry { s with carry := false } = .ok t) : t.streamValue = s.streamValue := by
  obtain ⟨hval, -, -, hlow, hcar, -, hpc, -⟩ := emitCarry_spec h hr
  have hval : bytesValue (t.out ++ t.tailBytes) = bytesValue (s.out ++ s.tailBytes) + 1 := hval
  simp only at hlow hcar hpc
  have hp0 : s.pcnt.toNat = 0 := by rw [hp]; rfl
  rw [State.streamValue, State.streamBits, State.lowf, hval, hlow, hcar, hpc, pb_of_empty (hpc.trans hp),
    State.streamValue, State.streamBits, State.lowf, hc, pb_of_empty hp, hp0]
  simp only [Bool.toNat_true, Bool.toNat_false]
  omega

theorem finalize_tailBytes (s : State) : (finalize s).tailBytes = [] := by
  rw [finalize_eq]
  rfl

theorem finalize_streamValue (s : State) : (finalize s).streamValue = s.streamValue := by
  rw [State.streamValue, State.streamBits, finalize_tailBytes, List.append_nil, finalize_eq]
  rfl

/-- Settles O27: the law of each micro-operation, and the frame for OUT. -/
theorem microOperationsKeepTheStreamValue : Obligations.MicroOperationsKeepTheStreamValue := by
  unfold Obligations.MicroOperationsKeepTheStreamValue
  refine ⟨?qpush, ?emitCarry, ?defer, fun s => ⟨finalize_streamValue s, finalize_tailBytes s⟩⟩
  case qpush =>
    intro n s t h1 h8 hr h
    obtain ⟨hval, -, hrun, -⟩ := qpush_spec h1 h8 hr h
    exact ⟨hval, hrun, (qpush_frame n s).out_isPrefix h⟩
  case emitCarry =>
    intro s t hc hp hr h
    obtain ⟨-, -, ⟨-, hrun⟩, -⟩ := emitCarry_spec h hr
    exact ⟨emitCarry_streamValue hc hp hr h, runIsOnes_of_empty hrun,
      (emitCarry_frame { s with carry := false }).out_isPrefix h⟩
  case defer =>
    intro b s t hr h
    obtain ⟨hbytes, hrun, -⟩ := defer_spec h hr
    exact ⟨hbytes, hrun, (defer_frame b s).out_isPrefix h⟩

end Sys2Proof.Machine
end

section
/-! SUPPORT. No command depends on the polarity of an empty run (10_state.md R36,
93_implementation_defined.md U2): two states that differ in nothing else are led to two such states. -/

namespace Sys2Proof.Machine

/-! ## States that differ in the polarity of an empty run -/

/-- `t` is `s`, but for RUN_POL where the run is empty. -/
def SameButPol (s t : State) : Prop :=
  t = s ∨ (s.runLen = 0 ∧ ∃ q, t = { s with runPol := q })

/-- Two pieces of pseudocode that end alike, in states that differ in the polarity of an empty run. -/
inductive Micro.SameButPol : Micro → Micro → Prop where
  | ok {s t : State} (h : Machine.SameButPol s t) : Micro.SameButPol (.ok s) (.ok t)
  | raise {s t : State} (c : FaultCode) (info : Word) (h : Machine.SameButPol s t) :
      Micro.SameButPol (.raise c info s) (.raise c info t)
  | stop (f : Fault) : Micro.SameButPol (.stop f) (.stop f)

/-- `f` does not look at the polarity of an empty run. -/
def IgnoresPol (f : State → Micro) : Prop := ∀ s t, SameButPol s t → (f s).SameButPol (f t)

theorem Micro.SameButPol.refl (m : Micro) : m.SameButPol m := by
  cases m with
  | ok s => exact .ok (.inl rfl)
  | raise c info s => exact .raise c info (.inl rfl)
  | stop f => exact .stop f

theorem Micro.SameButPol.andThen {m m' : Micro} {k : State → Micro} (hm : m.SameButPol m')
    (hk : IgnoresPol k) : (m.andThen k).SameButPol (m'.andThen k) := by
  cases hm with
  | ok h => exact hk _ _ h
  | raise c info h => exact .raise c info h
  | stop f => exact .stop f

theorem Micro.SameButPol.ite {c : Prop} [Decidable c] {m m' n n' : Micro} (hm : c → m.SameButPol m')
    (hn : ¬ c → n.SameButPol n') :
    Micro.SameButPol (if c then m else n) (if c then m' else n') := by
  by_cases h : c
  · rw [if_pos h, if_pos h]; exact hm h
  · rw [if_neg h, if_neg h]; exact hn h

/-- It is enough to change the polarity of an empty run. -/
theorem IgnoresPol.of_empty {f : State → Micro}
    (h : ∀ (s : State) (q : Polarity), s.runLen = 0 → (f s).SameButPol (f { s with runPol := q })) :
    IgnoresPol f := by
  rintro s t (rfl | ⟨hr, q, rfl⟩)
  · exact .refl _
  · exact h s q hr

theorem SameButPol.of_empty {s : State} (h : s.runLen = 0) (q : Polarity) :
    SameButPol s { s with runPol := q } := .inr ⟨h, q, rfl⟩

/-! ## The encode datapath -/

theorem tailBytes_of_emptyRun {s : State} (h : s.runLen = 0) (q : Polarity) :
    State.tailBytes { s with runPol := q } = s.tailBytes := by
  simp [State.tailBytes, h]

theorem emitCarry_ignoresPol : IgnoresPol emitCarry := by
  refine .of_empty fun s q hr => ?_
  by_cases hc : s.heldV = false ∨ s.held = 0xFF
  · rw [emitCarry_none hc, emitCarry_none (s := { s with runPol := q }) hc]
    exact .raise _ _ (.of_empty hr q)
  · have hv : s.heldV = true := by simpa using fun h => hc (.inl h)
    have hd : s.held ≠ 0xFF := fun h => hc (.inr h)
    rw [emitCarry_held hv hd, emitCarry_held (s := { s with runPol := q }) hv hd]
    exact .refl _

theorem defer_ignoresPol (b : Byte) : IgnoresPol (defer b) := by
  refine .of_empty fun s q hr => ?_
  by_cases hb : b = 0xFF
  · have hmax : s.runLen ≠ 0xFFFFFFFF := by rw [hr]; decide
    rw [hb, defer_fill hmax, defer_fill (s := { s with runPol := q }) hmax]
    simp only [hr, if_true]
    exact .refl _
  · rw [defer_definite hb, defer_definite hb, tailBytes_of_emptyRun hr q]
    exact .ok (.inr ⟨rfl, q, rfl⟩)

theorem queueShift_ignoresPol (n pb : Nat) : IgnoresPol (queueShift n pb) :=
  .of_empty fun _ q hr =>
    .ite (fun _ => defer_ignoresPol _ _ _ (.inr ⟨hr, q, rfl⟩)) fun _ => .ok (.inr ⟨hr, q, rfl⟩)

theorem qpush_ignoresPol (n : Nat) : IgnoresPol (qpush n) :=
  .of_empty fun s q hr =>
    have hs : SameButPol { s with carry := false } { s with carry := false, runPol := q } :=
      .inr ⟨hr, q, rfl⟩
    .andThen (.ite (fun _ => emitCarry_ignoresPol _ _ hs) fun _ => .ok hs) (queueShift_ignoresPol _ _)

theorem qpushBytes_ignoresPol (k : Nat) : IgnoresPol (qpushBytes k) := by
  induction k with
  | zero => exact fun s t h => .ok h
  | succ k ih => exact fun s t h => .andThen (qpush_ignoresPol 8 s t h) ih

theorem renormESteps_ignoresPol (k : Nat) : IgnoresPol (renormESteps k) := by
  induction k with
  | zero => exact fun s t h => .ok h
  | succ k ih =>
    refine .of_empty fun s q hr => .ite (fun _ => ?_) fun _ => .ok (.of_empty hr q)
    refine .andThen (qpush_ignoresPol 8 _ _ (.of_empty hr q)) (.of_empty fun t p ht => ?_)
    exact ih _ _ (.inr ⟨ht, p, rfl⟩)

theorem advanceE_ignoresPol (u w : Word) : IgnoresPol (advanceE u w) :=
  .of_empty fun _ q hr => .ite (fun _ => .raise _ _ (.of_empty hr q)) fun _ =>
    renormESteps_ignoresPol 3 _ _ (.inr ⟨hr, q, rfl⟩)

theorem flushBits_ignoresPol (k : Nat) : IgnoresPol (flushBits k) := fun s t h =>
  .andThen (qpushBytes_ignoresPol _ s t h) <| .of_empty fun _ q hr =>
    .ite (fun _ => qpush_ignoresPol _ _ _ (.of_empty hr q)) fun _ =>
      .ite (fun _ => emitCarry_ignoresPol _ _ (.inr ⟨hr, q, rfl⟩)) fun _ => .ok (.of_empty hr q)

theorem flushPad_ignoresPol : IgnoresPol flushPad :=
  .of_empty fun _ q hr => .ite (fun _ => defer_ignoresPol _ _ _ (.inr ⟨hr, q, rfl⟩)) fun _ =>
    .ok (.of_empty hr q)

theorem flushFrom_ignoresPol (carry : Bool) (low : Word) : IgnoresPol (flushFrom carry low) := by
  refine .of_empty fun s q hr => .andThen (flushBits_ignoresPol _ _ _ (.inr ⟨hr, q, rfl⟩)) ?_
  refine fun t t' h => .andThen (flushPad_ignoresPol t t' h) (.of_empty fun u p hu => ?_)
  rw [finalize_eq, finalize_eq, tailBytes_of_emptyRun hu p]
  exact .ok (.inr ⟨rfl, p, rfl⟩)

/-! ## The commands -/

theorem withDecoder_ignoresPol (e : Except Fault Dec) : IgnoresPol fun s => s.withDecoder e :=
  .of_empty fun _ q hr => match e with
    | .ok _ => .ok (.inr ⟨hr, q, rfl⟩)
    | .error f => .stop f

theorem recoverResult_ignoresPol (found : Found) : IgnoresPol fun s => recoverResult s found :=
  .of_empty fun _ q hr => match found with
    | .byte _ => .ok (.inr ⟨hr, q, rfl⟩)
    | .none => .ok (.inr ⟨hr, q, rfl⟩)
    | .raise _ _ => .raise _ _ (.inr ⟨hr, q, rfl⟩)
    | .stop f => .stop f

/-- A command from two states that differ in the polarity of an empty run. -/
theorem exec_ignoresPol (i : Instr) {s : State} (hr : s.runLen = 0) (q : Polarity) :
    ∃ m m' : Micro, exec i s = m.finish i.opcode ∧ exec i { s with runPol := q } = m'.finish i.opcode ∧
      m.SameButPol m' := by
  have hs := SameButPol.of_empty hr q
  cases i with
  | eInit => exact ⟨.ok _, .ok _, rfl, rfl, .refl _⟩
  | eAdv u w =>
    exact ⟨_, _, rfl, rfl, .ite (fun _ => .raise _ _ hs) fun _ => .ite (fun _ => .raise _ _ hs) fun _ =>
      advanceE_ignoresPol u w _ _ hs⟩
  | eBit sym b =>
    exact ⟨_, _, rfl, rfl, .ite (fun _ => .raise _ _ hs) fun _ => .ite (fun _ => .raise _ _ hs) fun _ =>
      advanceE_ignoresPol _ _ _ _ hs⟩
  | eFlush =>
    exact ⟨_, _, rfl, rfl, .ite (fun _ => .ok hs) fun _ => .ite (fun _ => .raise _ _ hs) fun _ =>
      flushFrom_ignoresPol _ _ _ _ hs⟩
  | dInit n =>
    refine ⟨_, _, rfl, rfl, .ite (fun _ => .raise _ _ hs) fun _ => ?_⟩
    refine .andThen (withDecoder_ignoresPol _ _ _ (.inr ⟨hr, q, rfl⟩)) (.of_empty fun _ p ht => ?_)
    exact .ok (.inr ⟨ht, p, rfl⟩)
  | dAdv u w =>
    exact ⟨_, _, rfl, rfl, .ite (fun _ => .raise _ _ hs) fun _ => .ite (fun _ => .raise _ _ hs) fun _ =>
      withDecoder_ignoresPol _ _ _ hs⟩
  | dBit b =>
    exact ⟨_, _, rfl, rfl, .ite (fun _ => .raise _ _ hs) fun _ => .ite (fun _ => .raise _ _ hs) fun _ =>
      withDecoder_ignoresPol _ _ _ (.inr ⟨hr, q, rfl⟩)⟩
  | recover tlen plen =>
    exact ⟨_, _, rfl, rfl, .ite (fun _ => .raise _ _ hs) fun _ => .ite (fun _ => .raise _ _ hs) fun _ =>
      recoverResult_ignoresPol _ _ _ (.inr ⟨hr, q, rfl⟩)⟩

theorem SameButPol.exists_runPol {s t : State} (h : SameButPol s t) :
    ∃ q, t = { s with runPol := q } ∧ (s.runLen ≠ 0 → q = s.runPol) := by
  rcases h with rfl | ⟨hr, q, rfl⟩
  · exact ⟨t.runPol, rfl, fun _ => rfl⟩
  · exact ⟨q, rfl, fun hne => absurd hr hne⟩

/-- Settles O26: the two runs of the command end alike. -/
theorem polarityOfAnEmptyRunIsIgnored : Obligations.PolarityOfAnEmptyRunIsIgnored := by
  unfold Obligations.PolarityOfAnEmptyRunIsIgnored
  intro i s t p hr h
  obtain ⟨m, m', hm, hm', hsame⟩ := exec_ignoresPol i hr p
  rw [hm] at h
  rw [hm']
  cases hsame with
  | ok hs =>
    cases h
    obtain ⟨q, rfl, hq⟩ := hs.exists_runPol
    exact ⟨q, rfl, hq⟩
  | raise c info hs =>
    cases h
    obtain ⟨q, rfl, hq⟩ := hs.exists_runPol
    exact ⟨q, rfl, hq⟩
  | stop f => cases h

end Sys2Proof.Machine
end

section
/-! SUPPORT. The register map (10_state.md R46 to R58): the fields of its words and its addresses. -/

namespace Sys2Proof.Machine

/-! ## Fields of a word -/

/-- A field at the bottom of a word is read back where nothing else has a bit. -/
theorem extract_lowField {k : Nat} (hk : k ≤ 32) (a : BitVec k) {r : Word}
    (hr : ∀ j < k, r.getLsbD j = false) : (a.setWidth 32 ||| r).extractLsb' 0 k = a := by
  apply BitVec.eq_of_getLsbD_eq
  intro j hj
  rw [BitVec.getLsbD_extractLsb', Nat.zero_add, BitVec.getLsbD_or, BitVec.getLsbD_setWidth, hr j hj]
  simp [hj, show j < 32 by omega]

/-- Above the field at its bottom a word has the other fields' bits. -/
theorem getLsbD_aboveField {k j : Nat} (a : BitVec k) (r : Word) (hj : k ≤ j) :
    (a.setWidth 32 ||| r).getLsbD j = r.getLsbD j := by
  rw [BitVec.getLsbD_or, BitVec.getLsbD_setWidth, BitVec.getLsbD_of_ge a j hj, Bool.and_false,
    Bool.false_or]

/-- The reserved bits of a word that has no bit from position `i` on. -/
theorem extract_reserved {v : Word} {i : Nat} (h : ∀ j, i ≤ j → v.getLsbD j = false) (n : Nat) :
    v.extractLsb' i n = 0 := by
  apply BitVec.eq_of_getLsbD_eq
  intro j hj
  rw [BitVec.getLsbD_extractLsb', h (i + j) (Nat.le_add_right i j), Bool.and_false]
  exact BitVec.getLsbD_zero.symm

/-- A one-bit field is set at its own position only. -/
theorem getLsbD_flagAt (b : Bool) {i : Nat} (hi : i < 32) (j : Nat) :
    (flagAt b i).getLsbD j = (b && decide (j = i)) := by
  cases b with
  | false => simp [flagAt]
  | true =>
    rw [flagAt, if_pos rfl, BitVec.getLsbD_shiftLeft, BitVec.getLsbD_one, Bool.true_and]
    rcases Nat.lt_trichotomy j i with h | h | h
    · simp [h, Nat.ne_of_lt h]
    · simp [h, hi]
    · simp [show ¬ j < i by omega, show j - i ≠ 0 by omega, show j ≠ i by omega]

/-- MODE as the two-bit field of STATUS (R38, R47). -/
def Mode.field : Mode → BitVec 2
  | .idle => 0
  | .enc => 1
  | .dec => 2
  | .fin => 3

theorem Mode.code_eq_field (m : Mode) : m.code = m.field.setWidth 32 := by
  cases m <;> rfl

/-- STATUS: a two-bit field and three flags above it (R47). -/
theorem status_fields (m : BitVec 2) (x y z : Bool) {v : Word}
    (hv : v = m.setWidth 32 ||| flagAt x 2 ||| flagAt y 3 ||| flagAt z 4) :
    v.extractLsb' 0 2 = m ∧ v.getLsbD 2 = x ∧ v.getLsbD 3 = y ∧ v.getLsbD 4 = z ∧
    v.extractLsb' 5 27 = 0 := by
  rw [BitVec.or_assoc, BitVec.or_assoc] at hv
  have flags : ∀ j, (flagAt x 2 ||| (flagAt y 3 ||| flagAt z 4)).getLsbD j =
      (x && decide (j = 2) || (y && decide (j = 3) || z && decide (j = 4))) := by
    intro j
    rw [BitVec.getLsbD_or, BitVec.getLsbD_or, getLsbD_flagAt x (by omega), getLsbD_flagAt y (by omega),
      getLsbD_flagAt z (by omega)]
  have above : ∀ j, 2 ≤ j → v.getLsbD j = (x && decide (j = 2) || (y && decide (j = 3) || z && decide (j = 4))) :=
    fun j hj => by rw [hv, getLsbD_aboveField m _ hj, flags]
  refine ⟨?_, (above 2 (by omega)).trans (by simp), (above 3 (by omega)).trans (by simp),
    (above 4 (by omega)).trans (by simp), extract_reserved (fun j hj => ?_) 27⟩
  · rw [hv]
    refine extract_lowField (by omega) m fun j hj => ?_
    rw [flags]
    simp [show j ≠ 2 by omega, show j ≠ 3 by omega, show j ≠ 4 by omega]
  · rw [above j (by omega)]
    simp [show j ≠ 2 by omega, show j ≠ 3 by omega, show j ≠ 4 by omega]

/-- FAULT and QUEUE: a byte with a field of `k` bits above it (R48, R53). -/
theorem byteAndField_fields {k : Nat} (hk : k ≤ 24) (a : Byte) (b : BitVec k) {v : Word}
    (hv : v = a.setWidth 32 ||| (b.setWidth 32 <<< 8)) :
    v.extractLsb' 0 8 = a ∧ v.extractLsb' 8 k = b ∧ v.extractLsb' (8 + k) (24 - k) = 0 := by
  have high : ∀ j, (b.setWidth 32 <<< 8).getLsbD j = (!decide (j < 8) && b.getLsbD (j - 8)) := by
    intro j
    rw [BitVec.getLsbD_shiftLeft, BitVec.getLsbD_setWidth]
    by_cases hj : j < 32
    · simp [hj, show j - 8 < 32 by omega]
    · simp [BitVec.getLsbD_of_ge b (j - 8) (by omega)]
  have above : ∀ j, 8 ≤ j → v.getLsbD j = b.getLsbD (j - 8) := by
    intro j hj
    rw [hv, getLsbD_aboveField a _ hj, high, decide_eq_false (by omega), Bool.not_false, Bool.true_and]
  refine ⟨?_, ?_, extract_reserved (fun j hj => ?_) _⟩
  · rw [hv]
    refine extract_lowField (by omega) a fun j hj => ?_
    rw [high, decide_eq_true hj, Bool.not_true, Bool.false_and]
  · apply BitVec.eq_of_getLsbD_eq
    intro j hj
    rw [BitVec.getLsbD_extractLsb', above _ (by omega), decide_eq_true hj, Bool.true_and,
      Nat.add_sub_cancel_left]
  · rw [above j (by omega), BitVec.getLsbD_of_ge b _ (by omega)]

/-- EMIT and RCV: a byte and two flags above it (R54, R58). -/
theorem byteAndFlags_fields (a : Byte) (x y : Bool) {v : Word}
    (hv : v = a.setWidth 32 ||| flagAt x 8 ||| flagAt y 9) :
    v.extractLsb' 0 8 = a ∧ v.getLsbD 8 = x ∧ v.getLsbD 9 = y ∧ v.extractLsb' 10 22 = 0 := by
  rw [BitVec.or_assoc] at hv
  have flags : ∀ j, (flagAt x 8 ||| flagAt y 9).getLsbD j = (x && decide (j = 8) || y && decide (j = 9)) := by
    intro j
    rw [BitVec.getLsbD_or, getLsbD_flagAt x (by omega), getLsbD_flagAt y (by omega)]
  have above : ∀ j, 8 ≤ j → v.getLsbD j = (x && decide (j = 8) || y && decide (j = 9)) :=
    fun j hj => by rw [hv, getLsbD_aboveField a _ hj, flags]
  refine ⟨?_, (above 8 (by omega)).trans (by simp), (above 9 (by omega)).trans (by simp),
    extract_reserved (fun j hj => ?_) 22⟩
  · rw [hv]
    refine extract_lowField (by omega) a fun j hj => ?_
    rw [flags]
    simp [show j ≠ 8 by omega, show j ≠ 9 by omega]
  · rw [above j (by omega)]
    simp [show j ≠ 8 by omega, show j ≠ 9 by omega]

theorem Polarity.bit_eq (p : Polarity) : p.bit = decide (p = .allOnes) := by
  cases p <;> rfl

theorem RcvState.bit_eq (r : RcvState) : r.bit = decide (r = .done) := by
  cases r <;> rfl

/-- Settles O58: the fields of each word, one register after the other. -/
theorem registerMapFields : Obligations.RegisterMapFields := by
  unfold Obligations.RegisterMapFields
  intro s
  refine ⟨?status, ?fault, ⟨rfl, rfl, rfl, rfl⟩, ?queue, ?emit, ⟨rfl, rfl, rfl, rfl⟩, ?rcv⟩
  case status =>
    have hv : readReg s 0x00 = s.mode.field.setWidth 32 ||| flagAt s.faulted 2 ||| flagAt s.carry 3 |||
        flagAt s.dbit 4 := by
      rw [← Mode.code_eq_field]; rfl
    exact status_fields s.mode.field s.faulted s.carry s.dbit hv
  case fault => exact byteAndField_fields (by omega) s.faultCode s.faultOp rfl
  case queue => exact byteAndField_fields (by omega) s.pbits s.pcnt rfl
  case emit =>
    rw [← Polarity.bit_eq]
    exact byteAndFlags_fields s.held s.heldV s.runPol.bit rfl
  case rcv =>
    rw [← RcvState.bit_eq]
    exact byteAndFlags_fields s.rcvByte s.rcvFound s.rcvState.bit rfl

/-! ## Addresses -/

theorem clearLowBits_div (a : Byte) : (a &&& 0xFC).toNat / 4 = a.toNat / 4 := by
  have ha := a.isLt
  have h63 : a.toNat / 4 &&& 63 = a.toNat / 4 % 64 := Nat.and_two_pow_sub_one_eq_mod _ 6
  rw [BitVec.toNat_and, show (4 : Nat) = 2 ^ 2 from rfl, Nat.and_div_two_pow]
  show a.toNat / 4 &&& 63 = a.toNat / 4
  rw [h63]
  omega

theorem readReg_unlisted {s : State} {a : Byte} (h : 13 ≤ a.toNat / 4) : readReg s a = 0 := by
  obtain ⟨n, hn⟩ := Nat.exists_eq_add_of_le' h
  rw [readReg, hn]
  rfl

/-- Settles O59: a read looks only at the number of the word. -/
theorem registerAddresses : Obligations.RegisterAddresses := by
  unfold Obligations.RegisterAddresses
  intro s a
  refine ⟨?_, fun ha => readReg_unlisted (by omega)⟩
  unfold readReg
  rw [clearLowBits_div]

end Sys2Proof.Machine
end

section
/-! SUPPORT. Progress: from a state with the invariant every step gives a next state (20_memory.md R72,
30_encoding.md R105, 42_decode.md R214, R215). -/

namespace Sys2Proof.Machine

/-- A command of a good state ends in a next state, a fault included (R105, R271). -/
theorem exec_progress (i : Instr) {s : State} (hs : s.Inv) (hf : s.faulted = false) :
    ∃ t, exec i s = .next t := by
  obtain ⟨m, hb, he⟩ := exec_eq_finish i s
  rw [he]
  exact Micro.finish_next (hb.raises hs hf) i.opcode

theorem step_of_decode_empty {s : State} (hf : s.faulted = false) (hd : decode s.cmd = .empty) :
    step s = .next s := by
  simp [step, fetch, hf, hd]

theorem step_progress {s : State} (hs : s.Inv) : ∃ t, step s = .next t := by
  cases hf : s.faulted with
  | true => exact ⟨_, step_faulted hf⟩
  | false =>
    cases hd : decode s.cmd with
    | empty => exact ⟨_, step_of_decode_empty hf hd⟩
    | incomplete => exact ⟨_, step_incomplete hf hd⟩
    | illegal why => exact ⟨_, step_illegal hf hd⟩
    | packet i rest =>
      rw [step_packet hf hd]
      exact exec_progress i (s := { s with cmd := rest }) hs hf

/-- Settles O12, by induction on the number of steps, which the invariant carries. -/
theorem noRunStopsTheModel : Obligations.NoRunStopsTheModel := by
  unfold Obligations.NoRunStopsTheModel
  intro s hs k
  induction k generalizing s with
  | zero => exact ⟨s, rfl⟩
  | succ k ih =>
    obtain ⟨t, ht⟩ := step_progress hs
    rw [run_succ k ht]
    exact ih t (everyStepKeepsTheInvariant s t hs ht)

end Sys2Proof.Machine
end

section
/-! SUPPORT. The acts of the host (20_memory.md R70 to R83, 70_reset_and_hazards.md R300): a written byte is
read back, and every act keeps the invariant. -/

namespace Sys2Proof.Machine

/-! ## Writing a byte -/

theorem hostAct_write_eq_some {s t : State} {b : Buffer} {a : Nat} {v : Byte} :
    hostAct (.write b a v) s = some t ↔
      (s.betweenCommands = true ∧ a < bufferSize s.params b) ∧ s.setByte b a v = t := by
  simp only [hostAct, Option.ite_none_right_eq_some, Option.some.injEq]

@[simp] theorem State.setByte_params (s : State) (b : Buffer) (a : Nat) (v : Byte) :
    (s.setByte b a v).params = s.params := by
  cases b <;> rfl

@[simp] theorem State.setByte_resetCount (s : State) (b : Buffer) (a : Nat) (v : Byte) :
    (s.setByte b a v).resetCount = s.resetCount := by
  cases b <;> rfl

@[simp] theorem State.setByte_mem_same (s : State) (b : Buffer) (a : Nat) (v : Byte) :
    (s.setByte b a v).mem b = Memory.write (s.mem b) a v := by
  cases b <;> rfl

theorem State.setByte_mem_other (s : State) {b b' : Buffer} (h : b' ≠ b) (a : Nat) (v : Byte) :
    (s.setByte b a v).mem b' = s.mem b' := by
  cases b with
  | input =>
    cases b' with
    | input => exact absurd rfl h
    | plaintext => rfl
  | plaintext =>
    cases b' with
    | input => rfl
    | plaintext => exact absurd rfl h

/-- A write changes nothing but the two buffers (R79). -/
theorem State.setByte_frame (s : State) (b : Buffer) (a : Nat) (v : Byte) :
    s.setByte b a v =
      { s with inMem := (s.setByte b a v).inMem, ptMem := (s.setByte b a v).ptMem } := by
  cases b <;> rfl

theorem State.byteAt_setByte_same (s : State) (b : Buffer) (a : Nat) (v : Byte) :
    (s.setByte b a v).byteAt b a = v := by
  simp only [State.byteAt, State.setByte_mem_same, Memory.read_write_same]

theorem State.byteAt_setByte_other (s : State) {b b' : Buffer} {a a' : Nat} (h : (b', a') ≠ (b, a))
    (v : Byte) : (s.setByte b a v).byteAt b' a' = s.byteAt b' a' := by
  have hread : Memory.read ((s.setByte b a v).mem b') a' = Memory.read (s.mem b') a' := by
    by_cases hb : b' = b
    · subst hb
      rw [State.setByte_mem_same, Memory.read_write_other _ _ _ _ fun ha => h (by rw [ha])]
    · rw [State.setByte_mem_other s hb]
  rw [State.byteAt, hread, State.setByte_resetCount]
  rfl

/-- Settles O57: reading after writing, for `State.setByte`. -/
theorem hostWritesAreSeen : Obligations.HostWritesAreSeen := by
  unfold Obligations.HostWritesAreSeen
  intro s t b a v h
  obtain ⟨⟨-, ha⟩, rfl⟩ := hostAct_write_eq_some.1 h
  refine ⟨?_, fun b' a' hne => ?_, s.setByte_frame b a v⟩
  · rw [memRead, State.setByte_params, if_pos ha, State.byteAt_setByte_same]
  · rw [memRead, State.setByte_params, State.byteAt_setByte_other s hne]
    rfl

/-! ## The host's acts and the invariant -/

theorem State.buffersOk.setByte {s : State} (h : s.buffersOk) {b : Buffer} {a : Nat} (v : Byte)
    (ha : a < bufferSize s.params b) : (s.setByte b a v).buffersOk := by
  obtain ⟨hin, hpt, hlen⟩ := h
  cases b with
  | input => exact ⟨Memory.wf_write _ _ a v hin ha, hpt, hlen⟩
  | plaintext => exact ⟨hin, Memory.wf_write _ _ a v hpt ha, hlen⟩

/-- The invariant asks of IN and PT only that they are in canonical form (R70). -/
theorem State.Inv.setByte {s : State} (h : s.Inv) {b : Buffer} {a : Nat} (v : Byte)
    (ha : a < bufferSize s.params b) : (s.setByte b a v).Inv := by
  obtain ⟨hp, hb, hrest⟩ := h
  have hb' := hb.setByte v ha
  cases b with
  | input => exact ⟨hp, hb', hrest⟩
  | plaintext => exact ⟨hp, hb', hrest⟩

/-- Reset gives the invariant, whatever the parameters within R6's bounds (R300 to R303). -/
theorem State.resetWith_inv {p : Params} (hp : p.valid) (n : Nat) : (State.resetWith p n).Inv :=
  ⟨hp, ⟨rfl, rfl, Nat.zero_le _⟩, fun h => (nomatch h), fun h => (nomatch h), Nat.one_pos,
    ⟨rfl, rfl, rfl⟩, fun h => (nomatch h), fun h => (nomatch h), fun _ h => (nomatch h),
    fun _ h => (nomatch h)⟩

/-- Settles O11, one act after the other. -/
theorem everyHostActKeepsTheInvariant : Obligations.EveryHostActKeepsTheInvariant := by
  unfold Obligations.EveryHostActKeepsTheInvariant
  intro s t x hs h
  cases x with
  | send w => cases h; exact hs
  | write b a v =>
    obtain ⟨⟨-, ha⟩, rfl⟩ := hostAct_write_eq_some.1 h
    exact hs.setByte v ha
  | rst => cases h; exact State.resetWith_inv hs.1 _

end Sys2Proof.Machine
end

section
/-! SUPPORT. What commands and steps leave of memory, CMD, OUT and the parameters (00_scope.md R6,
20_memory.md R71, R75). -/

namespace Sys2Proof.Machine

/-! ## Memory -/

/-- What CORE never does to memory, whatever it runs: it writes neither IN nor PT nor the parameters, and
OUT only at its end (R6, R71, R75). -/
structure KeepsMemory (s t : State) : Prop where
  params : t.params = s.params
  inMem : t.inMem = s.inMem
  ptMem : t.ptMem = s.ptMem
  resetCount : t.resetCount = s.resetCount
  appends : ∃ bs, t.out = s.out ++ bs ∧ t.outcnt = s.outcnt + BitVec.ofNat 32 bs.length

/-- Every read answers as before, also where the host has written nothing (R72, R302). -/
theorem KeepsMemory.memRead_eq {s t : State} (h : KeepsMemory s t) (b : Buffer) (a : Nat) :
    memRead t b a = memRead s b a := by
  have hm : t.mem b = s.mem b := by
    cases b with
    | input => exact h.inMem
    | plaintext => exact h.ptMem
  rw [memRead, State.byteAt, h.params, hm, h.resetCount]
  rfl

theorem KeepsMemory.of_same_out {s t : State} (hp : t.params = s.params) (hin : t.inMem = s.inMem)
    (hpt : t.ptMem = s.ptMem) (hr : t.resetCount = s.resetCount) (ho : t.out = s.out)
    (hc : t.outcnt = s.outcnt) : KeepsMemory s t :=
  ⟨hp, hin, hpt, hr, [], by simp [ho, hc]⟩

theorem KeepsMemory.enterFault {s t : State} (h : KeepsMemory s t) (op : Byte) (c : FaultCode)
    (info : Word) : KeepsMemory s (t.enterFault op c info) :=
  ⟨h.params, h.inMem, h.ptMem, h.resetCount, h.appends⟩

theorem FlushFrame.refl (s : State) : FlushFrame s s := .of_emitter (.refl s)

theorem FlushFrame.keepsMemory {s t : State} (h : FlushFrame s t) : KeepsMemory s t := by
  obtain ⟨happ, ht⟩ := h
  refine ⟨?_, ?_, ?_, ?_, happ⟩ <;> rw [ht]

/-- What the decode commands and RECOVER may write: the decoder's registers, MODE, DBIT and the three
RECOVER registers (R210 to R217, R247). -/
def DecodeFrame (s t : State) : Prop :=
  t = { s with
    range := t.range, code := t.code, ipos := t.ipos, ilen := t.ilen, mode := t.mode, dbit := t.dbit
    rcvByte := t.rcvByte, rcvFound := t.rcvFound, rcvState := t.rcvState }

theorem DecodeFrame.out_eq {s t : State} (h : DecodeFrame s t) : t.out = s.out ∧ t.outcnt = s.outcnt := by
  rw [h]
  exact ⟨rfl, rfl⟩

theorem DecodeFrame.keepsMemory {s t : State} (h : DecodeFrame s t) : KeepsMemory s t := by
  rw [h]
  exact .of_same_out rfl rfl rfl rfl rfl rfl

/-- The commands of 41_encode.md. -/
abbrev Encodes (op : Opcode) : Prop := op = .eInit ∨ op = .eAdv ∨ op = .eBit ∨ op = .eFlush

/-- An encode command writes what E.FLUSH may write, a fault's half-done writes included. -/
theorem CommandBody.flushFrame {s : State} {i : Instr} {m : Micro} (hb : CommandBody s i m)
    (hi : Encodes i.opcode) : m.Ends (FlushFrame s) := by
  cases hb with
  | refused => exact .refl s
  | eInit => exact ⟨⟨[], by simp⟩, rfl⟩
  | advance => exact (advanceE_frame _ _ s).mono fun t => .of_emitter
  | flushAgain => exact .refl s
  | flush => exact flushFrom_frame _ _ s
  | dInit => exact absurd hi (show ¬ Encodes .dInit by decide)
  | decode hd => rcases hd with ⟨hd, -⟩ | hd <;> exact absurd (hd ▸ hi) (by decide)
  | recover => exact absurd hi (show ¬ Encodes .recover by decide)

/-- Every other command writes what the decoder and RECOVER may write. -/
theorem CommandBody.decodeFrame {s : State} {i : Instr} {m : Micro} (hb : CommandBody s i m)
    (hi : ¬ Encodes i.opcode) : m.Ends (DecodeFrame s) := by
  cases hb with
  | refused => exact rfl
  | eInit => exact absurd (by decide) hi
  | advance he => rcases he with he | he <;> exact absurd (he ▸ by decide) hi
  | flushAgain => exact absurd (by decide) hi
  | flush => exact absurd (by decide) hi
  | dInit => exact rfl
  | @decode i u w bit =>
    cases Dec.advance (inByte s) u w s.decoder with
    | error f => trivial
    | ok d => exact rfl
  | @recover tlen plen =>
    cases searchIn (matchCandidate s tlen plen) candidates with
    | stop f => trivial
    | _ => exact rfl

/-- What holds however a command's pseudocode ends, and still once a fault is entered, holds of the
command's next state (R271). -/
theorem exec_next_of_ends {P : State → Prop} {i : Instr} {s t : State} (h : exec i s = .next t)
    (hP : ∀ m, CommandBody s i m → m.Ends P)
    (hfault : ∀ r op c info, P r → P (r.enterFault op c info)) : P t := by
  obtain ⟨m, hb, he⟩ := exec_eq_finish i s
  have hm := hP m hb
  rw [he] at h
  rcases Micro.finish_eq_next.1 h with rfl | ⟨c, info, r, rfl, rfl⟩
  · exact hm
  · exact hfault r _ c info hm

theorem CommandBody.keepsMemory {s : State} {i : Instr} {m : Micro} (hb : CommandBody s i m) :
    m.Ends (KeepsMemory s) := by
  by_cases hi : Encodes i.opcode
  · exact (hb.flushFrame hi).mono fun t => FlushFrame.keepsMemory
  · exact (hb.decodeFrame hi).mono fun t => DecodeFrame.keepsMemory

theorem exec_keepsMemory {i : Instr} {s t : State} (h : exec i s = .next t) : KeepsMemory s t :=
  exec_next_of_ends h (fun _ hb => hb.keepsMemory) fun _ op c info hr => hr.enterFault op c info

theorem step_keepsMemory {s t : State} (h : step s = .next t) : KeepsMemory s t := by
  rcases step_cases h with ⟨-, rfl⟩ | ⟨-, -, rfl⟩ | ⟨-, hd, rest, why, -, -, rfl⟩ | ⟨-, i, rest, -, he⟩
  · exact .of_same_out rfl rfl rfl rfl rfl rfl
  · exact .of_same_out rfl rfl rfl rfl rfl rfl
  · exact .of_same_out rfl rfl rfl rfl rfl rfl
  · obtain ⟨hp, hin, hpt, hr, happ⟩ := exec_keepsMemory he
    exact ⟨hp, hin, hpt, hr, happ⟩

/-- Settles O55: no step writes memory. -/
theorem stepsLeaveTheBuffersAlone : Obligations.StepsLeaveTheBuffersAlone := by
  unfold Obligations.StepsLeaveTheBuffersAlone
  intro s t h
  have hk := step_keepsMemory h
  exact ⟨hk.params, hk.inMem, hk.ptMem, hk.memRead_eq⟩

/-! ## OUT -/

/-- Only E.ADV, E.BIT and E.FLUSH append to OUT (R75). -/
theorem exec_out_eq {i : Instr} {s t : State} (h : exec i s = .next t) (hadv : i.opcode ≠ .eAdv)
    (hbit : i.opcode ≠ .eBit) (hflush : i.opcode ≠ .eFlush) : t.out = s.out ∧ t.outcnt = s.outcnt := by
  by_cases hinit : i.opcode = .eInit
  · cases i with
    | eInit => cases h; exact ⟨rfl, rfl⟩
    | _ => cases hinit
  · have hne : ¬ Encodes i.opcode := by
      rintro (he | he | he | he)
      · exact hinit he
      · exact hadv he
      · exact hbit he
      · exact hflush he
    exact exec_next_of_ends h (fun _ hb => (hb.decodeFrame hne).mono fun _ => DecodeFrame.out_eq)
      fun _ _ _ _ hr => hr

/-- Settles O54: OUT grows at its end, by what the command commits. -/
theorem outIsAppendOnly : Obligations.OutIsAppendOnly := by
  unfold Obligations.OutIsAppendOnly
  exact ⟨fun s t h => (step_keepsMemory h).appends, fun i s t => exec_out_eq⟩

/-! ## The encode commands -/

/-- What an encode command leaves of the decoder, of RECOVER's results and of CMD (R180 to R185). -/
structure EncodeFrame (s t : State) : Prop where
  decoder : t.code = s.code ∧ t.ipos = s.ipos ∧ t.ilen = s.ilen ∧ t.dbit = s.dbit
  rcv : t.rcvByte = s.rcvByte ∧ t.rcvFound = s.rcvFound ∧ t.rcvState = s.rcvState
  cmd : t.cmd = s.cmd

theorem FlushFrame.encodeFrame {s t : State} (h : FlushFrame s t) : EncodeFrame s t := by
  rw [h.2]
  exact ⟨⟨rfl, rfl, rfl, rfl⟩, ⟨rfl, rfl, rfl⟩, rfl⟩

/-- Settles O39: the frame of E.FLUSH covers the four commands, and memory is every command's. -/
theorem encodeCommandsFrame : Obligations.EncodeCommandsFrame := by
  unfold Obligations.EncodeCommandsFrame
  intro i s t hi h
  have hk := exec_keepsMemory h
  have he : EncodeFrame s t :=
    exec_next_of_ends h (fun _ hb => (hb.flushFrame hi).mono fun _ => FlushFrame.encodeFrame)
      fun _ _ _ _ hr => ⟨hr.decoder, hr.rcv, hr.cmd⟩
  exact ⟨he.decoder, he.rcv, ⟨hk.params, he.cmd, hk.resetCount⟩, hk.memRead_eq⟩

end Sys2Proof.Machine
end

section
/-! SUPPORT. Command packets (30_encoding.md R100 to R107): which words decode to a command, which headers
are illegal, and how long a packet is. -/

namespace Sys2Proof

/-! ## The decoder, by what the header is -/

theorem decode_of_ok {h : Word} {op : Opcode} (hc : classify h = .ok op) (ws : List Word) :
    decode (h :: ws) = assemble op (headerOf h).sym ws := by
  simp only [decode, hc]

theorem decode_of_error {h : Word} {why : Illegal} (hc : classify h = .error why) (ws : List Word) :
    decode (h :: ws) = .illegal why := by
  simp only [decode, hc]

/-- A legal header's packet is incomplete exactly while fewer than N operand words have come (R103, R311). -/
theorem assemble_eq_incomplete_iff (op : Opcode) (sym : Bool) (ws : List Word) :
    assemble op sym ws = .incomplete ↔ ws.length < op.operandCount := by
  fun_cases assemble op sym ws <;> simp [Opcode.operandCount]

theorem assemble_ne_illegal (op : Opcode) (sym : Bool) (ws : List Word) (why : Illegal) :
    assemble op sym ws ≠ .illegal why := by
  fun_cases assemble op sym ws <;> exact Decoded.noConfusion

/-- The N operand words of a legal header make one packet, with no word left. -/
theorem assemble_of_complete {op : Opcode} {sym : Bool} {ws : List Word}
    (h : ws.length = op.operandCount) : ∃ i, assemble op sym ws = .packet i [] := by
  fun_cases assemble op sym ws <;> simp [Opcode.operandCount] at h ⊢ <;> assumption

theorem decode_eq_illegal_iff {h : Word} {ws : List Word} {why : Illegal} :
    decode (h :: ws) = .illegal why ↔ classify h = .error why := by
  cases hc : classify h with
  | error e => simp [decode_of_error hc]
  | ok op => simp [decode_of_ok hc, assemble_ne_illegal]

/-- A packet put together from a header and the words after it has those very words. -/
theorem encode_of_assemble {op : Opcode} {sym : Bool} {ws rest : List Word} {i : Instr}
    (hs : sym = true → op = .eBit) (h : assemble op sym ws = .packet i rest) :
    headerWord op sym :: ws = encode i ++ rest := by
  cases sym with
  | true =>
    cases hs rfl
    cases ws with
    | nil => cases h
    | cons bound ws => cases h; rfl
  | false =>
    unfold assemble at h
    split at h <;> cases h <;> rfl

/-- `decode_encode`, and the converse: a decoded packet is the words it was read from. -/
theorem decode_eq_packet_iff (ws : List Word) (i : Instr) (rest : List Word) :
    decode ws = .packet i rest ↔ ws = encode i ++ rest := by
  refine ⟨fun h => ?_, fun h => h ▸ Machine.decode_encode i rest⟩
  cases ws with
  | nil => cases h
  | cons hd ops =>
    cases hc : classify hd with
    | error why => rw [decode_of_error hc] at h; cases h
    | ok op =>
      obtain ⟨hhd, hs⟩ := classify_eq_ok hc
      rw [decode_of_ok hc] at h
      calc hd :: ops = headerWord op (headerOf hd).sym :: ops := by rw [← hhd]
        _ = encode i ++ rest := encode_of_assemble hs h

/-- Settles O1: `decode_encode` one way, and the words of a legal header's packet the other way. -/
theorem decodeReadsExactlyTheEncoding : Obligations.DecodeReadsExactlyTheEncoding := by
  unfold Obligations.DecodeReadsExactlyTheEncoding
  exact decode_eq_packet_iff

/-- Settles O4: the decoder runs on each packet. -/
theorem wordsOfTheTableDecode : Obligations.WordsOfTheTableDecode := by
  unfold Obligations.WordsOfTheTableDecode
  decide

/-! ## The length of a packet -/

/-- The first word of an encoding is the header of the command's opcode, and N words follow it (R103). -/
theorem encode_eq_cons {i : Instr} {h : Word} {ops : List Word} (he : encode i = h :: ops) :
    classify h = .ok i.opcode ∧ ops.length = i.opcode.operandCount := by
  cases i <;> cases he <;> exact ⟨classify_headerWord _ _ (by simp), rfl⟩

/-- Settles O3: the header of an encoding classifies as its opcode, which fixes N. -/
theorem packetLengthFromTheHeader : Obligations.PacketLengthFromTheHeader := by
  unfold Obligations.PacketLengthFromTheHeader
  refine ⟨fun i => ?_, fun i h ops he => ?_, fun h rest why hd => ?_⟩
  · cases i <;> rfl
  · obtain ⟨hc, hlen⟩ := encode_eq_cons he
    rw [packetLength_of_ok hc, he, List.length_cons, hlen, Nat.add_comm]
  · exact packetLength_of_error (decode_eq_illegal_iff.1 hd)

/-- More than one word means a legal header with operand words to come (R106). -/
theorem exists_opcode_of_packetLength {h : Word} (hl : packetLength h ≠ 1) :
    ∃ op, classify h = .ok op ∧ packetLength h = 1 + op.operandCount := by
  cases hc : classify h with
  | error why => exact absurd (packetLength_of_error hc) hl
  | ok op => exact ⟨op, rfl, packetLength_of_ok hc⟩

theorem decode_of_short {h : Word} {ops : List Word} (hl : ops.length + 1 < packetLength h) :
    decode (h :: ops) = .incomplete := by
  obtain ⟨op, hc, hop⟩ := exists_opcode_of_packetLength (h := h) (by omega)
  rw [decode_of_ok hc, assemble_eq_incomplete_iff]
  omega

/-- As many words as the header says are one command's encoding. -/
theorem decode_of_complete {h : Word} {ops : List Word} (hl : ops.length + 1 = packetLength h)
    (hne : packetLength h ≠ 1) : ∃ i, decode (h :: ops) = .packet i [] ∧ encode i = h :: ops := by
  obtain ⟨op, hc, hop⟩ := exists_opcode_of_packetLength hne
  have hlen : ops.length = op.operandCount := by omega
  obtain ⟨i, hi⟩ := assemble_of_complete (sym := (headerOf h).sym) hlen
  have hd : decode (h :: ops) = .packet i [] := (decode_of_ok hc ops).trans hi
  have hw : h :: ops = encode i ++ [] := (decode_eq_packet_iff _ i []).1 hd
  exact ⟨i, hd, by rw [hw, List.append_nil]⟩

/-! ## Illegal headers -/

/-- The eight legal values of OPC (R103). -/
def opcodeValues : List Byte := operandCounts.map Prod.fst

theorem exists_illegal_iff_not_legal (h : Word) (rest : List Word) :
    (∃ why, decode (h :: rest) = .illegal why) ↔ (headerOf h).legal = false := by
  rw [← Bool.not_eq_true, ← classify_isOk_iff_legal]
  cases hc : classify h <;> simp [decode_eq_illegal_iff, hc]

theorem Header.opcodeKnown_eq_false_iff (h : Header) : h.opcodeKnown = false ↔ h.opc ∉ opcodeValues := by
  rw [← Bool.not_eq_true, opcodeKnown, List.lookup_isSome_iff]
  simp [opcodeValues]

/-- The three conditions of R104, of which a legal header meets none. -/
theorem Header.legal_eq_false_iff (h : Header) :
    h.legal = false ↔ h.opc ∉ opcodeValues ∨ h.rsv ≠ 0 ∨ (h.sym = true ∧ h.opc ≠ 0x03) := by
  rw [← opcodeKnown_eq_false_iff]
  simp only [legal, reservedClear, symbolAllowed, Bool.and_eq_false_iff, Bool.or_eq_false_iff,
    Bool.not_eq_false', beq_eq_false_iff_ne, or_assoc]

theorem opcodeOf_eq_none_iff (b : Byte) : opcodeOf b = none ↔ b ∉ opcodeValues := by
  unfold opcodeOf
  repeat' split
  all_goals simp_all [opcodeValues, operandCounts]

theorem classify_eq_unknownOpcode_iff (h : Word) :
    classify h = .error .unknownOpcode ↔ (headerOf h).opc ∉ opcodeValues := by
  rw [← opcodeOf_eq_none_iff]
  cases hop : opcodeOf (headerOf h).opc with
  | none => simp only [classify, hop]
  | some op =>
    simp only [classify, hop, reduceCtorEq, iff_false]
    split
    · exact nofun
    · split <;> exact nofun

/-- A header word below 256 is its OPC (R101). -/
theorem decode_eq_unknownOpcode_iff (n : Nat) :
    decode [BitVec.ofNat 32 n] = .illegal .unknownOpcode ↔ BitVec.ofNat 8 n ∉ opcodeValues := by
  have hopc : (headerOf (BitVec.ofNat 32 n)).opc = BitVec.ofNat 8 n := by
    apply BitVec.eq_of_toNat_eq
    simp [headerOf]
  rw [decode_eq_illegal_iff, classify_eq_unknownOpcode_iff, hopc]

/-- No value of OPC from 0x22 on is legal (R103). -/
theorem not_mem_opcodeValues {n : Nat} (hlow : 34 ≤ n) (hhigh : n < 256) :
    BitVec.ofNat 8 n ∉ opcodeValues := by
  intro hmem
  have hle : ∀ b ∈ opcodeValues, b.toNat < 34 := by decide
  have hn := hle _ hmem
  rw [BitVec.toNat_ofNat] at hn
  omega

/-- Of the values of OPC 26 below 0x22 are illegal, and all 222 from there on (R104). -/
theorem length_illegalOpcodes :
    ((List.range 256).filter fun n =>
      decide (decode [BitVec.ofNat 32 n] = .illegal .unknownOpcode)).length = 248 := by
  have hlow : ((List.range 34).filter fun n =>
      decide (decode [BitVec.ofNat 32 n] = .illegal .unknownOpcode)).length = 26 := by decide
  have hhigh : ∀ n ∈ (List.range 222).map (34 + ·),
      decide (decode [BitVec.ofNat 32 n] = .illegal .unknownOpcode) = true := by
    intro n hn
    obtain ⟨m, hm, rfl⟩ := List.mem_map.1 hn
    have hlt := List.mem_range.1 hm
    exact decide_eq_true
      ((decode_eq_unknownOpcode_iff _).2 (not_mem_opcodeValues (by omega) (by omega)))
  rw [show 256 = 34 + 222 from rfl, List.range_add, List.filter_append, List.length_append, hlow,
    List.filter_eq_self.2 hhigh, List.length_map, List.length_range]

end Sys2Proof
end

section
/-! SUPPORT. What a step and a run do with the words on CMD (30_encoding.md R100, R104; 60_exceptions.md
R271, R274; 70_reset_and_hazards.md R283, R311). -/

namespace Sys2Proof.Machine

/-! ## Whole and incomplete packets -/

/-- Settles O5: the fetch of a step takes the decoded packet, and an encoding decodes to its command. -/
theorem stepRunsTheDecodedCommand : Obligations.StepRunsTheDecodedCommand := by
  unfold Obligations.StepRunsTheDecodedCommand
  refine ⟨fun s i rest hf hd => step_packet hf hd, fun s i rest hf hc => step_packet hf ?_⟩
  rw [hc]
  exact decode_encode i rest

/-- A state that steps to itself stays, however often it steps. -/
theorem run_of_step_self {s : State} (h : step s = .next s) (k : Nat) :
    Host.Core.run Sys2Proof.core k s = .next s := by
  induction k with
  | zero => rfl
  | succ k ih => rw [run_succ k h, ih]

/-- With no word on CMD a step changes nothing, faulted or not (R283). -/
theorem step_of_cmd_nil {s : State} (hc : s.cmd = []) : step s = .next s := by
  cases hf : s.faulted with
  | true => rw [step_faulted hf, dropWord_empty hc]
  | false => exact step_empty hf hc

/-- Settles O6: short packets decode to `incomplete`, on which a step waits; a complete one runs. -/
theorem incompletePacketWaits : Obligations.IncompletePacketWaits := by
  unfold Obligations.IncompletePacketWaits
  refine ⟨fun s k hc => run_of_step_self (step_of_cmd_nil hc) k, fun s h ops k hf hc hl => ?_,
    fun s h ops hf hc hl hne => ?_⟩
  · have hd : decode s.cmd = .incomplete := by rw [hc, decode_of_short hl]
    exact run_of_step_self (step_incomplete hf hd) k
  · obtain ⟨i, hd, he⟩ := decode_of_complete hl hne
    exact ⟨i, step_packet hf (by rw [hc, hd]), he⟩

/-! ## Illegal headers -/

/-- A faulted CORE drops one word a step and keeps everything else (R274). -/
theorem run_of_faulted {s : State} (hf : s.faulted = true) (k : Nat) :
    Host.Core.run Sys2Proof.core k s = .next { s with cmd := s.cmd.drop k } := by
  induction k generalizing s with
  | zero => rfl
  | succ k ih =>
    rw [run_succ k (step_faulted hf), ih (s := s.dropWord) hf, State.dropWord, List.drop_tail]

/-- The step on an illegal header takes fault 1 and the header word, and no other word (R104, R271). -/
theorem step_illegal_header {s : State} {h : Word} {rest : List Word} {why : Illegal}
    (hf : s.faulted = false) (hc : s.cmd = h :: rest) (hd : decode s.cmd = .illegal why) :
    step s = .next { s with
      cmd := rest
      faulted := true
      faultCode := 1
      faultOp := h.extractLsb' 0 8
      faultInfo := h } := by
  rw [step_illegal hf hd, State.dropWord, hc]
  rfl

/-- Settles O2: the conditions of a legal header, the step on an illegal one, and a run that drops words. -/
theorem illegalHeaderFaultsAtOnce : Obligations.IllegalHeaderFaultsAtOnce := by
  unfold Obligations.IllegalHeaderFaultsAtOnce
  refine ⟨fun h rest => ?_, fun s h rest why k hf hc hd => ?_, length_illegalOpcodes⟩
  · rw [exists_illegal_iff_not_legal, Header.legal_eq_false_iff]
    rfl
  · rw [run_succ k (step_illegal_header hf hc hd), run_of_faulted rfl]

end Sys2Proof.Machine
end

section
/-! SUPPORT. What EMIT, DEFER, FINALIZE and QPUSH(8) do, whole (40_datapath.md R144 to R149, R153), and
the encode commands at the longest run (R147, R273). -/

namespace Sys2Proof.Machine

/-! ## The byte emitter and the pending run -/

/-- Settles O21: DEFER's three outcomes. -/
theorem deferHoldsOrCommits : Obligations.DeferHoldsOrCommits := by
  unfold Obligations.DeferHoldsOrCommits
  exact ⟨fun _ hr => defer_fill hr, fun _ hr => defer_overflow hr, fun _ _ hb => defer_definite hb⟩

/-- With nothing held and no run, FINALIZE writes only HELD (R148). -/
theorem finalize_of_tailBytes_nil {s : State} (ht : s.tailBytes = []) :
    finalize s = { s with runLen := 0, held := 0, heldV := false } := by
  rw [finalize_eq, ht, List.append_nil, List.length_nil, BitVec.ofNat_eq_ofNat, BitVec.add_zero]

/-- FINALIZE leaves an empty tail, so a second one writes what is there (R148). -/
theorem finalize_finalize (s : State) : finalize (finalize s) = finalize s := by
  rw [finalize_of_tailBytes_nil (finalize_tailBytes s), finalize_eq]

/-- Settles O22: FINALIZE commits the whole-byte tail, and then the tail is empty. -/
theorem finalizeCommitsTheTailOnce : Obligations.FinalizeCommitsTheTailOnce := by
  unfold Obligations.FinalizeCommitsTheTailOnce
  exact fun s => ⟨finalize_eq s, finalize_finalize s⟩

/-- EMIT with a carry resolves the carry before the byte's fate is decided (R149). -/
theorem emit_carry (b : Byte) (s : State) : emit b true s = (emitCarry s).andThen (defer b) := rfl

/-- With nothing held and no run the whole-byte tail is empty (R44). -/
theorem tailBytes_eq_nil {s : State} (hv : s.heldV = false) (hr : s.runLen = 0) : s.tailBytes = [] := by
  rw [State.tailBytes, hv, hr]
  rfl

/-- DEFER of a definite byte into an empty tail commits nothing (R147). -/
theorem defer_definite_emptyTail {s : State} {b : Byte} (hb : b ≠ 0xFF) (hv : s.heldV = false)
    (hr : s.runLen = 0) : defer b s = .ok { s with runLen := 0, held := b, heldV := true } := by
  rw [defer_definite hb, tailBytes_eq_nil hv hr, List.append_nil, List.length_nil,
    BitVec.ofNat_eq_ofNat, BitVec.add_zero]

/-- DEFER of a fill byte behind no run starts an ALL_ONES run of one (R147). -/
theorem defer_fill_emptyRun {s : State} (hr : s.runLen = 0) :
    defer 0xFF s = .ok { s with runLen := 1, runPol := .allOnes } := by
  rw [defer_fill (by rw [hr]; decide), if_pos hr, hr]
  rfl

/-- Settles O20: the carry empties the tail into OUT, and the byte is deferred behind an empty tail. -/
theorem carryTurnsTheRunToZeros : Obligations.CarryTurnsTheRunToZeros := by
  unfold Obligations.CarryTurnsTheRunToZeros
  refine ⟨fun s b hv hd hb => ?definite, fun s hv hd => ?fill, fun s b hn => ?none⟩
  case definite =>
    rw [emit_carry, emitCarry_held hv hd, Micro.ok_andThen, defer_definite_emptyTail hb rfl rfl]
  case fill => rw [emit_carry, emitCarry_held hv hd, Micro.ok_andThen, defer_fill_emptyRun rfl]
  case none => rw [emit_carry, emitCarry_none hn, Micro.raise_andThen]

/-! ## The byte that QPUSH(8) forms -/

theorem toNat_topByte (low : Word) : (low.extractLsb' 24 8).toNat = low.toNat / 2 ^ 24 := by
  have := low.isLt
  rw [BitVec.extractLsb'_toNat, Nat.shiftRight_eq_div_pow]
  omega

/-- `x` and a byte behind it, cut `p` bits above the end: the byte above the cut and the bits below it. -/
theorem cut_below_byte (x b : Nat) {p : Nat} (hp : p ≤ 8) :
    (x * 2 ^ 8 + b) / 2 ^ p = x * 2 ^ (8 - p) + b / 2 ^ p ∧ (x * 2 ^ 8 + b) % 2 ^ p = b % 2 ^ p := by
  have h8 : x * 2 ^ 8 + b = b + 2 ^ p * (x * 2 ^ (8 - p)) := by
    rw [Nat.mul_left_comm, ← Nat.pow_add, Nat.add_sub_cancel' hp, Nat.add_comm]
  rw [h8, Nat.add_mul_div_left _ _ (Nat.two_pow_pos p), Nat.add_mul_mod_self_left, Nat.add_comm]
  exact ⟨rfl, rfl⟩

/-- R144: the second half of QPUSH(8) defers the queued bits with the top of LOW behind them, and keeps
the rest of LOW's top byte queued. -/
theorem queueShift_byte (pb : Nat) (s : State) :
    queueShift 8 pb s = defer
      (BitVec.ofNat 8 (pb * 2 ^ (8 - s.pcnt.toNat) + (s.low.extractLsb' 24 8).toNat / 2 ^ s.pcnt.toNat))
      { s with
        low := s.low <<< 8
        pbits := BitVec.ofNat 8 ((s.low.extractLsb' 24 8).toNat % 2 ^ s.pcnt.toNat) } := by
  obtain ⟨hdiv, hmod⟩ := cut_below_byte pb (s.low.toNat / 2 ^ 24) (p := s.pcnt.toNat) (by omega)
  rw [queueShift, if_pos (Nat.le_add_left 8 _), Nat.add_sub_cancel, hdiv, hmod, ← toNat_topByte,
    BitVec.ofNat_toNat, BitVec.setWidth_eq]

/-- With an empty queue the second half of QPUSH(8) defers the top byte of LOW itself (R145). -/
theorem queueShift_empty {s : State} (hp : s.pcnt = 0) :
    queueShift 8 0 s = defer (s.low.extractLsb' 24 8) { s with low := s.low <<< 8, pbits := 0 } := by
  have h0 : s.pcnt.toNat = 0 := by rw [hp]; rfl
  rw [queueShift_byte, h0, Nat.zero_mul, Nat.zero_add, Nat.pow_zero, Nat.div_one, Nat.mod_one,
    BitVec.ofNat_toNat, BitVec.setWidth_eq]
  rfl

/-- With no carry pending QPUSH is its second half alone (R143). -/
theorem qpush_noCarry {s : State} (n : Nat) (hc : s.carry = false) : qpush n s = queueShift n s.pb s := by
  have hq : queueCarry s = (s.pb, false) := by simp [queueCarry, hc]
  have hs : { s with carry := false } = s := by rw [← hc]
  rw [qpush, hq, hs]
  rfl

/-- With no carry pending QPUSH(8) forms its byte from the queued bits and LOW alone (R144). -/
theorem qpush_byte {s : State} (hc : s.carry = false) :
    qpush 8 s = defer
      (BitVec.ofNat 8
        (s.pb * 2 ^ (8 - s.pcnt.toNat) + (s.low.extractLsb' 24 8).toNat / 2 ^ s.pcnt.toNat))
      { s with
        low := s.low <<< 8
        pbits := BitVec.ofNat 8 ((s.low.extractLsb' 24 8).toNat % 2 ^ s.pcnt.toNat) } := by
  rw [qpush_noCarry 8 hc, queueShift_byte]

/-- DEFER neither reads nor writes LOW and PBITS. -/
theorem defer_withQueue {b : Byte} {s t : State} (low : Word) (pbits : Byte) (h : defer b s = .ok t) :
    defer b { s with low := low, pbits := pbits } = .ok { t with low := low, pbits := pbits } := by
  by_cases hb : b = 0xFF
  · subst hb
    by_cases hr : s.runLen = 0xFFFFFFFF
    · rw [defer_overflow hr] at h; cases h
    · rw [defer_fill hr] at h; cases h
      exact defer_fill (s := { s with low := low, pbits := pbits }) hr
  · rw [defer_definite hb] at h; cases h
    exact defer_definite hb

/-- EMIT_CARRY leaves LOW and PCNT alone (R146). -/
theorem emitCarry_low_pcnt {s t : State} (h : emitCarry s = .ok t) : t.low = s.low ∧ t.pcnt = s.pcnt := by
  obtain ⟨hv, hd⟩ := emitCarry_eq_ok h
  rw [emitCarry_held hv hd] at h
  cases h
  exact ⟨rfl, rfl⟩

/-- Settles O23: both resolve the carry first; then QPUSH defers the byte that EMIT is given, in a state
that differs in LOW and PBITS only. -/
theorem emptyQueueIsBypassed : Obligations.EmptyQueueIsBypassed := by
  unfold Obligations.EmptyQueueIsBypassed
  intro s t hp h
  obtain ⟨m, hm, ht⟩ := Micro.andThen_eq_ok.1 h
  have hkeep : m.low = s.low ∧ m.pcnt = s.pcnt := by
    cases hc : s.carry with
    | false => rw [hc] at hm; cases hm; exact ⟨rfl, rfl⟩
    | true => rw [hc, if_pos rfl] at hm; exact emitCarry_low_pcnt (s := { s with carry := false }) hm
  obtain ⟨hlow, hpc⟩ := hkeep
  rw [qpush, queueCarry_empty hp]
  dsimp only
  rw [hm, Micro.ok_andThen, queueShift_empty (hpc.trans hp), hlow]
  exact defer_withQueue _ _ ht

/-- The three bits that W1 has queued (R34). -/
theorem pb_of_w1 {s : State} (hp : s.pcnt = 3) (hq : s.pbits = 54) : s.pb = 6 := by
  rw [State.pb, hp, hq]
  rfl

/-- Settles O24: the byte of the queue and LOW, and its value in W1. -/
theorem queueFormsTheByte : Obligations.QueueFormsTheByte := by
  unfold Obligations.QueueFormsTheByte
  refine ⟨fun _ hc => qpush_byte hc, fun s hc hv hr hp hq hlow => ?_⟩
  have htop : (s.low.extractLsb' 24 8).toNat / 2 ^ 3 = 12 := by
    have h := congrArg BitVec.toNat hlow
    rw [BitVec.extractLsb'_toNat, Nat.shiftRight_eq_div_pow] at h
    have := s.low.isLt
    rw [toNat_topByte]
    rw [show (0b01100 : BitVec 5).toNat = 12 from rfl] at h
    omega
  rw [qpush_byte hc, pb_of_w1 hp hq, hp, show (3 : BitVec 3).toNat = 3 from rfl, htop,
    show BitVec.ofNat 8 (6 * 2 ^ (8 - 3) + 12) = 0xCC from rfl,
    defer_definite_emptyTail (by decide) (by exact hv) (by exact hr)]
  exact ⟨_, rfl, rfl, rfl, rfl⟩

/-! ## The encode commands at the longest run -/

theorem splitInterval_eq (sym : Bool) (bound range : Word) :
    splitInterval sym bound range = (splitOffset sym bound, splitWidth sym bound range) := by
  cases sym <;> rfl

theorem splitBad_eq_false {b r : Word} (h1 : 1 ≤ b.toNat) (h2 : b.toNat < r.toNat) :
    splitBad b r = false := by
  simp only [splitBad, Bool.or_eq_false_iff, beq_eq_false_iff_ne, decide_eq_false_iff_not]
  refine ⟨?_, Nat.not_le_of_lt h2⟩
  rintro rfl
  cases h1

/-- Settles O35: each command's body raises with its partial writes made, and the command takes the fault. -/
theorem runLengthOverflowLeavesThePartialWrites : Obligations.RunLengthOverflowLeavesThePartialWrites := by
  unfold Obligations.RunLengthOverflowLeavesThePartialWrites
  refine ⟨fun s u w j hm hp hw hu ho => ?eAdv, fun s sym bound j hm hp h1 h2 ho => ?eBit,
    fun s hm hp hr hv => ?eFlush⟩
  case eAdv =>
    rw [exec_eAdv_body hm (intervalBad_eq_false.2 ⟨hw, hu⟩), advanceE_overflow hp hw ho]
    rfl
  case eBit =>
    rw [splitInterval_eq] at ho ⊢
    rw [exec_eBit_body hm (splitBad_eq_false h1 h2), advanceE_overflow hp (split_fits sym h1 h2).1 ho]
    rfl
  case eFlush =>
    have hpoint : flushPoint s.lowf s.range.toNat = (false, 0xFF000000) := flushPoint_eq hv (by decide)
    rw [exec_eFlush_body hm, flushOpen_eq hpoint, flushFrom_overflow hp hr]
    rfl

end Sys2Proof.Machine
end

section
/-! SUPPORT. E.ADV and E.BIT, whole (41_encode.md R181, R183, R184): the checks before any write, the new
interval, and what a good open session adds to its stream. -/

namespace Sys2Proof.Machine

/-! ## The checks on operands -/

theorem intervalBad_eq_true {u w r : Word} (h : w = 0 ∨ r.toNat < u.toNat + w.toNat) :
    intervalBad u w r = true := by
  rcases h with rfl | h
  · rfl
  · rw [intervalBad, decide_eq_true h, Bool.or_true]

theorem splitBad_eq_true {b r : Word} (h : b = 0 ∨ r ≤ b) : splitBad b r = true := by
  rcases h with rfl | h
  · rfl
  · rw [splitBad, decide_eq_true h, Bool.or_true]

/-- Settles O17: each check raises in the state as it stands, before the command's body or at its start. -/
theorem operandChecks : Obligations.OperandChecks := by
  unfold Obligations.OperandChecks
  refine ⟨fun s u w hm hb => exec_eAdv_interval hm (intervalBad_eq_true hb),
    fun s sym b hm hb => exec_eBit_interval hm (splitBad_eq_true hb),
    fun s u w hm hb => exec_dAdv_interval hm (intervalBad_eq_true hb),
    fun s b hm hb => exec_dBit_interval hm (splitBad_eq_true hb),
    fun s u w hm hw hu hc hsum => ?_⟩
  have hover : accumulatorOverflow s u = true := by
    rw [accumulatorOverflow, carryOut, hc, decide_eq_true hsum, Bool.and_self]
  rw [exec_eAdv_body hm (intervalBad_eq_false.2 ⟨hw, hu⟩), advanceE, if_pos hover]
  rfl

/-! ## The new interval -/

/-- Settles O30: a wide part needs no renormalization. -/
theorem eAdvNarrowsTheInterval : Obligations.EAdvNarrowsTheInterval := by
  unfold Obligations.EAdvNarrowsTheInterval
  intro s u w hm hw hu hc
  have hover : accumulatorOverflow s u = false := by
    rw [accumulatorOverflow, carryOut]
    cases h : s.carry with
    | false => rfl
    | true => simpa using hc h
  have hgood : intervalBad u w s.range = false := intervalBad_eq_false.2 ⟨by omega, hu⟩
  rw [exec_eAdv_body hm hgood, advanceE, hover, if_neg Bool.false_ne_true, renormE,
    renormESteps_wide 3 (show Config.top ≤ w from hw), Micro.finish_ok]
  rfl

/-- Settles O33: the two commands run one body; they differ in the opcode that a fault records. -/
theorem eBitIsEAdvOfItsPart : Obligations.EBitIsEAdvOfItsPart := by
  unfold Obligations.EBitIsEAdvOfItsPart
  intro s t sym bound hf hm h1 h2 h
  rw [splitInterval_eq, exec_eAdv_body hm (intervalBad_eq_false.2 (split_fits sym h1 h2))] at h
  rw [exec_eBit_body hm (splitBad_eq_false h1 h2)]
  have hfr := advanceE_frame (splitOffset sym bound) (splitWidth sym bound s.range) s
  rcases Micro.finish_eq_next.1 h with hok | ⟨c, info, r, hraise, rfl⟩
  · rw [hok] at hfr ⊢
    have ht : t.faulted = false := by rw [hfr.2]; exact hf
    rw [ht]
    rfl
  · rw [hraise]
    rfl

/-- Settles O34: E.ADV-body ends with its loop, and the loop ends with a wide RANGE. -/
theorem rangeStaysWideAfterEncoding : Obligations.RangeStaysWideAfterEncoding := by
  unfold Obligations.RangeStaysWideAfterEncoding
  intro i s t _ h ht hi
  refine ⟨?_, by omega⟩
  obtain ⟨m, hb, ⟨hm, -⟩ | ⟨c, info, r, -, -, rfl⟩⟩ := exec_next_cases h
  · cases hb with
    | refused => cases hm
    | advance _ _ hw =>
      rw [advanceE] at hm
      split at hm
      · cases hm
      · exact renormESteps_range 3 hm (three_steps hw)
    | decode hd => rcases hi with hi | hi <;> rcases hd with ⟨hd, -⟩ | hd <;> cases hi.symm.trans hd
    | _ => rcases hi with hi | hi <;> cases hi
  · cases ht

/-! ## What a good open session adds to its stream -/

theorem State.Inv.session {s : State} (hs : s.Inv) (hf : s.faulted = false) (hm : s.mode = .enc) :
    Session s := by
  obtain ⟨⟨-, -, htail, -⟩, -, -, henc, -⟩ := (State.inv_iff_of_not_faulted hf).1 hs
  exact ⟨hf, hm, htail, henc hm⟩

theorem Session.emptyQueue {s : State} (h : Session s) : s.pcnt = 0 ∧ s.pbits = 0 := by
  obtain ⟨-, -, hq, -⟩ := h.inv
  exact hq

/-- `t` is the open session `s` after an advance to the part `[u, u + w)` of its interval and `k` steps of
renormalization (R181, R183, R154). -/
structure Advanced (s t : State) (u w k : Nat) : Prop where
  steps : k ≤ 3
  count : RenormCount w k
  range : t.range.toNat = w * 2 ^ (8 * k)
  value : t.streamValue = (s.streamValue + u) * 2 ^ (8 * k)
  produced : t.out.length + t.tailBytes.length = s.out.length + s.tailBytes.length + k
  appends : s.out <+: t.out
  frame : t = { s with
    low := t.low, carry := t.carry, range := t.range, held := t.held, heldV := t.heldV,
    runLen := t.runLen, runPol := t.runPol, out := t.out, outcnt := t.outcnt }

theorem bitCount_of_emptyQueue {s : State} (h : s.pcnt = 0) :
    s.bitCount = 8 * (s.out.length + s.tailBytes.length) := by
  rw [State.bitCount, h, List.length_append]
  rfl

/-- E.ADV-body completes on every part of an open session's interval at which the run does not grow past
its limit. -/
theorem Session.exists_advanced {s : State} {u w : Word} (h : Session s) (hw : 1 ≤ w.toNat)
    (hu : u.toNat + w.toNat ≤ s.range.toNat) (hno : ∀ j, ¬ s.runOverflowsAt u w j) :
    ∃ t k, advanceE u w s = .ok t ∧ Advanced s t u.toNat w.toNat k := by
  have hfr := advanceE_frame u w s
  obtain ⟨hd, hr, -⟩ := h.tail
  rcases advanceE_session hr hd h.inv hw hu with
    ⟨t, k, ht, hk, hcount, hrange, hvalue, hbits, hloop, -⟩ | ⟨j, -, hover, -⟩
  · obtain ⟨-, -, -, -, ⟨hp, hq⟩, -⟩ := hloop
    obtain ⟨hp', hq'⟩ := h.emptyQueue
    have happ := hfr.out_isPrefix ht
    rw [ht] at hfr
    rw [bitCount_of_emptyQueue hp, bitCount_of_emptyQueue hp'] at hbits
    refine ⟨t, k, ht, hk, hcount, hrange, hvalue, by omega, happ, ?_⟩
    have hframe := hfr.2
    rwa [hp, hq, ← hp', ← hq'] at hframe
  · exact absurd hover (hno j)

/-- Settles O31: a good state is an open session, and its interval takes the part. -/
theorem eAdvAddsToTheStream : Obligations.EAdvAddsToTheStream := by
  unfold Obligations.EAdvAddsToTheStream
  intro s u w hs hf hm hw hu hno
  obtain ⟨t, k, ht, h⟩ := (hs.session hf hm).exists_advanced hw hu hno
  refine ⟨t, k, ?_, h.steps, h.count, h.range, h.value, h.produced, h.appends, h.frame⟩
  rw [exec_eAdv_body hm (intervalBad_eq_false.2 ⟨hw, hu⟩), ht, Micro.finish_ok]

theorem splitOffset_toNat (sym : Bool) (b : Word) :
    (splitOffset sym b).toNat = if sym then b.toNat else 0 := by
  cases sym <;> rfl

theorem splitWidth_toNat (sym : Bool) {b r : Word} (h : b.toNat < r.toNat) :
    (splitWidth sym b r).toNat = if sym then r.toNat - b.toNat else b.toNat := by
  cases sym with
  | false => rfl
  | true => exact BitVec.toNat_sub_of_le (Nat.le_of_lt h)

/-- Settles O32: the part that the symbol names lies inside the interval, and E.BIT advances to it. -/
theorem eBitAddsToTheStream : Obligations.EBitAddsToTheStream := by
  unfold Obligations.EBitAddsToTheStream
  intro s sym bound hs hf hm h1 h2 hno
  rw [splitInterval_eq] at hno
  obtain ⟨hw, hu⟩ := split_fits sym h1 h2
  obtain ⟨t, k, ht, h⟩ := (hs.session hf hm).exists_advanced hw hu hno
  rw [splitOffset_toNat, splitWidth_toNat sym h2] at h
  refine ⟨t, k, ?_, h.steps, h.count, h.range, h.value, h.produced, h.appends, h.frame⟩
  rw [exec_eBit_body hm (splitBad_eq_false h1 h2), ht, Micro.finish_ok]

end Sys2Proof.Machine
end

section
/-! SUPPORT. E.INIT and E.FLUSH, whole (41_encode.md R180, R185 to R188, R190): the flush value, the bytes
that the flush of a good open session commits, and what a flushed session holds. -/

namespace Sys2Proof.Machine

/-- The session that E.INIT opens (R180). -/
def State.opened (s : State) : State := { s with
  low := 0, carry := false, range := 0xFFFFFFFF, pcnt := 0, pbits := 0, held := 0, heldV := false
  runLen := 0, runPol := .allOnes, mode := .enc }

theorem exec_eInit (s : State) : exec .eInit s = .next s.opened := rfl

/-- Settles O29: E.INIT has no check and one write. -/
theorem eInitOpensASession : Obligations.EInitOpensASession := by
  unfold Obligations.EInitOpensASession
  exact ⟨rfl, exec_eInit⟩

theorem State.opened_lowf (s : State) : s.opened.lowf = 0 := lowf_of_carry rfl

theorem State.opened_tailBytes (s : State) : s.opened.tailBytes = [] := tailBytes_eq_nil rfl rfl

/-! ## The flush value -/

/-- Settles O28: the loop answers on the first grid that has a point of the interval, the grid of nb = 4
holds every number, and the grid of nb = 1 has a point of every interval at least 2^24 wide. -/
theorem flushValueIsTheLeastOnTheCoarsestGrid : Obligations.FlushValueIsTheLeastOnTheCoarsestGrid := by
  unfold Obligations.FlushValueIsTheLeastOnTheCoarsestGrid
  intro lowf range hr
  rcases flushSearch_spec lowf range 5 0 with ⟨nb, -, hnb, hv, hlt, hcoarser⟩ | ⟨-, hnone⟩
  · refine ⟨_, nb, hv, by omega, ceilTo_le (Nat.two_pow_pos _) _, hlt, dvd_ceilTo _ _,
      fun x => ceilTo_least (Nat.two_pow_pos _), fun m hm x hx hxlt hd => ?_, fun hwide => ?_⟩
    · have hpast := hcoarser m (Nat.zero_le m) hm
      have hle := ceilTo_least (Nat.two_pow_pos _) hx hd
      omega
    · refine Nat.le_of_not_lt fun h1 => ?_
      have hpast : lowf + range ≤ ceilTo (2 ^ 24) lowf := hcoarser 1 (Nat.zero_le 1) h1
      have hnear := ceilTo_lt (Nat.two_pow_pos 24) lowf
      omega
  · have hpast : lowf + range ≤ ceilTo 1 lowf := hnone 4 (Nat.zero_le 4) (by omega)
    have hnear := ceilTo_lt Nat.one_pos lowf
    omega

/-- The flush value of an open session lies on the grid of 2^24 and fits 33 bits, and a held byte stands
ready where it reaches 2^32 (R186, I3 and I4 of R45). -/
theorem Session.exists_flushValue {s : State} (h : Session s) :
    ∃ v, flushValue s.lowf s.range.toNat = some v ∧ 2 ^ 24 ∣ v ∧ v < 2 ^ 33 ∧
      (2 ^ 32 ≤ v → s.heldV = true) := by
  obtain ⟨hheld, h33, -, hwide⟩ := h.inv
  obtain ⟨v, hv, -, hhi, hgrid⟩ := flushValue_wide (lowf := s.lowf) hwide
  refine ⟨v, hv, hgrid, by omega, fun hc => ?_⟩
  cases hh : s.heldV with
  | true => rfl
  | false => have := hheld hh; omega

/-- E.FLUSH goes on with its flush value in CARRY and LOW (R185). -/
theorem exec_eFlush_value {s : State} {v : Nat} (hm : s.mode = .enc)
    (hv : flushValue s.lowf s.range.toNat = some v) (h33 : v < 2 ^ 33) :
    exec .eFlush s = (flushFrom (decide (2 ^ 32 ≤ v)) (BitVec.ofNat 32 v) s).finish .eFlush := by
  rw [exec_eFlush_body hm, flushOpen_eq (flushPoint_eq hv h33)]

/-- CARRY and LOW hold a number of 33 bits whole (R32, R185). -/
theorem carry_low_value {v : Nat} (h : v < 2 ^ 33) :
    (decide (2 ^ 32 ≤ v)).toNat * 2 ^ 32 + (BitVec.ofNat 32 v).toNat = v := by
  rw [BitVec.toNat_ofNat]
  by_cases hc : 2 ^ 32 ≤ v
  · rw [decide_eq_true hc, Bool.toNat_true]; omega
  · rw [decide_eq_false hc, Bool.toNat_false]; omega

theorem ofNat_eq_iff_mod {v : Nat} {w : Word} : BitVec.ofNat 32 v = w ↔ v % 2 ^ 32 = w.toNat := by
  rw [← BitVec.toNat_inj, BitVec.toNat_ofNat]

/-! ## The flush of a good open session -/

/-- Settles O36: the flush value's bits follow the tail; the one value that makes the run longer is
0xFF000000, and its bits meet the longest run only in the case left out. -/
theorem eFlushSpellsTheFlushValue : Obligations.EFlushSpellsTheFlushValue := by
  unfold Obligations.EFlushSpellsTheFlushValue
  intro s hs hf hm hno
  have h := hs.session hf hm
  obtain ⟨hp, hq⟩ := h.emptyQueue
  obtain ⟨v, hv, hgrid, h33, hheld⟩ := h.exists_flushValue
  have hlow : 2 ^ 24 ∣ (BitVec.ofNat 32 v).toNat := by rw [BitVec.toNat_ofNat]; omega
  have hframe := flushFrom_frame (decide (2 ^ 32 ≤ v)) (BitVec.ofNat 32 v) s
  have hrange := flushFrom_range (decide (2 ^ 32 ≤ v)) (BitVec.ofNat 32 v) s
  rcases flushFrom_session h.tail hp (fun hc => hheld (of_decide_eq_true hc)) hlow with
    ⟨t, j, ht, ⟨hj, hj0⟩, hlen, hbytes, ⟨tlow, tcarry, tpcnt, tpbits⟩, ⟨theld, theldV, trun⟩, tmode⟩ |
    ⟨⟨hc, hff⟩, hrun, -⟩
  · rw [ht] at hframe hrange
    obtain ⟨⟨bs, hbs, -⟩, hregs⟩ := hframe
    have trange : t.range = s.range := hrange
    rw [carry_low_value h33] at hbytes
    rw [tlow, tcarry, trange, tpcnt.trans hp.symm, tpbits.trans hq.symm, theld, theldV, trun, tmode] at hregs
    refine ⟨t, v, j, ?_, hv, hj, hj0.trans ofNat_eq_iff_mod, hlen, hbytes, ⟨bs, hbs.symm⟩, hregs⟩
    rw [exec_eFlush_value hm hv h33, ht, Micro.finish_ok]
  · have h32 : ¬ 2 ^ 32 ≤ v := of_decide_eq_false hc
    have hmod : v % 2 ^ 32 = 0xFF000000 := ofNat_eq_iff_mod.1 hff
    exact absurd ⟨hrun, hv.trans (congrArg some (by omega))⟩ hno

/-! ## What a flushed session holds -/

/-- What E.FLUSH ends with: FINALIZE, LOW cleared, and MODE = FIN (R185). -/
theorem flushFrom_eq_ok {c : Bool} {low : Word} {s t : State} (h : flushFrom c low s = .ok t) :
    ∃ u, t = { finalize u with low := 0, mode := .fin } := by
  rw [flushFrom_eq] at h
  obtain ⟨u, -, hu⟩ := Micro.andThen_eq_ok.1 h
  cases hu
  exact ⟨u, rfl⟩

/-- Settles O37: E.FLUSH looks at MODE first, and ends with a FINALIZE. -/
theorem secondFlushDoesNothing : Obligations.SecondFlushDoesNothing := by
  unfold Obligations.SecondFlushDoesNothing
  refine ⟨fun s => exec_eFlush_fin, fun s t hm _ h hft => ?_⟩
  rw [exec_eFlush_body hm] at h
  rcases Micro.finish_eq_next.1 h with hok | ⟨c, info, r, -, rfl⟩
  · obtain ⟨u, rfl⟩ := flushFrom_eq_ok hok
    rw [finalize_eq u]
    exact ⟨rfl, rfl, rfl, finalize_of_tailBytes_nil (tailBytes_eq_nil rfl rfl), exec_eFlush_fin rfl⟩
  · cases hft

/-! ## Flush values that commit no byte of their own -/

/-- The flush of a low bound of 0 with no carry moves no bits, and commits the tail (R185). -/
theorem flushFrom_zero {s : State} (hp : s.pcnt = 0) :
    flushFrom false 0 s = .ok { finalize { s with carry := false, low := 0 } with low := 0, mode := .fin } := by
  have hq : ¬ 0 < s.pcnt.toNat := by rw [hp]; decide
  have hbits : flushBits (significantBits 0) { s with carry := false, low := 0 } =
      .ok { s with carry := false, low := 0 } := rfl
  have hpad : flushPad { s with carry := false, low := 0 } = .ok { s with carry := false, low := 0 } :=
    if_neg hq
  rw [flushFrom_eq, hbits, Micro.ok_andThen, hpad, Micro.ok_andThen]

/-- E.FLUSH with a flush value of 0 commits the tail and nothing after it (R185). -/
theorem exec_eFlush_zero {s : State} (hm : s.mode = .enc) (hp : s.pcnt = 0)
    (hv : flushValue s.lowf s.range.toNat = some 0) :
    ∃ t, exec .eFlush s = .next t ∧ t.mode = .fin ∧ t.out = s.out ++ s.tailBytes := by
  have h := (exec_eFlush_value hm hv (by decide)).trans
    (congrArg (Micro.finish .eFlush) (flushFrom_zero hp))
  rw [finalize_eq] at h
  exact ⟨_, h, rfl, rfl⟩

/-- In an interval that begins at 0 the least value is 0, and it lies on every grid (R186). -/
theorem flushValue_of_zero {range : Nat} (h : 0 < range) : flushValue 0 range = some 0 := by
  have hceil : ceilTo (2 ^ 32) 0 = 0 :=
    Nat.le_zero.1 (ceilTo_least (Nat.two_pow_pos 32) (Nat.le_refl 0) (Nat.dvd_zero _))
  rw [flushValue, flushSearch, show 32 - 8 * 0 = 32 from rfl, hceil, Nat.zero_add, if_pos h]

/-- Settles O38: no bit follows the tail in any of the three cases, and only V = 2^32 has a carry. -/
theorem emptySessionCommitsNothing : Obligations.EmptySessionCommitsNothing := by
  unfold Obligations.EmptySessionCommitsNothing
  refine ⟨fun s => ?empty, fun s hs hf hm hv => ?zero, fun s hs hf hm hv => ?carry⟩
  case empty =>
    obtain ⟨t, ht, hmode, hout⟩ := exec_eFlush_zero (s := s.opened) rfl rfl (by
      rw [s.opened_lowf]; exact flushValue_of_zero (range := 4294967295) (by decide))
    rw [s.opened_tailBytes, List.append_nil] at hout
    exact ⟨t, by rw [execAll_cons (exec_eInit s), execAll_cons ht, execAll], hout, hmode⟩
  case zero => exact exec_eFlush_zero hm (hs.session hf hm).emptyQueue.1 hv
  case carry =>
    have h := hs.session hf hm
    obtain ⟨hp, -⟩ := h.emptyQueue
    obtain ⟨hdefinite, -⟩ := h.tail
    obtain ⟨v, hv', -, -, hheld⟩ := h.exists_flushValue
    have hheldV : s.heldV = true := hheld (by rw [hv] at hv'; cases hv'; exact Nat.le_refl _)
    obtain ⟨t, ht, hmode, hout⟩ := flushFrom_carry hp hheldV (hdefinite hheldV)
    exact ⟨t, (exec_eFlush_value hm hv (by decide)).trans (congrArg (Micro.finish .eFlush) ht), hmode, hout⟩

end Sys2Proof.Machine
end

section
/-! SUPPORT. The round trip (41_encode.md R189, 42_decode.md R213, R216): the bytes of a flushed session,
read as a number, lie in every interval the session has passed through, and a decoder that replays the
session's advances keeps in CODE how far above the low bound they lie. -/

namespace Sys2Proof.Machine

/-! ## The encoder's intervals -/

theorem exec_faulted {i : Instr} {s t : State} (h : exec i s = .next t) (hs : s.faulted = true) :
    t.faulted = true := by
  obtain ⟨m, -, ⟨-, hf⟩ | ⟨c, info, r, -, -, rfl⟩⟩ := exec_next_cases h
  · exact (congrArg Prod.fst hf.faultRegs).trans hs
  · rfl

/-- A run of commands that takes no fault has started without one (R275). -/
theorem execAll_start_not_faulted {is : List Instr} {s t : State} (h : execAll is s = .next t)
    (ht : t.faulted = false) : s.faulted = false :=
  execAll_faulted (fun _ _ _ _ he => exec_faulted he) h ht

theorem State.opened_session {s : State} (hf : s.faulted = false) : Session s.opened where
  ok := hf
  enc := rfl
  tail := ⟨fun h => (nomatch h), fun h => (nomatch h), Nat.one_pos⟩
  inv := by
    have hrange : s.opened.range.toNat = 4294967295 := rfl
    rw [State.encodeInv, s.opened_lowf, hrange]
    exact ⟨fun _ => by omega, by omega, ⟨rfl, rfl⟩, by omega⟩

theorem State.opened_produced (s : State) : s.opened.produced = s.out.length := by
  rw [State.produced, s.opened_tailBytes]
  rfl

theorem streamBits_of_emptyQueue {s : State} (h : s.pcnt = 0) :
    s.streamBits = bytesValue (s.out ++ s.tailBytes) := by
  rw [State.streamBits, pb_of_empty h, h, show (0 : BitVec 3).toNat = 0 from rfl, Nat.pow_zero, Nat.mul_one,
    Nat.add_zero]

theorem State.opened_streamValue (s : State) : s.opened.streamValue = bytesValue s.out * 2 ^ 32 := by
  rw [State.streamValue, streamBits_of_emptyQueue (s := s.opened) rfl, s.opened_lowf, s.opened_tailBytes,
    List.append_nil, Nat.add_zero, show s.opened.out = s.out from rfl]

/-- The byte string `bs`, padded with zero bytes, lies in the interval of session `s` (R44, R73). -/
def State.contains (s : State) (bs : List Byte) : Prop :=
  s.streamValue ≤ padValue bs (s.produced + 4) ∧
  padValue bs (s.produced + 4) < s.streamValue + s.range.toNat

/-- The number `x` lies in an interval that `k` bytes of renormalization have scaled up; so it lies in
the interval itself once its last `k` bytes are cut off. -/
theorem div_mem_interval {lo w k x : Nat} (h1 : lo * 2 ^ (8 * k) ≤ x)
    (h2 : x < lo * 2 ^ (8 * k) + w * 2 ^ (8 * k)) : lo ≤ x / 256 ^ k ∧ x / 256 ^ k < lo + w := by
  have e : 256 ^ k = 2 ^ (8 * k) := by rw [Nat.pow_mul]
  rw [e]
  constructor
  · exact (Nat.le_div_iff_mul_le (Nat.two_pow_pos _)).2 h1
  · rw [Nat.div_lt_iff_lt_mul (Nat.two_pow_pos _), Nat.add_mul]
    exact h2

/-- What lies in the interval after E.ADV lies in the part that E.ADV took of the interval before (R181,
R216). -/
theorem Session.eAdv_part {s t : State} {u w : Word} {bs : List Byte} (h : Session s)
    (he : exec (.eAdv u w) s = .next t) (ht : t.faulted = false) (hc : t.contains bs) :
    s.streamValue + u.toNat ≤ padValue bs (s.produced + 4) ∧
    padValue bs (s.produced + 4) < s.streamValue + u.toNat + w.toNat := by
  obtain ⟨-, -, -, -, k, hk, hcount, hrange, hvalue, hproduced⟩ := h.eAdv he ht
  obtain ⟨hlo, hhi⟩ := hc
  rw [hvalue, hproduced] at hlo hhi
  rw [hrange, renormCount_shift hk hcount] at hhi
  rw [← padValue_cut bs (s.produced + 4) k, Nat.add_right_comm _ 4 k]
  exact div_mem_interval hlo hhi

/-- The bytes of a flushed session lie in the interval the session had before any of its advances. -/
theorem Session.contains_flushed {cmds : List (Word × Word)} {s t : State} (h : Session s)
    (hrun : execAll ((cmds.map fun c => Instr.eAdv c.1 c.2) ++ [.eFlush]) s = .next t)
    (ht : t.faulted = false) : s.out <+: t.out ∧ s.contains t.out := by
  induction cmds generalizing s with
  | nil =>
    obtain ⟨t', he, hnil⟩ := execAll_next hrun
    cases hnil
    exact h.eFlush he ht
  | cons c cmds ih =>
    obtain ⟨m, he, hrest⟩ := execAll_next hrun
    have hmf := execAll_start_not_faulted hrest ht
    obtain ⟨-, hfit, hm, hsm, -⟩ := h.eAdv he hmf
    obtain ⟨hmt, hcont⟩ := ih hm hrest
    obtain ⟨hlo, hhi⟩ := h.eAdv_part he hmf hcont
    exact ⟨hsm.trans hmt, by omega, by omega⟩

/-! ## The decoder's side -/

/-- The number of renormalization steps is determined by the width (R183, R213). -/
theorem RenormCount.unique {w j k : Nat} (hj : RenormCount w j) (hk : RenormCount w k) : j = k := by
  rcases Nat.lt_trichotomy j k with h | h | h
  · exact absurd hj.1 (Nat.not_le_of_lt (hk.2 j h))
  · exact h
  · exact absurd hk.1 (Nat.not_le_of_lt (hj.2 k h))

/-- Decode session `d` reads the bytes `bs` from index `base` on and has replayed the advances that led to
encode session `s`: RANGE is the same, the next byte is the one behind the window that `s` has fixed, and
CODE is the window less the encoder's low bound (R213). -/
structure Follows (bs : List Byte) (base : Nat) (s d : State) : Prop where
  ok : d.faulted = false
  dec : d.mode = .dec
  length : d.ilen.toNat ≤ d.params.inSize
  reads : ∀ i, d.streamByte i = padByte bs (base + i)
  range : d.range = s.range
  ipos : ∃ i, base + i = s.produced + 4 ∧ d.ipos.toNat = min i 4294967295
  code : (d.code.toNat + s.streamValue) % 2 ^ 32 = padValue bs (s.produced + 4) % 2 ^ 32

/-- CODE lies as far above 0 as the window above the low bound. -/
theorem Follows.code_mem {bs : List Byte} {base : Nat} {s d : State} {u w : Nat} (h : Follows bs base s d)
    (hw : u + w ≤ s.range.toNat) (hlo : s.streamValue + u ≤ padValue bs (s.produced + 4))
    (hhi : padValue bs (s.produced + 4) < s.streamValue + u + w) :
    u ≤ d.code.toNat ∧ d.code.toNat < u + w := by
  have hcode := h.code
  have hd := d.code.isLt
  have hs := s.range.isLt
  omega

/-- D.ADV of the part that E.ADV took follows the encode session (R211, R213). -/
theorem Follows.exec_dAdv {bs : List Byte} {base : Nat} {s t d : State} {u w : Word}
    (h : Follows bs base s d) (hs : Session s) (he : exec (.eAdv u w) s = .next t)
    (ht : t.faulted = false) : ∃ e, exec (.dAdv u w) d = .next e ∧ Follows bs base t e := by
  obtain ⟨hw, hfit, -, -, k, -, hcount, hrange, hvalue, hproduced⟩ := hs.eAdv he ht
  obtain ⟨i, hi, hipos⟩ := h.ipos
  obtain ⟨j, -, hcount', hd⟩ := Dec.advance_ok (inByte_ok h.length) (u := u) (d := d.decoder) hw
  have hjk : j = k := RenormCount.unique hcount' hcount
  subst hjk
  have hgood : intervalBad u w d.range = false := intervalBad_eq_false.2 ⟨hw, by rw [h.range]; exact hfit⟩
  have hnext : exec (.dAdv u w) d = .next (d.setDecoder
      { range := w <<< (8 * j)
        code := codeAfter d.streamByte d.ipos.toNat j (d.code - u)
        ipos := BitVec.ofNat 32 (min (d.ipos.toNat + j) 4294967295) }) := by
    rw [exec_dAdv_body h.dec hgood, hd]
    rfl
  refine ⟨_, hnext, h.ok, h.dec, h.length, h.reads, hrange.symm, ⟨i + j, by omega, ?_⟩, ?_⟩
  · show (BitVec.ofNat 32 (min (d.ipos.toNat + j) 4294967295)).toNat = _
    rw [ipos_toNat, hipos, min_add]
  · have hread : ∀ n, d.streamByte (min (d.ipos.toNat + n) 4294967295) =
        padByte bs (s.produced + 4 + n) := by
      intro n
      rw [hipos, min_add, streamByte_min (Nat.le_of_lt_succ d.ilen.isLt), h.reads, ← hi, Nat.add_assoc]
    have hsub : ((d.code - u).toNat + (s.streamValue + u.toNat)) % 2 ^ 32 =
        padValue bs (s.produced + 4) % 2 ^ 32 := by
      have hcode := h.code
      have hu := u.isLt
      rw [BitVec.toNat_sub]
      omega
    have hcode := codeAfter_toNat d.streamByte (padByte bs) d.ipos.toNat (s.produced + 4) j (d.code - u)
      hread bs (fun _ => rfl) (s.streamValue + u.toNat) hsub
    rw [hvalue, hproduced, Nat.add_right_comm s.produced j 4, Nat.pow_mul]
    exact hcode

/-- The four bytes that D.INIT primes CODE with, from index 0 on (R210). -/
theorem codeAfter_four (f : Nat → Byte) (code : Word) :
    codeAfter f 0 4 code = pushCode (pushCode (pushCode (pushCode code (f 0)) (f 1)) (f 2)) (f 3) := by
  simp [codeAfter, List.range_succ]

/-- D.INIT over the bytes that a session is going to commit follows the session that E.INIT opens (R180,
R210). -/
theorem Follows.exec_dInit {s d : State} {bs : List Byte} (hd : d.faulted = false) (hp : d.params.valid)
    (hbs : s.out <+: bs) (hfit : (bs.drop s.out.length).length ≤ d.params.inSize)
    (hin : ∀ a, a < (bs.drop s.out.length).length →
      (bs.drop s.out.length)[a]? = some (d.byteAt .input a)) :
    ∃ e, exec (.dInit (BitVec.ofNat 32 (bs.drop s.out.length).length)) d = .next e ∧
      Follows bs s.out.length s.opened e := by
  obtain ⟨⟨-, hmax⟩, -⟩ := hp
  have hmax : d.params.inSize ≤ 2147483648 := hmax
  have hn : (BitVec.ofNat 32 (bs.drop s.out.length).length).toNat = (bs.drop s.out.length).length := by
    rw [BitVec.toNat_ofNat]
    omega
  generalize BitVec.ofNat 32 (bs.drop s.out.length).length = n at hn ⊢
  have hreads : ∀ i, State.streamByte { d with ilen := n } i = padByte bs (s.out.length + i) := by
    intro i
    rw [State.streamByte, padByte, ← List.getElem?_drop]
    by_cases hi : i < n.toNat
    · rw [if_pos hi, hin i (by omega)]
      rfl
    · rw [if_neg hi, List.getElem?_eq_none (by omega)]
      rfl
  have hlength : n.toNat ≤ d.params.inSize := by omega
  refine ⟨_, exec_dInit_body (lengthBad_eq_false.2 hlength), hd, rfl, hlength, hreads, rfl,
    ⟨4, ?_, rfl⟩, ?_⟩
  · rw [s.opened_produced]
  · have hstart : ((0 : Word).toNat + bytesValue s.out) % 2 ^ 32 = padValue bs s.out.length % 2 ^ 32 := by
      obtain ⟨rest, rfl⟩ := hbs
      rw [padValue_append, show (0 : Word).toNat = 0 from rfl, Nat.zero_add]
    have hread : ∀ j, State.streamByte { d with ilen := n } (min (0 + j) 4294967295) =
        padByte bs (s.out.length + j) := by
      intro j
      rw [Nat.zero_add, streamByte_min (Nat.le_of_lt_succ n.isLt), hreads]
    have hcode := codeAfter_toNat _ (padByte bs) 0 s.out.length 4 0 hread bs (fun _ => rfl)
      (bytesValue s.out) hstart
    rw [codeAfter_four] at hcode
    rw [s.opened_streamValue, s.opened_produced]
    exact hcode

/-- Replaying the first `n` advances of a session leaves CODE in the part that the next one took. -/
theorem Follows.replay {cmds : List (Word × Word)} {base n : Nat} {s t d : State} (hs : Session s)
    (hd : Follows t.out base s d)
    (hrun : execAll ((cmds.map fun c => Instr.eAdv c.1 c.2) ++ [.eFlush]) s = .next t)
    (ht : t.faulted = false) (hn : n < cmds.length) :
    ∃ e, execAll ((cmds.take n).map fun c => Instr.dAdv c.1 c.2) d = .next e ∧ e.faulted = false ∧
      cmds[n].1.toNat ≤ e.code.toNat ∧ e.code.toNat < cmds[n].1.toNat + cmds[n].2.toNat := by
  induction cmds generalizing s d n with
  | nil => cases hn
  | cons c cmds ih =>
    obtain ⟨m, he, hrest⟩ := execAll_next hrun
    have hmf := execAll_start_not_faulted hrest ht
    obtain ⟨-, hfit, hm, -⟩ := hs.eAdv he hmf
    cases n with
    | zero =>
      obtain ⟨hlo, hhi⟩ := hs.eAdv_part he hmf (hm.contains_flushed hrest ht).2
      exact ⟨d, rfl, hd.ok, hd.code_mem hfit hlo hhi⟩
    | succ n =>
      obtain ⟨e, hde, hme⟩ := hd.exec_dAdv hs he hmf
      obtain ⟨e', hrun', hgood⟩ := ih hm hme hrest (Nat.lt_of_succ_lt_succ hn)
      exact ⟨e', (execAll_cons hde).trans hrun', hgood⟩

/-- Settles O46: D.INIT follows E.INIT, and every D.ADV the E.ADV of its part. -/
theorem roundTrip : Obligations.RoundTrip := by
  unfold Obligations.RoundTrip
  intro s t d cmds hs hrun ht hd hp hfit hin n hn
  have hopen := State.opened_session hs
  obtain ⟨m, hm, hrest⟩ := execAll_next hrun
  cases hm
  obtain ⟨e, hde, he⟩ := Follows.exec_dInit hd hp (hopen.contains_flushed hrest ht).1 hfit hin
  obtain ⟨e', hrun', hgood⟩ := he.replay hopen hrest ht hn
  exact ⟨e', (execAll_cons hde).trans hrun', hgood⟩

end Sys2Proof.Machine
end

section
/-! SUPPORT. What the encode commands read (41_encode.md R191): they run alike in every machine that the
same encoder stands in. -/

namespace Sys2Proof.Machine

/-! ## An encoder in a machine -/

/-- Machine `r` with the encoder's and the fault registers of `s`, and the bytes that `s` has committed
behind its own (R30, R75). -/
def graft (r s : State) : State := { r with
  low := s.low, carry := s.carry, range := s.range, pcnt := s.pcnt, pbits := s.pbits, held := s.held
  heldV := s.heldV, runLen := s.runLen, runPol := s.runPol, mode := s.mode
  faulted := s.faulted, faultCode := s.faultCode, faultOp := s.faultOp, faultInfo := s.faultInfo
  out := r.out ++ s.out, outcnt := r.outcnt + s.outcnt }

/-- The encoder of a machine before it has committed a byte. -/
def State.bare (s : State) : State := { s with out := [], outcnt := 0 }

/-- A machine is the graft of every encoder that agrees with its own. -/
theorem graft_bare {s s' : State} (hr : s'.encoderRegs = s.encoderRegs) (hf : s'.faultRegs = s.faultRegs) :
    graft s' s.bare = s' := by
  simp only [State.encoderRegs, EncoderRegs.mk.injEq, State.faultRegs, Prod.mk.injEq] at hr hf
  obtain ⟨h1, h2, h3, h4, h5, h6, h7, h8, h9, h10⟩ := hr
  obtain ⟨f1, f2, f3, f4⟩ := hf
  simp only [graft, State.bare, List.append_nil, BitVec.ofNat_eq_ofNat, BitVec.add_zero,
    ← h1, ← h2, ← h3, ← h4, ← h5, ← h6, ← h7, ← h8, ← h9, ← h10, ← f1, ← f2, ← f3, ← f4]

/-- The same end in the state that `g` makes of the state reached. -/
def Micro.map (g : State → State) : Micro → Micro
  | .ok s => .ok (g s)
  | .raise c info s => .raise c info (g s)
  | .stop f => .stop f

/-- `f` runs in machine `r` as it runs on the encoder alone. -/
def Grafts (r : State) (f : State → Micro) : Prop := ∀ b, f (graft r b) = (f b).map (graft r)

theorem Grafts.ok (r : State) : Grafts r .ok := fun _ => rfl

/-- A sequence whose second piece runs in machine `r` as on the encoder alone. -/
theorem Grafts.after {r : State} {k : State → Micro} (hk : Grafts r k) (m : Micro) :
    (m.map (graft r)).andThen k = (m.andThen k).map (graft r) := by
  cases m with
  | ok s => exact hk s
  | raise c info s => rfl
  | stop f => rfl

theorem Grafts.andThen {r : State} {f k : State → Micro} (hf : Grafts r f) (hk : Grafts r k) :
    Grafts r fun s => (f s).andThen k := by
  intro b
  dsimp only
  rw [hf b, hk.after]

/-- A branch that goes the same way on both sides. -/
theorem Micro.map_ite {c : Prop} [Decidable c] {g : State → State} {m n m' n' : Micro}
    (hm : m' = m.map g) (hn : n' = n.map g) :
    (if c then m' else n') = (if c then m else n).map g := by
  rw [hm, hn, apply_ite (Micro.map g)]

/-! ## The encode datapath -/

variable (r : State)

theorem emitCarry_grafts : Grafts r emitCarry := by
  intro b
  by_cases hc : b.heldV = false ∨ b.held = 0xFF
  · rw [emitCarry_none hc, emitCarry_none (s := graft r b) hc]
    rfl
  · have hv : b.heldV = true := by simpa using fun h => hc (.inl h)
    have hd : b.held ≠ 0xFF := fun h => hc (.inr h)
    rw [emitCarry_held hv hd, emitCarry_held (s := graft r b) hv hd]
    simp [Micro.map, graft, BitVec.add_assoc]

theorem defer_grafts (x : Byte) : Grafts r (defer x) := by
  intro b
  by_cases hx : x = 0xFF
  · subst hx
    by_cases hr : b.runLen = 0xFFFFFFFF
    · rw [defer_overflow hr, defer_overflow (s := graft r b) hr]
      rfl
    · rw [defer_fill hr, defer_fill (s := graft r b) hr]
      rfl
  · rw [defer_definite hx, defer_definite hx, show (graft r b).tailBytes = b.tailBytes from rfl]
    simp [Micro.map, graft, BitVec.add_assoc]

theorem finalize_graft (b : State) : finalize (graft r b) = graft r (finalize b) := by
  rw [finalize_eq, finalize_eq, show (graft r b).tailBytes = b.tailBytes from rfl]
  simp [graft, BitVec.add_assoc]

theorem queueShift_grafts (n pb : Nat) : Grafts r (queueShift n pb) := fun b =>
  Micro.map_ite (c := 8 ≤ b.pcnt.toNat + n)
    (defer_grafts r _ { b with low := b.low <<< n, pbits := _, pcnt := _ }) rfl

theorem qpush_grafts (n : Nat) : Grafts r (qpush n) := by
  intro b
  have hs : { graft r b with carry := false } = graft r { b with carry := false } := rfl
  rw [qpush, qpush, show queueCarry (graft r b) = queueCarry b from rfl, hs]
  generalize queueCarry b = landed
  obtain ⟨pb, c⟩ := landed
  cases c with
  | false => exact queueShift_grafts r n pb { b with carry := false }
  | true =>
    dsimp only
    rw [if_pos rfl, if_pos rfl, emitCarry_grafts, (queueShift_grafts r n pb).after]

theorem qpushBytes_grafts (k : Nat) : Grafts r (qpushBytes k) := by
  induction k with
  | zero => exact .ok r
  | succ k ih => exact (qpush_grafts r 8).andThen ih

theorem renormESteps_grafts (k : Nat) : Grafts r (renormESteps k) := by
  induction k with
  | zero => exact .ok r
  | succ k ih =>
    intro b
    rw [renormESteps, renormESteps]
    exact Micro.map_ite (c := b.range < Config.top)
      ((qpush_grafts r 8).andThen (fun t => ih { t with range := t.range <<< 8 }) b) rfl

theorem advanceE_grafts (u w : Word) : Grafts r (advanceE u w) := by
  intro b
  rw [advanceE, advanceE]
  exact Micro.map_ite (c := accumulatorOverflow b u = true) rfl (renormESteps_grafts r 3 { b with
    carry := b.carry || carryOut b.low u, low := b.low + u, range := w })

theorem flushBits_grafts (k : Nat) : Grafts r (flushBits k) :=
  (qpushBytes_grafts r _).andThen fun t =>
    Micro.map_ite (c := 0 < k % 8) (qpush_grafts r _ t) <|
      Micro.map_ite (c := t.carry = true) (emitCarry_grafts r { t with carry := false }) rfl

theorem flushPad_grafts : Grafts r flushPad := fun b =>
  Micro.map_ite (c := 0 < b.pcnt.toNat) (defer_grafts r _ { b with pcnt := 0, pbits := 0 }) rfl

theorem flushFrom_grafts (carry : Bool) (low : Word) : Grafts r (flushFrom carry low) := by
  intro b
  have hfinish : Grafts r fun u => .ok { finalize u with low := 0, mode := .fin } := by
    intro u
    dsimp only
    rw [finalize_graft]
    rfl
  rw [flushFrom, flushFrom]
  exact (flushBits_grafts r _).andThen ((flushPad_grafts r).andThen hfinish)
    { b with carry := carry, low := low }

theorem flushOpen_grafts : Grafts r flushOpen := fun b => flushFrom_grafts r _ _ b

/-! ## The commands -/

/-- An encode command is one piece of pseudocode in every machine that encoder `b` stands in. -/
theorem exec_grafts {i : Instr} (hi : Encodes i.opcode) (b : State) :
    ∃ m : Micro, ∀ r, exec i (graft r b) = (m.map (graft r)).finish i.opcode := by
  cases i with
  | eInit => exact ⟨.ok b.opened, fun _ => rfl⟩
  | eAdv u w =>
    by_cases hm : b.mode = .enc
    · cases hb : intervalBad u w b.range with
      | true => exact ⟨.raise .intervalError b.range b, fun r => exec_eAdv_interval (s := graft r b) hm hb⟩
      | false =>
        exact ⟨advanceE u w b, fun r => advanceE_grafts r u w b ▸ exec_eAdv_body (s := graft r b) hm hb⟩
    · exact ⟨.raise .sessionError b.mode.code b, fun r => exec_eAdv_session (s := graft r b) hm⟩
  | eBit sym x =>
    by_cases hm : b.mode = .enc
    · cases hb : splitBad x b.range with
      | true => exact ⟨.raise .intervalError b.range b, fun r => exec_eBit_interval (s := graft r b) hm hb⟩
      | false =>
        exact ⟨advanceE (splitOffset sym x) (splitWidth sym x b.range) b, fun r =>
          advanceE_grafts r _ _ b ▸ exec_eBit_body (s := graft r b) hm hb⟩
    · exact ⟨.raise .sessionError b.mode.code b, fun r => exec_eBit_session (s := graft r b) hm⟩
  | eFlush =>
    by_cases hm : b.mode = .enc
    · exact ⟨flushOpen b, fun r => flushOpen_grafts r b ▸ exec_eFlush_body (s := graft r b) hm⟩
    · by_cases hf : b.mode = .fin
      · exact ⟨.ok b, fun r => exec_eFlush_fin (s := graft r b) hf⟩
      · exact ⟨.raise .sessionError b.mode.code b, fun r => exec_eFlush_session (s := graft r b) hm hf⟩
  | _ => rcases hi with hi | hi | hi | hi <;> cases hi

/-- Settles O40: both states are machines with the same encoder in them. -/
theorem encodingReadsOnlyTheEncoder : Obligations.EncodingReadsOnlyTheEncoder := by
  unfold Obligations.EncodingReadsOnlyTheEncoder
  intro i s s' t hi hregs hfault h
  obtain ⟨m, hm⟩ := exec_grafts hi s.bare
  have hs := hm s
  have hs' := hm s'
  rw [graft_bare rfl rfl, h] at hs
  rw [graft_bare hregs hfault] at hs'
  cases m with
  | ok u => cases hs; exact ⟨graft s' u, u.out, hs', rfl, rfl, rfl, rfl⟩
  | raise c info u => cases hs; exact ⟨_, u.out, hs', rfl, rfl, rfl, rfl⟩
  | stop f => cases hs

end Sys2Proof.Machine
end

section
/-! SUPPORT. The decode commands, whole (42_decode.md R210 to R217): the length checks, the first four bytes
of a stream, the refill of CODE, the bit decoded, and what they read and leave alone. -/

namespace Sys2Proof.Machine

/-! ## The checks on lengths -/

theorem lengthBad_eq_true {s : State} {b : Buffer} {n : Word} (h : bufferSize s.params b < n.toNat) :
    lengthBad s b n = true := decide_eq_true h

/-- Settles O16: each length check raises before any write, and TLEN's stands first. -/
theorem lengthChecks : Obligations.LengthChecks := by
  unfold Obligations.LengthChecks
  exact ⟨fun s n hn => exec_dInit_length (lengthBad_eq_true hn),
    fun s tlen plen ht => exec_recover_tlen (lengthBad_eq_true ht),
    fun s tlen plen ht hp => exec_recover_plen (lengthBad_eq_false.2 ht) (lengthBad_eq_true hp)⟩

/-! ## D.INIT -/

theorem toNat_pushCode (code : Word) (b : Byte) :
    (pushCode code b).toNat = (code.toNat * 256 + b.toNat) % 2 ^ 32 := by
  rw [pushCode, BitVec.toNat_add, BitVec.toNat_shiftLeft, BitVec.toNat_setWidth, Nat.shiftLeft_eq]
  omega

theorem toNat_append_add {m n : Nat} (x : BitVec m) (y : BitVec n) :
    (x ++ y).toNat = x.toNat * 2 ^ n + y.toNat := by
  rw [BitVec.toNat_append, ← Nat.shiftLeft_add_eq_or_of_lt y.isLt, Nat.shiftLeft_eq]

/-- Four bytes fill CODE, the first highest (R210). -/
theorem pushCode_four (a b c d : Byte) :
    pushCode (pushCode (pushCode (pushCode 0 a) b) c) d = (a ++ b) ++ (c ++ d) := by
  apply BitVec.eq_of_toNat_eq
  have hzero : (0 : Word).toNat = 0 := rfl
  simp only [toNat_pushCode, toNat_append_add, hzero]
  omega

/-- Settles O41: the four bytes read fill CODE, and the length check comes before any write. -/
theorem dInitPrimesTheDecoder : Obligations.DInitPrimesTheDecoder := by
  unfold Obligations.DInitPrimesTheDecoder
  refine ⟨fun n => rfl, fun s n hn => ?fits, fun s n hn => exec_dInit_length (lengthBad_eq_true hn)⟩
  case fits =>
    rw [exec_dInit_body (lengthBad_eq_false.2 hn), pushCode_four]
    rfl

/-! ## D.ADV and D.BIT -/

/-- D.ADV puts the advanced decoder registers in place and writes nothing else (R211). -/
theorem exec_dAdv_of_advance {s : State} {u w : Word} {d : Dec} (hm : s.mode = .dec)
    (hb : intervalBad u w s.range = false) (hd : Dec.advance (inByte s) u w s.decoder = .ok d) :
    exec (.dAdv u w) s = .next (s.setDecoder d) := by
  rw [exec_dAdv_body hm hb, hd, State.withDecoder_ok, Micro.finish_ok]

/-- D.BIT advances to the part it decodes and puts the bit in DBIT (R212). -/
theorem exec_dBit_of_advance {s : State} {b : Word} {d : Dec} (hm : s.mode = .dec)
    (hb : splitBad b s.range = false)
    (hd : Dec.advance (inByte s) (splitOffset (decidedBit s.code b) b)
      (splitWidth (decidedBit s.code b) b s.range) s.decoder = .ok d) :
    exec (.dBit b) s = .next { s.setDecoder d with dbit := decidedBit s.code b } := by
  rw [exec_dBit_body hm hb, hd, State.withDecoder_ok, Micro.finish_ok]
  rfl

/-- Settles O42: RENORM_D takes the least number of steps, and each takes in one byte. -/
theorem dAdvRefillsFromTheStream : Obligations.DAdvRefillsFromTheStream := by
  unfold Obligations.DAdvRefillsFromTheStream
  intro s u w hm hlen hw hu
  obtain ⟨k, hk, hcount, hd⟩ := Dec.advance_ok (inByte_ok hlen) (u := u) (d := s.decoder) hw
  exact ⟨k, hk, hcount, exec_dAdv_of_advance hm (intervalBad_eq_false.2 ⟨hw, hu⟩) hd⟩

/-- Settles O43: the part decoded lies inside the interval, and both commands advance to it. -/
theorem dBitDecodesIntoDbit : Obligations.DBitDecodesIntoDbit := by
  unfold Obligations.DBitDecodesIntoDbit
  intro s bound hm hlen h1 h2
  have hbit : decide (bound.toNat ≤ s.code.toNat) = decidedBit s.code bound := rfl
  rw [hbit, splitInterval_eq]
  have hfits := split_fits (decidedBit s.code bound) h1 h2
  obtain ⟨d, hd, -⟩ := decoder_advance hlen (splitOffset (decidedBit s.code bound) bound) hfits.1
  exact ⟨s.setDecoder d, exec_dAdv_of_advance hm (intervalBad_eq_false.2 hfits) hd, rfl,
    exec_dBit_of_advance hm (splitBad_eq_false h1 h2) hd⟩

/-! ## What the decode commands leave alone -/

/-- The encoder's registers but RANGE and MODE, with OUT and CMD, are the same in two states (R217). -/
structure SameEncoder (s t : State) : Prop where
  out : t.out = s.out ∧ t.outcnt = s.outcnt
  accumulator : t.low = s.low ∧ t.carry = s.carry
  queue : t.pcnt = s.pcnt ∧ t.pbits = s.pbits
  tail : t.held = s.held ∧ t.heldV = s.heldV ∧ t.runLen = s.runLen ∧ t.runPol = s.runPol
  cmd : t.cmd = s.cmd

theorem DecodeFrame.sameEncoder {s t : State} (h : DecodeFrame s t) : SameEncoder s t := by
  rw [h]
  exact ⟨⟨rfl, rfl⟩, ⟨rfl, rfl⟩, ⟨rfl, rfl⟩, ⟨rfl, rfl, rfl, rfl⟩, rfl⟩

/-- A command that is none of the encode commands leaves the encoder as it is, also where it faults. -/
theorem exec_sameEncoder {i : Instr} {s t : State} (hi : ¬ Encodes i.opcode) (h : exec i s = .next t) :
    SameEncoder s t :=
  exec_next_of_ends h (fun _ hb => (hb.decodeFrame hi).mono fun _ => DecodeFrame.sameEncoder)
    fun _ _ _ _ hr => ⟨hr.out, hr.accumulator, hr.queue, hr.tail, hr.cmd⟩

/-- The commands of 42_decode.md. -/
abbrev Decodes (op : Opcode) : Prop := op = .dInit ∨ op = .dAdv ∨ op = .dBit

theorem Decodes.not_encodes {op : Opcode} (h : Decodes op) : ¬ Encodes op := by
  rcases h with rfl | rfl | rfl <;> decide

theorem Decodes.ne_recover {op : Opcode} (h : Decodes op) : op ≠ .recover := by
  rcases h with rfl | rfl | rfl <;> decide

/-- Settles O44: the encoder and memory by their frames, RECOVER's registers by who writes them, and MODE
by what D.INIT writes. -/
theorem decodeCommandsFrame : Obligations.DecodeCommandsFrame := by
  unfold Obligations.DecodeCommandsFrame
  refine ⟨fun i s t hi h => ?frame, fun s t n _ hn h => ?leaves⟩
  case frame =>
    have hi : Decodes i.opcode := hi
    obtain ⟨⟨hout, houtcnt⟩, ⟨hlow, hcarry⟩, ⟨hpcnt, hpbits⟩, htail, hcmd⟩ :=
      exec_sameEncoder hi.not_encodes h
    obtain ⟨-, hrcv, -⟩ := whoWritesTheSessionRegisters i s t h
    have hk := exec_keepsMemory h
    exact ⟨⟨hout, houtcnt, hlow, hcarry, hpcnt, hpbits, htail⟩, hrcv hi.ne_recover,
      ⟨hk.params, hcmd, hk.resetCount⟩, hk.memRead_eq⟩
  case leaves =>
    rw [exec_dInit_body (lengthBad_eq_false.2 hn)] at h
    cases h
    rfl

/-! ## What the decode commands read -/

/-- Reads of the stream answer alike in states that agree on ILEN and on IN below it (R73). -/
theorem inByte_congr {s s' : State} (hilen : s'.ilen = s.ilen) (hs : s.ilen.toNat ≤ s.params.inSize)
    (hs' : s'.ilen.toNat ≤ s'.params.inSize)
    (hin : ∀ a, a < s.ilen.toNat → s'.byteAt .input a = s.byteAt .input a) : inByte s' = inByte s := by
  funext i
  rw [inByte_ok hs', inByte_ok hs, State.streamByte, State.streamByte, hilen]
  by_cases hi : i.toNat < s.ilen.toNat
  · rw [if_pos hi, if_pos hi, hin _ hi]
  · rw [if_neg hi, if_neg hi]

/-- Settles O45: both sessions advance the same decoder registers over the same stream. -/
theorem decodingReadsOnlyItsStream : Obligations.DecodingReadsOnlyItsStream := by
  unfold Obligations.DecodingReadsOnlyItsStream
  intro i s s' hm hm' hdec hilen hdbit hs hs' hin hi
  have hrange : s'.range = s.range := congrArg Dec.range hdec
  have hcode : s'.code = s.code := congrArg Dec.code hdec
  have hreads := inByte_congr hilen hs hs' hin
  rcases hi with ⟨u, w, rfl, hb⟩ | ⟨b, rfl, hb⟩
  · obtain ⟨d, hd, -⟩ := decoder_advance hs u (not_intervalBad hb).1
    have hd' : Dec.advance (inByte s') u w s'.decoder = .ok d := by rw [hreads, hdec, hd]
    exact ⟨s.setDecoder d, s'.setDecoder d, exec_dAdv_of_advance hm hb hd,
      exec_dAdv_of_advance hm' (by rw [hrange, hb]) hd', rfl, rfl, rfl, hdbit⟩
  · obtain ⟨h1, h2⟩ := not_splitBad hb
    obtain ⟨d, hd, -⟩ := decoder_advance hs (splitOffset (decidedBit s.code b) b)
      (split_fits (decidedBit s.code b) h1 h2).1
    have hd' : Dec.advance (inByte s') (splitOffset (decidedBit s'.code b) b)
        (splitWidth (decidedBit s'.code b) b s'.range) s'.decoder = .ok d := by
      rw [hreads, hdec, hcode, hrange, hd]
    exact ⟨{ s.setDecoder d with dbit := decidedBit s.code b },
      { s'.setDecoder d with dbit := decidedBit s'.code b }, exec_dBit_of_advance hm hb hd,
      exec_dBit_of_advance hm' (by rw [hrange, hb]) hd', rfl, rfl, rfl, by rw [hcode]⟩

end Sys2Proof.Machine
end

section
/-! SUPPORT. RECOVER, whole (43_recovery.md R240 to R247): the decode of a candidate as a run of commands,
what it reads, what models it can tell apart, and what the search makes of the candidates' verdicts. -/

namespace Sys2Proof.Machine

/-! ## How one plaintext byte is decoded -/

section decodeByte

variable {St : Type} {m : Model St} {rd : Word → Except Fault Byte} {σ σ' : St} {d d' : Dec} {bit : Bool}

/-- A bound outside `[1, RANGE - 1]` ends the decode (R243). -/
theorem decodeByte_badBound (k : Nat) (hx : splitBad (m.bound σ d.range) d.range = true) :
    decodeByte m rd (k + 1) σ d = .badBound := if_pos hx

theorem decodeByte_stop (k : Nat) {f : Fault} (hx : splitBad (m.bound σ d.range) d.range = false)
    (hd : Dec.decideAt rd (m.bound σ d.range) d = (bit, .error f)) :
    decodeByte m rd (k + 1) σ d = .stop f := by
  simp only [decodeByte, hx, hd, Bool.false_eq_true, if_false]

/-- A decision that completes a byte (R243). -/
theorem decodeByte_byte (k : Nat) {y : Byte} (hx : splitBad (m.bound σ d.range) d.range = false)
    (hd : Dec.decideAt rd (m.bound σ d.range) d = (bit, .ok d')) (hy : m.next σ bit = (σ', some y)) :
    decodeByte m rd (k + 1) σ d = .byte y σ' d' := by
  simp only [decodeByte, hx, hd, hy, Bool.false_eq_true, if_false]

/-- A decision that completes no byte leaves one fewer of the MAX_DPB decisions (R243). -/
theorem decodeByte_decision (k : Nat) (hx : splitBad (m.bound σ d.range) d.range = false)
    (hd : Dec.decideAt rd (m.bound σ d.range) d = (bit, .ok d')) (hy : m.next σ bit = (σ', none)) :
    decodeByte m rd (k + 1) σ d = decodeByte m rd k σ' d' := by
  simp only [decodeByte, hx, hd, hy, Bool.false_eq_true, if_false]

end decodeByte

/-! ## MATCH as a run of commands -/

/-- With plaintext byte `n` decoded to `r`, the decode of DecodeMatch ends in the verdict given, in every
session that mirrors the private decoder. -/
inductive EndsAs {St : Type} (m : Model St) (rd : Word → Except Fault Byte) (maxDpb : Nat) (pt : Nat → Byte)
    (plen n : Nat) : ByteResult St → Verdict → Prop where
  | badBound : EndsAs m rd maxDpb pt plen n .badBound .badBound
  | nonProgress : EndsAs m rd maxDpb pt plen n .nonProgress .nonProgress
  | miss {y : Byte} {σ : St} {e : Dec} (hne : y ≠ pt n) : EndsAs m rd maxDpb pt plen n (.byte y σ e) .miss
  | byte {y : Byte} {σ : St} {e : Dec} {v : Verdict} (he : y = pt n)
      (rest : ∀ d, Mirrors rd e d → DecodeMatch m maxDpb pt plen (n + 1) 0 σ d v) :
      EndsAs m rd maxDpb pt plen n (.byte y σ e) v

section simulation

variable {St : Type} {m : Model St} {rd : Word → Except Fault Byte} {f : Nat → Byte} {maxDpb plen : Nat}
  {pt : Nat → Byte}

/-- The decisions of one plaintext byte are so many D.BIT (R212, R243), by induction on the decisions left. -/
theorem Mirrors.decodeMatch_of_byte (hrd : ∀ i, rd i = .ok (f i.toNat)) {n : Nat} (hn : n < plen)
    {left made : Nat} {σ : St} {e : Dec} {d : State} {v : Verdict} (hd : Mirrors rd e d)
    (hleft : made + left = maxDpb) (hmade : made < maxDpb)
    (hv : EndsAs m rd maxDpb pt plen n (decodeByte m rd left σ e) v) :
    DecodeMatch m maxDpb pt plen n made σ d v := by
  induction left generalizing made σ e d with
  | zero => omega
  | succ left ih =>
    obtain rfl := hd.regs
    cases hx : splitBad (m.bound σ d.range) d.range with
    | true =>
      rw [decodeByte_badBound left hx] at hv
      cases hv
      obtain ⟨d', hexec, hf, hc⟩ := hd.dBit_bad hx
      exact .badBound hn hexec hf hc
    | false =>
      obtain ⟨e', he'⟩ := Dec.decideAt_ok (d := d.decoder) hrd hx
      obtain ⟨d', hexec, hbit, hd'⟩ := hd.dBit_ok hx he'
      rw [← hbit] at he'
      rcases hy : m.next σ d'.dbit with ⟨σ', _ | y⟩
      · rw [decodeByte_decision left hx he' hy] at hv
        by_cases hk : made + 1 = maxDpb
        · obtain rfl : left = 0 := by omega
          cases hv
          exact .nonProgress hn hexec hd'.ok hy hk
        · exact .decision hn hexec hd'.ok hy hk (ih hd' (by omega) (by omega) hv)
      · rw [decodeByte_byte left hx he' hy] at hv
        cases hv with
        | miss hne => exact .miss hn hexec hd'.ok hy hne
        | byte heq rest => exact .byte hn hexec hd'.ok hy heq (rest d' hd')

/-- MATCH's loop is the decode of DecodeMatch (R243), by induction on the plaintext bytes left. -/
theorem Mirrors.decodeMatch (hrd : ∀ i, rd i = .ok (f i.toNat)) (hdpb : 1 ≤ maxDpb)
    {ptRead : Nat → Except Fault Byte} (hpt : ∀ i, i < plen → ptRead i = .ok (pt i)) {k n : Nat}
    (hk : n + k = plen) {σ : St} {e : Dec} {d : State} (hd : Mirrors rd e d) :
    DecodeMatch m maxDpb pt plen n 0 σ d (matchBytes m rd ptRead maxDpb k n σ e) := by
  induction k generalizing n σ e d with
  | zero => exact .hit (by omega)
  | succ k ih =>
    have hn : n < plen := by omega
    refine hd.decodeMatch_of_byte hrd hn (Nat.zero_add maxDpb) hdpb ?_
    rw [matchBytes]
    cases hr : decodeByte m rd maxDpb σ e with
    | badBound => exact .badBound
    | nonProgress => exact .nonProgress
    | stop f => exact absurd hr (decodeByte_ne_stop m hrd _ _ _ f)
    | byte y σ' e' =>
      dsimp only
      rw [hpt n hn]
      dsimp only
      by_cases hy : y = pt n
      · rw [if_neg (not_not_intro hy)]
        exact .byte hy fun d' hd' => ih (by omega) hd'
      · rw [if_pos hy]
        exact .miss hy

end simulation

/-- Priming reads bytes 0 to 3 of a decode session's stream, and D.INIT stands where it ends (R210, R243). -/
theorem Mirrors.of_dInit {d t : State} {n : Word} (hf : d.faulted = false) (hn : n.toNat ≤ d.params.inSize)
    (h : exec (.dInit n) d = .next t) : ∃ e, Dec.prime (inByte t) = .ok e ∧ Mirrors (inByte t) e t := by
  rw [exec_dInit_body (lengthBad_eq_false.2 hn)] at h
  cases h
  exact ⟨_, Dec.prime_spec (inByte_ok hn), hf, rfl, rfl, rfl⟩

/-- What D.INIT makes of the stream (R210). -/
theorem exec_dInit_stream {d t : State} {n : Word} (hn : n.toNat ≤ d.params.inSize)
    (h : exec (.dInit n) d = .next t) :
    t.ilen = n ∧ t.params = d.params ∧ ∀ a, t.byteAt .input a = d.byteAt .input a := by
  rw [exec_dInit_body (lengthBad_eq_false.2 hn)] at h
  cases h
  exact ⟨rfl, rfl, fun _ => rfl⟩

/-- A session of TLEN + 1 bytes over `IN[0 .. TLEN-1] ++ [b]` reads candidate `b`'s stream (R73, R242). -/
theorem inByte_candidate {s t : State} {tlen : Word} {b : Byte} (hs : tlen.toNat ≤ s.params.inSize)
    (ht : tlen.toNat + 1 ≤ t.params.inSize) (hlen : t.ilen.toNat = tlen.toNat + 1)
    (hin : ∀ a, a < tlen.toNat → t.byteAt .input a = s.byteAt .input a)
    (hb : t.byteAt .input tlen.toNat = b) : inByte t = inByteC s tlen b := by
  funext i
  rw [inByte_ok (by omega), inByteC_ok hs, State.streamByte, State.candidateByte, hlen]
  rcases Nat.lt_trichotomy i.toNat tlen.toNat with hi | hi | hi
  · rw [if_pos (by omega), if_pos (BitVec.lt_def.2 hi), hin _ hi]
  · obtain rfl := BitVec.eq_of_toNat_eq hi
    rw [if_pos (by omega), if_neg (BitVec.lt_irrefl i), if_pos rfl, hb]
  · rw [if_neg (by omega), if_neg (BitVec.not_lt.2 (BitVec.le_def.2 (Nat.le_of_lt hi))),
      if_neg (by rintro rfl; omega)]

theorem memRead_plaintext {s : State} {plen : Word} (hp : plen.toNat ≤ s.params.ptSize) {a : Nat}
    (ha : a < plen.toNat) : memRead s .plaintext a = .ok (s.byteAt .plaintext a) :=
  if_pos (Nat.lt_of_lt_of_le ha hp)

/-- MATCH under a model is the decode session's run under that model (R243). -/
theorem Mirrors.decodeMatch_matchWith {St : Type} (m : Model St) {s t : State} {tlen plen : Word} {b : Byte}
    {e : Dec} (hs : s.params.valid) (ht : tlen.toNat ≤ s.params.inSize) (hp : plen.toNat ≤ s.params.ptSize)
    (he : Dec.prime (inByteC s tlen b) = .ok e) (hmir : Mirrors (inByteC s tlen b) e t) :
    DecodeMatch m s.params.maxDpb (s.byteAt .plaintext) plen.toNat 0 0 m.init t
      (matchWith m s tlen plen b) := by
  obtain ⟨-, -, hdpb⟩ := hs
  rw [matchWith, he]
  exact hmir.decodeMatch (f := fun n => s.candidateByte tlen b (BitVec.ofNat 32 n))
    (candidateByte_nat ht b) hdpb (fun _ => memRead_plaintext hp) (Nat.zero_add _)

theorem Mirrors.decodesTo {s t : State} {tlen plen : Word} {b : Byte} {e : Dec} (hs : s.params.valid)
    (ht : tlen.toNat ≤ s.params.inSize) (hp : plen.toNat ≤ s.params.ptSize)
    (he : Dec.prime (inByteC s tlen b) = .ok e) (hmir : Mirrors (inByteC s tlen b) e t) :
    s.decodesTo plen t (matchCandidate s tlen plen b) := by
  unfold State.decodesTo matchCandidate
  cases s.params.model <;> exact hmir.decodeMatch_matchWith _ hs ht hp he

theorem State.decodesTo.unique {s t : State} {plen : Word} {v w : Verdict} (hv : s.decodesTo plen t v)
    (hw : s.decodesTo plen t w) : v = w := by
  unfold State.decodesTo at hv hw
  cases hm : s.params.model <;> rw [hm] at hv hw <;> exact hv.unique hw

/-- Settles O48: the session opened with D.INIT mirrors the private decoder, which then ends in MATCH's
verdict, and in no other. -/
theorem matchIsTheDecodeOfTheCandidate : Obligations.MatchIsTheDecodeOfTheCandidate := by
  unfold Obligations.MatchIsTheDecodeOfTheCandidate
  intro s d t tlen plen b v hs ht hp hf hroom hin hb h
  have hmax : s.params.inSize ≤ 2147483648 := hs.1.2
  have hlen : (tlen + 1).toNat = tlen.toNat + 1 := by
    rw [BitVec.toNat_add]
    exact Nat.mod_eq_of_lt (show tlen.toNat + 1 < 4294967296 by omega)
  have hfits : (tlen + 1).toNat ≤ d.params.inSize := by omega
  obtain ⟨hilen, hparams, hbytes⟩ := exec_dInit_stream hfits h
  have hreads : inByte t = inByteC s tlen b :=
    inByte_candidate ht (hparams ▸ hroom) (hilen ▸ hlen) (fun a ha => (hbytes a).trans (hin a ha))
      ((hbytes _).trans hb)
  obtain ⟨e, he, hmir⟩ := Mirrors.of_dInit hf hfits h
  rw [hreads] at he hmir
  have hdec := hmir.decodesTo hs ht hp he
  exact ⟨fun hv => hv ▸ hdec, hdec.unique⟩

/-! ## What MATCH reads -/

/-- MATCH's loop reads only the plaintext bytes that it compares (R243). -/
theorem matchBytes_congr {St : Type} (m : Model St) (rd : Word → Except Fault Byte)
    {pt pt' : Nat → Except Fault Byte} (maxDpb : Nat) {k n : Nat}
    (h : ∀ i, n ≤ i → i < n + k → pt' i = pt i) (σ : St) (d : Dec) :
    matchBytes m rd pt' maxDpb k n σ d = matchBytes m rd pt maxDpb k n σ d := by
  induction k generalizing n σ d with
  | zero => rfl
  | succ k ih =>
    have hrest := ih (n := n + 1) fun i h1 h2 => h i (by omega) (by omega)
    simp only [matchBytes, h n (Nat.le_refl n) (by omega), hrest]

/-- Candidates' streams read alike where IN agrees below TLEN (R242). -/
theorem inByteC_congr {s s' : State} {tlen : Word} (hp : s'.params = s.params)
    (ht : tlen.toNat ≤ s.params.inSize)
    (hin : ∀ a, a < tlen.toNat → s'.byteAt .input a = s.byteAt .input a) (b : Byte) :
    inByteC s' tlen b = inByteC s tlen b := by
  funext i
  rw [inByteC_ok ht, inByteC_ok (hp ▸ ht), State.candidateByte, State.candidateByte]
  by_cases hi : i < tlen
  · rw [if_pos hi, if_pos hi, hin _ hi]
  · rw [if_neg hi, if_neg hi]

/-- Settles O52: the streams read alike, and PT where the loop reads it. -/
theorem matchReadsOnlyItsStreams : Obligations.MatchReadsOnlyItsStreams := by
  unfold Obligations.MatchReadsOnlyItsStreams
  intro s s' tlen plen b hparams ht hp hin hpt
  have hplain : ∀ i, 0 ≤ i → i < 0 + plen.toNat → memRead s' .plaintext i = memRead s .plaintext i := by
    intro i _ hi
    have hi : i < plen.toNat := by omega
    rw [memRead_plaintext hp hi, memRead_plaintext (hparams ▸ hp) hi, hpt i hi]
  have hwith : ∀ {St : Type} (m : Model St), matchWith m s' tlen plen b = matchWith m s tlen plen b := by
    intro St m
    simp only [matchWith, inByteC_congr hparams ht hin, hparams, matchBytes_congr m _ _ hplain]
  simp only [matchCandidate, hparams, hwith]

/-! ## Models that MATCH cannot tell apart -/

/-- `f` takes the states of model `m` to states of `m'` that behave alike (R241). -/
structure ModelMap {St St' : Type} (m : Model St) (m' : Model St') (f : St → St') : Prop where
  init : f m.init = m'.init
  bound : ∀ σ r, m'.bound (f σ) r = m.bound σ r
  next : ∀ σ bit, m'.next (f σ) bit = (f (m.next σ bit).1, (m.next σ bit).2)

/-- The end of a byte's decode with the model's state replaced. -/
def ByteResult.map {St St' : Type} (f : St → St') : ByteResult St → ByteResult St'
  | .byte y σ d => .byte y (f σ) d
  | .badBound => .badBound
  | .nonProgress => .nonProgress
  | .stop e => .stop e

section maps

variable {St St' : Type} {m : Model St} {m' : Model St'} {f : St → St'}

theorem ModelMap.decodeByte_eq (h : ModelMap m m' f) (rd : Word → Except Fault Byte) (k : Nat) (σ : St)
    (d : Dec) : decodeByte m' rd k (f σ) d = (decodeByte m rd k σ d).map f := by
  induction k generalizing σ d with
  | zero => rfl
  | succ k ih =>
    have hbound := h.bound σ d.range
    cases hx : splitBad (m.bound σ d.range) d.range with
    | true => rw [decodeByte_badBound k hx, decodeByte_badBound k (by rw [hbound, hx])]; rfl
    | false =>
      have hx' : splitBad (m'.bound (f σ) d.range) d.range = false := by rw [hbound, hx]
      rcases hd : Dec.decideAt rd (m.bound σ d.range) d with ⟨bit, e | d'⟩
      · rw [decodeByte_stop k hx hd, decodeByte_stop k hx' (by rw [hbound, hd])]; rfl
      · have hd' : Dec.decideAt rd (m'.bound (f σ) d.range) d = (bit, .ok d') := by rw [hbound, hd]
        have hnext := h.next σ bit
        rcases hy : m.next σ bit with ⟨σ', _ | y⟩
        · rw [decodeByte_decision k hx hd hy, decodeByte_decision k hx' hd' (by rw [hnext, hy]), ih]
        · rw [decodeByte_byte k hx hd hy, decodeByte_byte k hx' hd' (by rw [hnext, hy])]; rfl

theorem ModelMap.matchBytes_eq (h : ModelMap m m' f) (rd : Word → Except Fault Byte)
    (pt : Nat → Except Fault Byte) (maxDpb k n : Nat) (σ : St) (d : Dec) :
    matchBytes m' rd pt maxDpb k n (f σ) d = matchBytes m rd pt maxDpb k n σ d := by
  induction k generalizing n σ d with
  | zero => rfl
  | succ k ih =>
    simp only [matchBytes, h.decodeByte_eq]
    cases decodeByte m rd maxDpb σ d with
    | byte y σ' d' => simp only [ByteResult.map, ih]
    | _ => rfl

/-- Models that behave alike give every candidate the same verdict (R243). -/
theorem ModelMap.matchWith_eq (h : ModelMap m m' f) (s : State) (tlen plen : Word) (b : Byte) :
    matchWith m' s tlen plen b = matchWith m s tlen plen b := by
  simp only [matchWith, ← h.init, h.matchBytes_eq]

end maps

/-- Decision histories behave as the states they lead to (log entry 4). -/
theorem historyModel_map {St : Type} (m : Model St) : ModelMap (historyModel m) m (historyState m) where
  init := rfl
  bound _ _ := rfl
  next h bit := Prod.ext (historyState_snoc m h bit).symm rfl

/-- Settles O53: each history is mapped to the state that it leads to. -/
theorem everyModelHasAHistoryModel : Obligations.EveryModelHasAHistoryModel := by
  unfold Obligations.EveryModelHasAHistoryModel
  intro St m s tlen plen b
  exact ((historyModel_map m).matchWith_eq s tlen plen b).symm

/-! ## What RECOVER makes of the verdicts -/

/-- RECOVER with lengths that fit ends as the lowest candidate that does not miss makes it (R240, R246). -/
theorem exec_recover_lowest {s : State} {tlen plen : Word} {b : Byte} (ht : tlen.toNat ≤ s.params.inSize)
    (hp : plen.toNat ≤ s.params.ptSize) (hlow : ∀ c, c < b → matchCandidate s tlen plen c = .miss)
    (hb : matchCandidate s tlen plen b ≠ .miss) :
    exec (.recover tlen plen) s = (recoverResult { s with rcvState := .searching }
      ((matchCandidate s tlen plen b).found b)).finish .recover := by
  rw [exec_recover_body (lengthBad_eq_false.2 ht) (lengthBad_eq_false.2 hp), search_lowest hlow hb]

/-- Settles O47: a hit ends the search at its candidate, and misses end it with none. -/
theorem recoverReportsTheLowestMatch : Obligations.RecoverReportsTheLowestMatch := by
  unfold Obligations.RecoverReportsTheLowestMatch
  refine ⟨fun s tlen plen b ht hp hb hlow => ?found, fun s tlen plen ht hp hmiss => ?none⟩
  case found =>
    rw [exec_recover_lowest ht hp hlow (by rw [hb]; decide), hb]
    rfl
  case none =>
    rw [exec_recover_body (lengthBad_eq_false.2 ht) (lengthBad_eq_false.2 hp), search_none hmiss]
    rfl

/-- Settles O49: such a verdict ends the search, and raises with RCV_STATE at SEARCHING. -/
theorem recoverFaultsInTheSearch : Obligations.RecoverFaultsInTheSearch := by
  unfold Obligations.RecoverFaultsInTheSearch
  intro s tlen plen b ht hp hlow
  constructor <;> intro hb <;>
  · rw [exec_recover_lowest ht hp hlow (by rw [hb]; decide), hb]
    rfl

theorem matchCandidate_empty {s : State} {tlen : Word} (ht : tlen.toNat ≤ s.params.inSize) (b : Byte) :
    matchCandidate s tlen 0 b = .hit := by
  have hwith : ∀ {St : Type} (m : Model St), matchWith m s tlen 0 b = .hit := fun m => by
    rw [matchWith, Dec.prime_spec (inByteC_ok ht b)]
    rfl
  unfold matchCandidate
  split <;> exact hwith _

/-- Settles O51: candidate 0 is the lowest, and it matches with no decision made. -/
theorem emptyPlaintextMatchesZero : Obligations.EmptyPlaintextMatchesZero := by
  unfold Obligations.EmptyPlaintextMatchesZero
  intro s tlen ht
  exact recoverReportsTheLowestMatch.1 s tlen 0 0 ht (Nat.zero_le _) (matchCandidate_empty ht 0)
    fun c hc => absurd hc BitVec.not_lt_zero

/-- Settles O50: a length check raises at once, and the search writes the result or raises. -/
theorem recoverWritesOnlyItsResult : Obligations.RecoverWritesOnlyItsResult := by
  unfold Obligations.RecoverWritesOnlyItsResult
  intro s tlen plen
  cases ht : lengthBad s .input tlen with
  | true => exact ⟨_, exec_recover_tlen ht, rfl, .inr ⟨rfl, rfl, rfl⟩⟩
  | false =>
    cases hp : lengthBad s .plaintext plen with
    | true => exact ⟨_, exec_recover_plen ht hp, rfl, .inr ⟨rfl, rfl, rfl⟩⟩
    | false =>
      rw [exec_recover_body ht hp]
      cases hr : searchIn (matchCandidate s tlen plen) candidates with
      | byte b => exact ⟨_, rfl, rfl, .inl rfl⟩
      | none => exact ⟨_, rfl, rfl, .inl rfl⟩
      | raise c b => exact ⟨_, rfl, rfl, .inr ⟨rfl, rfl, rfl⟩⟩
      | stop f => exact absurd hr (search_ne_stop (lengthBad_eq_false.1 ht) (lengthBad_eq_false.1 hp) f)

end Sys2Proof.Machine
end

section
/-! SUPPORT. Faults at the level of commands and steps (60_exceptions.md R272, R274 to R276): which commands
a MODE refuses, what a faulted CORE still shows, and what clears a fault. -/

namespace Sys2Proof.Machine

/-! ## A faulted CORE -/

/-- No register shows the words that wait on CMD (R46 to R58). -/
theorem readReg_withCmd (s : State) (ws : List Word) (a : Byte) :
    readReg { s with cmd := ws } a = readReg s a := rfl

/-- Settles O7: a run drops words, and a register read does not look at CMD. -/
theorem faultedCoreIgnoresEveryWord : Obligations.FaultedCoreIgnoresEveryWord := by
  unfold Obligations.FaultedCoreIgnoresEveryWord
  exact fun s k hf => ⟨_, run_of_faulted hf k, rfl, readReg_withCmd s (s.cmd.drop k)⟩

/-! ## The session table: refusals -/

/-- A command that the session table refuses takes SessionError with MODE in FAULT_INFO, and writes nothing
else (R271, R272). -/
theorem exec_of_not_sessionAllows {i : Instr} {s : State} (h : sessionAllows i s.mode = false) :
    exec i s = .next (s.enterFault i.opcode.byte .sessionError s.mode.code) := by
  cases i with
  | eInit => cases h
  | eAdv u w => exact exec_eAdv_session (beq_eq_false_iff_ne.1 h)
  | eBit sym b => exact exec_eBit_session (beq_eq_false_iff_ne.1 h)
  | eFlush =>
    obtain ⟨henc, hfin⟩ := Bool.or_eq_false_iff.1 h
    exact exec_eFlush_session (beq_eq_false_iff_ne.1 henc) (beq_eq_false_iff_ne.1 hfin)
  | dInit n => cases h
  | dAdv u w => exact exec_dAdv_session (beq_eq_false_iff_ne.1 h)
  | dBit b => exact exec_dBit_session (beq_eq_false_iff_ne.1 h)
  | recover tlen plen => cases h

/-! ## The session table: what an allowed command raises -/

/-- The piece of pseudocode does not raise `c`. -/
def Micro.Avoids (c : FaultCode) (m : Micro) : Prop := ∀ info t, m ≠ .raise c info t

theorem Micro.Avoids.ok (c : FaultCode) (s : State) : (Micro.ok s).Avoids c := nofun

theorem Micro.Avoids.stop (c : FaultCode) (f : Fault) : (Micro.stop f).Avoids c := nofun

theorem Micro.Avoids.raise {c c' : FaultCode} (h : c' ≠ c) (info : Word) (s : State) :
    (Micro.raise c' info s).Avoids c := fun _ _ he => h (Micro.raise.inj he).1

theorem Micro.Raises.avoids {Q : FaultCode → Prop} {m : Micro} {c : FaultCode} (hm : m.Raises Q)
    (hc : ¬ Q c) : m.Avoids c := by
  rintro info t rfl
  exact hc hm

theorem advanceE_avoids_sessionError (u w : Word) (s : State) :
    (advanceE u w s).Avoids .sessionError :=
  (advanceE_raises u w s).avoids (by simp [microFault])

theorem flushOpen_avoids_sessionError (s : State) : (flushOpen s).Avoids .sessionError :=
  (flushFrom_raises _ _ s).avoids (by simp [microFault])

theorem withDecoder_avoids (c : FaultCode) (s : State) (r : Except Fault Dec) :
    (s.withDecoder r).Avoids c := by
  cases r with
  | error f => exact .stop c f
  | ok d => exact .ok c _

/-- The search of RECOVER raises only on the model (R246). -/
theorem recoverResult_avoids_sessionError (s : State) (verdict : Byte → Verdict) :
    (recoverResult s (searchIn verdict candidates)).Avoids .sessionError := by
  cases hs : searchIn verdict candidates with
  | byte b => exact .ok _ _
  | none => exact .ok _ _
  | raise c b =>
    have hc : c ≠ .sessionError := by rcases search_raises hs with rfl | rfl <;> decide
    exact .raise hc _ _
  | stop f => exact .stop _ f

/-- A command that the session table allows is pseudocode that raises no SessionError: it is refused by a
check on its operands or lengths, or runs its body (R272). -/
theorem exec_eq_finish_of_sessionAllows {i : Instr} {s : State} (h : sessionAllows i s.mode = true) :
    ∃ m, CommandBody s i m ∧ m.Avoids .sessionError ∧ exec i s = m.finish i.opcode := by
  cases i with
  | eInit => exact ⟨_, .eInit, .ok _ _, rfl⟩
  | eAdv u w =>
    have hm : s.mode = .enc := eq_of_beq h
    cases hb : intervalBad u w s.range with
    | true => exact ⟨_, .refused (.inr (.inl rfl)), .raise (by decide) _ _, exec_eAdv_interval hm hb⟩
    | false =>
      obtain ⟨hw, hu⟩ := not_intervalBad hb
      exact ⟨_, .advance (.inl rfl) hm hw hu, advanceE_avoids_sessionError u w s, exec_eAdv_body hm hb⟩
  | eBit sym b =>
    have hm : s.mode = .enc := eq_of_beq h
    cases hb : splitBad b s.range with
    | true => exact ⟨_, .refused (.inr (.inl rfl)), .raise (by decide) _ _, exec_eBit_interval hm hb⟩
    | false =>
      obtain ⟨hw, hu⟩ := split_fits sym (not_splitBad hb).1 (not_splitBad hb).2
      exact ⟨_, .advance (.inr rfl) hm hw hu, advanceE_avoids_sessionError _ _ s, exec_eBit_body hm hb⟩
  | eFlush =>
    rcases (Bool.or_eq_true _ _).mp h with henc | hfin
    · have hm : s.mode = .enc := eq_of_beq henc
      exact ⟨_, .flush hm, flushOpen_avoids_sessionError s, exec_eFlush_body hm⟩
    · have hm : s.mode = .fin := eq_of_beq hfin
      exact ⟨_, .flushAgain hm, .ok _ s, exec_eFlush_fin hm⟩
  | dInit n =>
    cases hl : lengthBad s .input n with
    | true => exact ⟨_, .refused (.inr (.inr rfl)), .raise (by decide) _ _, exec_dInit_length hl⟩
    | false => exact ⟨_, .dInit (lengthBad_eq_false.1 hl), .ok _ _, exec_dInit_body hl⟩
  | dAdv u w =>
    have hm : s.mode = .dec := eq_of_beq h
    cases hb : intervalBad u w s.range with
    | true => exact ⟨_, .refused (.inr (.inl rfl)), .raise (by decide) _ _, exec_dAdv_interval hm hb⟩
    | false =>
      exact ⟨_, .decode (.inl ⟨rfl, rfl⟩) hm (not_intervalBad hb).1, withDecoder_avoids _ _ _,
        exec_dAdv_body hm hb⟩
  | dBit b =>
    have hm : s.mode = .dec := eq_of_beq h
    cases hb : splitBad b s.range with
    | true => exact ⟨_, .refused (.inr (.inl rfl)), .raise (by decide) _ _, exec_dBit_interval hm hb⟩
    | false =>
      obtain ⟨hw, -⟩ := split_fits (decidedBit s.code b) (not_splitBad hb).1 (not_splitBad hb).2
      exact ⟨_, .decode (.inr rfl) hm hw, withDecoder_avoids _ _ _, exec_dBit_body hm hb⟩
  | recover tlen plen =>
    cases ht : lengthBad s .input tlen with
    | true => exact ⟨_, .refused (.inr (.inr rfl)), .raise (by decide) _ _, exec_recover_tlen ht⟩
    | false =>
      cases hp : lengthBad s .plaintext plen with
      | true => exact ⟨_, .refused (.inr (.inr rfl)), .raise (by decide) _ _, exec_recover_plen ht hp⟩
      | false =>
        exact ⟨_, .recover (lengthBad_eq_false.1 ht) (lengthBad_eq_false.1 hp),
          recoverResult_avoids_sessionError _ _, exec_recover_body ht hp⟩

/-- Settles O15: the fault that a refusal takes, and the frame or the fault of an allowed command. -/
theorem sessionTable : Obligations.SessionTable := by
  unfold Obligations.SessionTable
  refine ⟨fun i s h => ?refuses, fun i s t h hs he => ?allows⟩
  case refuses =>
    rw [exec_of_not_sessionAllows h, State.enterFault]
    cases s.mode <;> rfl
  case allows =>
    obtain ⟨m, hb, hm, hf⟩ := exec_eq_finish_of_sessionAllows h
    rw [hf] at he
    have hframe := hb.frame
    rcases Micro.finish_eq_next.1 he with rfl | ⟨c, info, r, rfl, rfl⟩
    · have hc : t.faultCode = s.faultCode := congrArg (fun regs => regs.2.1) hframe.faultRegs
      rw [hc]
      exact hs
    · intro hc
      have hcode : c = .sessionError := FaultCode.byte_injective hc
      exact hm info r (by rw [hcode])

/-! ## Clearing a fault -/

theorem State.setByte_faultRegs (s : State) (b : Buffer) (a : Nat) (v : Byte) :
    (s.setByte b a v).faultRegs = s.faultRegs := by
  cases b <;> rfl

theorem step_faultRegs_of_faulted {s t : State} (h : step s = .next t) (hf : s.faulted = true) :
    t.faultRegs = s.faultRegs := by
  rw [step_faulted hf] at h
  cases h
  rfl

/-- The host's acts on the fault registers: `rst` clears them, a word sent or a byte written leaves them
(R275, R303). -/
theorem hostAct_faultRegs {s t : State} {x : HostAction} (h : hostAct x s = some t) :
    t.faultRegs = if x = .rst then (false, 0, 0, 0) else s.faultRegs := by
  cases x with
  | send w => cases h; rfl
  | write b a v =>
    obtain ⟨-, rfl⟩ := hostAct_write_eq_some.1 h
    exact s.setByte_faultRegs b a v
  | rst => cases h; rfl

/-- Settles O19: commands, steps and the host's acts in turn. -/
theorem onlyResetClearsAFault : Obligations.OnlyResetClearsAFault := by
  unfold Obligations.OnlyResetClearsAFault
  exact ⟨fun _ => rfl, fun _ _ _ he hf => exec_faulted he hf, fun _ _ h hf => step_faultRegs_of_faulted h hf,
    fun _ _ _ h _ => hostAct_faultRegs h⟩

end Sys2Proof.Machine
end

section
/-! SUPPORT. Reset (70_reset_and_hazards.md R300 to R303): what the register port shows after it, and that
the machine of `State.reset` starts with the invariant. -/

namespace Sys2Proof.Machine

/-! ## The registers after reset -/

section
variable (p : Params) (n : Nat)

/-! The words of the port that pack several registers (R47, R48, R53, R54, R58). -/

@[simp] theorem regStatus_resetWith : (State.resetWith p n).regStatus = 0 := by
  show Mode.code .idle ||| flagAt false 2 ||| flagAt false 3 ||| flagAt false 4 = 0
  decide

@[simp] theorem regFault_resetWith : (State.resetWith p n).regFault = 0 := by
  show (0 : Byte).setWidth 32 ||| ((0 : Byte).setWidth 32 <<< 8) = 0
  decide

@[simp] theorem regQueue_resetWith : (State.resetWith p n).regQueue = 0 := by
  show (0 : Byte).setWidth 32 ||| ((0 : BitVec 3).setWidth 32 <<< 8) = 0
  decide

/-- Bit 9 is RUN_POL, all ones after reset (R36). -/
@[simp] theorem regEmit_resetWith : (State.resetWith p n).regEmit = 0x00000200 := by
  show (0 : Byte).setWidth 32 ||| flagAt false 8 ||| flagAt (Polarity.bit .allOnes) 9 = 0x00000200
  decide

/-- Bit 9 is RCV_STATE, DONE after reset (R40). -/
@[simp] theorem regRcv_resetWith : (State.resetWith p n).regRcv = 0x00000200 := by
  show (0 : Byte).setWidth 32 ||| flagAt false 8 ||| flagAt (RcvState.bit .done) 9 = 0x00000200
  decide

/-- R46's column of reset values: only RANGE, EMIT and RCV do not read as 0. -/
theorem readReg_resetWith (a : Byte) :
    readReg (State.resetWith p n) a =
      if a.toNat / 4 = 4 then 0xFFFFFFFF
      else if a.toNat / 4 = 7 ∨ a.toNat / 4 = 12 then 0x00000200
      else 0 := by
  by_cases h : 13 ≤ a.toNat / 4
  case pos => rw [readReg_unlisted h, if_neg (by omega), if_neg (by omega)]
  case neg =>
    have hlisted : a.toNat / 4 < 13 := Nat.lt_of_not_le h
    unfold readReg
    generalize a.toNat / 4 = k at hlisted
    match k with
    | 0 => exact regStatus_resetWith p n
    | 1 => exact regFault_resetWith p n
    | 2 | 3 | 4 | 5 | 8 | 9 | 10 | 11 => rfl
    | 6 => exact regQueue_resetWith p n
    | 7 => exact regEmit_resetWith p n
    | 12 => exact regRcv_resetWith p n
    | m + 13 => omega

end

/-- Settles O8: the fields as `State.resetWith` writes them, and the port's reading of them. -/
theorem resetValues : Obligations.ResetValues := by
  unfold Obligations.ResetValues
  intro s t h
  cases h
  refine ⟨⟨rfl, rfl, rfl, rfl, rfl⟩, ?zeros, ⟨rfl, rfl, rfl⟩, readReg_resetWith _ _⟩
  case zeros => exact ⟨rfl, rfl, rfl, rfl, rfl, rfl, rfl, rfl, rfl, rfl, rfl, rfl, rfl, rfl, rfl, rfl, rfl⟩

/-! ## The invariant at reset -/

/-- The parameters of `State.reset`, which no proof can evaluate, are within R6's bounds. -/
theorem config_params_valid : Config.params.valid :=
  ⟨⟨Nat.succ_pos _, Config.inSizePred.isLt⟩, ⟨Nat.succ_pos _, Config.ptSizePred.isLt⟩, Nat.succ_pos _⟩

/-- Settles O9: `State.reset` is a reset with parameters within R6's bounds. -/
theorem invariantHoldsAtReset : Obligations.InvariantHoldsAtReset := by
  unfold Obligations.InvariantHoldsAtReset
  exact ⟨State.resetWith_inv config_params_valid 0, fun _ n hp => State.resetWith_inv hp n⟩

end Sys2Proof.Machine
end
